-- ==== Sys2Proof/Word.lean ====
section
/-!
DEFINITION. The widths of the HLZ core's data: bytes and symbols (00_scope.md R1), 32-bit codes, values and
node words (10_state.md R16, R19), the 64-bit command word (30_encoding.md R60) and the 40-bit response word (R63).
-/
namespace Sys2Proof

/-- A symbol or a byte: 8 bits, unsigned (00_scope.md R1). -/
abbrev Byte := BitVec 8

/-- An LZW code, a node word or a value: 32 bits, unsigned (10_state.md R16, 30_encoding.md R63, R65). -/
abbrev Word := BitVec 32

/-- A command word: 64 bits (30_encoding.md R60). -/
abbrev Command := BitVec 64

/-- A response word: 40 bits (30_encoding.md R63). -/
abbrev Response := BitVec 40

end Sys2Proof
end

