-- ==== Sys2Proof/Syntax.lean ====
section
/-!
DEFINITION. The 24 commands of the set HLZ-1, one constructor per row of spec/opcode_table.json
(30_encoding.md R62), with the operands of R61.
-/
namespace Sys2Proof

/-- A command (30_encoding.md R61, R62). An operand has the width the command uses of its field. -/
inductive Instr where
  | nop
  | rst
  | csrr (addr : BitVec 8)
  | ibClr
  | ibPush (byte : BitVec 8)
  | ibRd (idx : BitVec 24)
  | obRd (idx : BitVec 24)
  | cbClr
  | cbPush (code : BitVec 32)
  | cbRd (idx : BitVec 24)
  | treeWr (idx : BitVec 9) (word : BitVec 32)
  | treeRd (idx : BitVec 9)
  | treeCfg (root : BitVec 9) (count : BitVec 10)
  | treeClr
  | bspOpen
  | bspWbit (value : BitVec 32)
  | bspFlush
  | bsuOpen
  | bsuRbit
  | htdDecode (count : BitVec 32)
  | lzeEncode (max : BitVec 32)
  | lzdDecode (max : BitVec 32)
  | cpkPack
  | cupUnpack
deriving DecidableEq, Repr

end Sys2Proof
end

