-- ==== Sys2Proof/WellFormed.lean ====
section
/-!
DEFINITION. When a term of `Instr` is a command: the one reserved field that its operands can still hold, bits
30:26 of the node word of `TREE.WR` (30_encoding.md R61, R65), is zero.
-/
namespace Sys2Proof

/-- Every command is well formed but a `TREE.WR` whose node word has one of the reserved bits 30:26 set
(30_encoding.md R61, R65). -/
def Instr.wellFormed (i : Instr) : Bool :=
  match i with
  | .treeWr _ word => word.extractLsb' 26 5 == 0#5
  | .nop | .rst | .csrr _ | .ibClr | .ibPush _ | .ibRd _ | .obRd _ | .cbClr | .cbPush _ | .cbRd _
  | .treeRd _ | .treeCfg _ _ | .treeClr | .bspOpen | .bspWbit _ | .bspFlush | .bsuOpen | .bsuRbit
  | .htdDecode _ | .lzeEncode _ | .lzdDecode _ | .cpkPack | .cupUnpack => true

end Sys2Proof
end

