-- ==== Sys2Proof/Decode.lean ====
section
/-!
DEFINITION. The command word (30_encoding.md R60 to R62, R66): its three fields, the decoder, total on all 2^64
words and refusing an illegal word by name, and the encoder.
-/
namespace Sys2Proof

/-- `OPC`, bits 63:56 (30_encoding.md R60). -/
def opcOf (c : BitVec 64) : BitVec 8 := c.extractLsb' 56 8

/-- `A`, bits 55:32 (30_encoding.md R60). -/
def aOf (c : BitVec 64) : BitVec 24 := c.extractLsb' 32 24

/-- `B`, bits 31:0 (30_encoding.md R60). -/
def bOf (c : BitVec 64) : BitVec 32 := c.extractLsb' 0 32

/-- The word of three fields, `(OPC << 56) | (A << 32) | B` (30_encoding.md R60, R72). -/
def cmdWord (opc : BitVec 8) (a : BitVec 24) (b : BitVec 32) : BitVec 64 := (opc ++ a ++ b : BitVec (8 + 24 + 32))

/-- Bits 30:26 of a node word, reserved zero (30_encoding.md R65). -/
def reservedNodeBits (w : BitVec 32) : BitVec 5 := w.extractLsb' 26 5

/-- Why a word is no command (30_encoding.md R66): its opcode is not one of the 24, or a bit reserved for its
opcode is 1. Either way the word raises `IllegalCommand` (60_exceptions.md R204). -/
inductive Illegal where
  /-- `OPC` is none of the 24 values of R62. -/
  | undefinedOpcode
  /-- A bit that R61 reserves for this `OPC` is 1. -/
  | reservedBit
deriving DecidableEq, Repr

/-- The command `i` when every reserved bit is zero, else the word is illegal (30_encoding.md R61). -/
def whenClear (clear : Bool) (i : Instr) : Except Illegal Instr :=
  if clear then .ok i else .error .reservedBit

/-- The decoder (30_encoding.md R61, R62, R66). -/
def decode (c : BitVec 64) : Except Illegal Instr :=
  let a := aOf c
  let b := bOf c
  let noA := a == 0#24
  let noB := b == 0#32
  let bare := noA && noB
  match opcOf c with
  | 0x01#8 => whenClear bare .nop
  | 0x02#8 => whenClear bare .rst
  | 0x03#8 => whenClear (a.extractLsb' 8 16 == 0#16 && noB) (.csrr (a.extractLsb' 0 8))
  | 0x10#8 => whenClear bare .ibClr
  | 0x11#8 => whenClear (noA && b.extractLsb' 8 24 == 0#24) (.ibPush (b.extractLsb' 0 8))
  | 0x12#8 => whenClear noB (.ibRd a)
  | 0x14#8 => whenClear noB (.obRd a)
  | 0x15#8 => whenClear bare .cbClr
  | 0x16#8 => whenClear noA (.cbPush b)
  | 0x17#8 => whenClear noB (.cbRd a)
  | 0x20#8 => whenClear (a.extractLsb' 9 15 == 0#15 && reservedNodeBits b == 0#5) (.treeWr (a.extractLsb' 0 9) b)
  | 0x21#8 => whenClear (a.extractLsb' 9 15 == 0#15 && noB) (.treeRd (a.extractLsb' 0 9))
  | 0x22#8 => whenClear (a.extractLsb' 9 15 == 0#15 && b.extractLsb' 10 22 == 0#22)
                (.treeCfg (a.extractLsb' 0 9) (b.extractLsb' 0 10))
  | 0x23#8 => whenClear bare .treeClr
  | 0x30#8 => whenClear bare .bspOpen
  | 0x31#8 => whenClear noA (.bspWbit b)
  | 0x32#8 => whenClear bare .bspFlush
  | 0x34#8 => whenClear bare .bsuOpen
  | 0x35#8 => whenClear bare .bsuRbit
  | 0x40#8 => whenClear noA (.htdDecode b)
  | 0x50#8 => whenClear noA (.lzeEncode b)
  | 0x51#8 => whenClear noA (.lzdDecode b)
  | 0x52#8 => whenClear bare .cpkPack
  | 0x53#8 => whenClear bare .cupUnpack
  | _ => .error .undefinedOpcode

/-- The opcode of a command (30_encoding.md R62). -/
def Instr.opcode (i : Instr) : BitVec 8 :=
  match i with
  | .nop => 0x01#8
  | .rst => 0x02#8
  | .csrr _ => 0x03#8
  | .ibClr => 0x10#8
  | .ibPush _ => 0x11#8
  | .ibRd _ => 0x12#8
  | .obRd _ => 0x14#8
  | .cbClr => 0x15#8
  | .cbPush _ => 0x16#8
  | .cbRd _ => 0x17#8
  | .treeWr _ _ => 0x20#8
  | .treeRd _ => 0x21#8
  | .treeCfg _ _ => 0x22#8
  | .treeClr => 0x23#8
  | .bspOpen => 0x30#8
  | .bspWbit _ => 0x31#8
  | .bspFlush => 0x32#8
  | .bsuOpen => 0x34#8
  | .bsuRbit => 0x35#8
  | .htdDecode _ => 0x40#8
  | .lzeEncode _ => 0x50#8
  | .lzdDecode _ => 0x51#8
  | .cpkPack => 0x52#8
  | .cupUnpack => 0x53#8

/-- The `A` field of a command (30_encoding.md R61). -/
def Instr.fieldA (i : Instr) : BitVec 24 :=
  match i with
  | .csrr addr => addr.setWidth 24
  | .ibRd idx | .obRd idx | .cbRd idx => idx
  | .treeWr idx _ | .treeRd idx => idx.setWidth 24
  | .treeCfg root _ => root.setWidth 24
  | .nop | .rst | .ibClr | .ibPush _ | .cbClr | .cbPush _ | .treeClr | .bspOpen | .bspWbit _ | .bspFlush
  | .bsuOpen | .bsuRbit | .htdDecode _ | .lzeEncode _ | .lzdDecode _ | .cpkPack | .cupUnpack => 0#24

/-- The `B` field of a command (30_encoding.md R61). -/
def Instr.fieldB (i : Instr) : BitVec 32 :=
  match i with
  | .ibPush byte => byte.setWidth 32
  | .cbPush code => code
  | .treeWr _ word => word
  | .treeCfg _ count => count.setWidth 32
  | .bspWbit value => value
  | .htdDecode count => count
  | .lzeEncode max | .lzdDecode max => max
  | .nop | .rst | .csrr _ | .ibClr | .ibRd _ | .obRd _ | .cbClr | .cbRd _ | .treeRd _ | .treeClr | .bspOpen
  | .bspFlush | .bsuOpen | .bsuRbit | .cpkPack | .cupUnpack => 0#32

/-- The encoder: the word of a command (30_encoding.md R60, R72). -/
def encode (i : Instr) : BitVec 64 := cmdWord i.opcode i.fieldA i.fieldB

/-- The decoder on a table row's bits. A row is one whole 64-bit command word (30_encoding.md R69), which has
no byte order (20_memory.md R49; DEDUCED, log 15); bit 0 is its least significant bit, and bits from `nbits` up are zero. -/
def decodeTableWord (nbits w : Nat) : Option Instr :=
  match decode (BitVec.ofNat 64 (w % 2 ^ nbits)) with
  | .ok i => some i
  | .error _ => none

/-- One row of the opcode map: a word `c` is the command of the row exactly when `c & mask = pattern`
(30_encoding.md R62). -/
structure OpcodeRow where
  mask    : BitVec 64
  pattern : BitVec 64
deriving DecidableEq, Repr

/-- The masks and match values of 30_encoding.md R62, row by row. -/
def opcodeMap : List OpcodeRow :=
  [⟨0xFFFFFFFFFFFFFFFF#64, 0x0100000000000000#64⟩,  -- NOP
   ⟨0xFFFFFFFFFFFFFFFF#64, 0x0200000000000000#64⟩,  -- RST
   ⟨0xFFFFFF00FFFFFFFF#64, 0x0300000000000000#64⟩,  -- CSRR
   ⟨0xFFFFFFFFFFFFFFFF#64, 0x1000000000000000#64⟩,  -- IB.CLR
   ⟨0xFFFFFFFFFFFFFF00#64, 0x1100000000000000#64⟩,  -- IB.PUSH
   ⟨0xFF000000FFFFFFFF#64, 0x1200000000000000#64⟩,  -- IB.RD
   ⟨0xFF000000FFFFFFFF#64, 0x1400000000000000#64⟩,  -- OB.RD
   ⟨0xFFFFFFFFFFFFFFFF#64, 0x1500000000000000#64⟩]  -- CB.CLR
  ++
  [⟨0xFFFFFFFF00000000#64, 0x1600000000000000#64⟩,  -- CB.PUSH
   ⟨0xFF000000FFFFFFFF#64, 0x1700000000000000#64⟩,  -- CB.RD
   ⟨0xFFFFFE007C000000#64, 0x2000000000000000#64⟩,  -- TREE.WR
   ⟨0xFFFFFE00FFFFFFFF#64, 0x2100000000000000#64⟩,  -- TREE.RD
   ⟨0xFFFFFE00FFFFFC00#64, 0x2200000000000000#64⟩,  -- TREE.CFG
   ⟨0xFFFFFFFFFFFFFFFF#64, 0x2300000000000000#64⟩,  -- TREE.CLR
   ⟨0xFFFFFFFFFFFFFFFF#64, 0x3000000000000000#64⟩,  -- BSP.OPEN
   ⟨0xFFFFFFFF00000000#64, 0x3100000000000000#64⟩]  -- BSP.WBIT
  ++
  [⟨0xFFFFFFFFFFFFFFFF#64, 0x3200000000000000#64⟩,  -- BSP.FLUSH
   ⟨0xFFFFFFFFFFFFFFFF#64, 0x3400000000000000#64⟩,  -- BSU.OPEN
   ⟨0xFFFFFFFFFFFFFFFF#64, 0x3500000000000000#64⟩,  -- BSU.RBIT
   ⟨0xFFFFFFFF00000000#64, 0x4000000000000000#64⟩,  -- HTD.DECODE
   ⟨0xFFFFFFFF00000000#64, 0x5000000000000000#64⟩,  -- LZE.ENCODE
   ⟨0xFFFFFFFF00000000#64, 0x5100000000000000#64⟩,  -- LZD.DECODE
   ⟨0xFFFFFFFFFFFFFFFF#64, 0x5200000000000000#64⟩,  -- CPK.PACK
   ⟨0xFFFFFFFFFFFFFFFF#64, 0x5300000000000000#64⟩]  -- CUP.UNPACK

/-- A word is the command of a row (30_encoding.md R62). -/
def OpcodeRow.covers (r : OpcodeRow) (c : BitVec 64) : Bool := c &&& r.mask == r.pattern

end Sys2Proof
end

