-- ==== Sys2Proof/Config.lean ====
section
/-!
DEFINITION. The four open parameters of one instance of the block (00_scope.md R6). The spec draws nothing at
run time (93_implementation_defined.md, end of Part 1), so there is no free value here.
-/
namespace Sys2Proof

/-- The constants `IB_CAP`, `OB_CAP`, `CB_CAP`, `DICT_CAP` of one instance (00_scope.md R6). `State` carries
them in its field `cfg`, which no step writes, so that a statement about every state is a statement for every
value of the parameters (DESIGN CHOICE, log 1). -/
structure Config where
  ibCap   : Nat
  obCap   : Nat
  cbCap   : Nat
  dictCap : Nat
deriving DecidableEq, Repr

/-- The ranges of the parameters (00_scope.md R6). -/
abbrev Config.Ok (c : Config) : Prop :=
  (1 ≤ c.ibCap ∧ c.ibCap ≤ 2 ^ 24) ∧ (1 ≤ c.obCap ∧ c.obCap ≤ 2 ^ 24) ∧
  (1 ≤ c.cbCap ∧ c.cbCap ≤ 2 ^ 24) ∧ (256 ≤ c.dictCap ∧ c.dictCap ≤ 2 ^ 32 - 1)

/-- The instance that `State.reset` describes. DESIGN CHOICE (log 1): the largest buffers R6 admits, and the
suggested `DICT_CAP`. Unsafe for a claim about a run from reset that rests on these numbers. -/
def Config.resetInstance : Config :=
  { ibCap := 2 ^ 24, obCap := 2 ^ 24, cbCap := 2 ^ 24, dictCap := 65536 }

end Sys2Proof
end

