-- ==== Sys2Proof/Machine/State.lean ====
section
/-!
DEFINITION. The state of the HLZ core as plain data (10_state.md R10) with its reset values (R27), the three
fields the model carries beside it (the instance's parameters, what the host presents, the responses given), and
the reasons a step can stop: none for a spec fault, which is a next state (60_exceptions.md R203).
-/
namespace Sys2Proof.Machine

/-- What the host can do to the core between two commands (30_encoding.md R71, 70_reset_and_hazards.md R230):
present a command word, or assert the hardware reset input. -/
inductive HostEvent where
  | command (word : BitVec 64)
  | hardwareReset
deriving DecidableEq, Repr

/-- Why the machine stops with a fault: there is no reason. Every fault of the spec is taken as a next state
(latch, response, HALTED: 60_exceptions.md R203), and `exec` is total (R200; DEDUCED, log 16). Nothing raises it; safe. -/
inductive Fault where
deriving DecidableEq, Repr

/-- Why a step is refused. -/
inductive Refusal where
  /-- An arm of `exec` that has no meaning yet, by the table's mnemonic. No arm raises it: every command has its
  meaning. Safe. -/
  | notModelled (mnemonic : String)
deriving DecidableEq, Repr

/-- The complete architectural state (10_state.md R10). `IB`, `OB`, `CB` hold their valid elements only, so
`IB_LEN`, `OB_LEN`, `CB_LEN` are the lists' lengths; `E_SIZE` and `D_SIZE` are the dictionaries' lengths (DEDUCED, log 6);
`tree` lists the entries with `TREE_V[i] = 1`, by rising index (DEDUCED, log 7). -/
structure State where
  /-- `FAULT`: 0 READY, else the latched code, HALTED (R13). -/
  fault    : BitVec 8
  /-- `FINFO` (R13). -/
  finfo    : BitVec 32
  /-- `FOPC` (R13). -/
  fopc     : BitVec 8
  /-- `IB[0 .. IB_LEN-1]` (R14). -/
  ib       : List (BitVec 8)
  /-- `IB_PTR` (R17). -/
  ibPtr    : BitVec 32
  /-- `BITBUF` (R17). -/
  bitbuf   : BitVec 8
  /-- `BITCNT` (R17). -/
  bitcnt   : BitVec 4
  /-- `OB[0 .. OB_LEN-1]` (R15). -/
  ob       : List (BitVec 8)
  /-- `ACC` (R18). -/
  acc      : BitVec 8
  /-- `NACC` (R18). -/
  nacc     : BitVec 3
  /-- `CB[0 .. CB_LEN-1]` (R16). -/
  cb       : List (BitVec 32)
  /-- `TREE` and `TREE_V` (R19). -/
  tree     : List (Nat × BitVec 32)
  /-- `TREE_N` (R19). -/
  treeN    : BitVec 10
  /-- `TREE_ROOT` (R19). -/
  treeRoot : BitVec 9
  /-- `HTD_CUR` (R11, R20). -/
  htdCur   : BitVec 9
  /-- `HTD_EXP` (R20). -/
  htdExp   : BitVec 32
  /-- `E_DICT`, entry j the string of code j (R21). -/
  eDict    : List (List (BitVec 8))
  /-- `E_MAX` (R21). -/
  eMax     : BitVec 32
  /-- `E_W` (R21). -/
  eW       : List (BitVec 8)
  /-- `D_DICT`, entry j the string of code j (R22). -/
  dDict    : List (List (BitVec 8))
  /-- `D_MAX` (R22). -/
  dMax     : BitVec 32
  /-- `D_W` (R22). -/
  dW       : List (BitVec 8)
  /-- The model's own: the parameters of this instance (00_scope.md R6); no step writes it (DESIGN CHOICE, log 1). -/
  cfg      : Config
  /-- The model's own: what the host presents from here on, next first (DESIGN CHOICE, log 2). -/
  input    : List HostEvent
  /-- The model's own: the responses given so far, oldest first (00_scope.md R3; DESIGN CHOICE, log 3). -/
  rsps     : List (BitVec 40)
deriving DecidableEq, Repr

/-- The state right after reset (10_state.md R27). The three fields of the model's own are DESIGN CHOICE
(log 1, 2, 3). -/
def State.reset : State :=
  { fault := 0#8, finfo := 0#32, fopc := 0#8
    ib := [], ibPtr := 0#32, bitbuf := 0#8, bitcnt := 0#4
    ob := [], acc := 0#8, nacc := 0#3
    cb := []
    tree := [], treeN := 0#10, treeRoot := 0#9
    htdCur := 0#9, htdExp := 0#32
    eDict := [], eMax := 0#32, eW := []
    dDict := [], dMax := 0#32, dW := []
    cfg := Config.resetInstance, input := [], rsps := [] }

end Sys2Proof.Machine
end

