-- ==== Sys2Proof/Machine/Flags.lean ====
section
/-!
DEFINITION. The block has no flags and no condition codes (10_state.md R25). What acts as status is computed here: the
`ST` field of a response and the response word (30_encoding.md R63, R64), the fault kinds and their codes
(60_exceptions.md R214), the modes READY and HALTED (R201) and the `fault` output (R216).
-/
namespace Sys2Proof.Machine

/-- The statuses (30_encoding.md R64). -/
inductive Status where
  | ok
  | eos
  | fault
  | halted
deriving DecidableEq, Repr

/-- The `ST` byte of a status (30_encoding.md R64). -/
def stCode (st : Status) : BitVec 8 :=
  match st with
  | .ok => 0x00#8
  | .eos => 0x01#8
  | .fault => 0x02#8
  | .halted => 0x03#8

/-- A response word, `ST` in bits 39:32 and `VAL` in bits 31:0 (30_encoding.md R63). -/
def responseWord (st : Status) (val : BitVec 32) : BitVec 40 := (stCode st ++ val : BitVec (8 + 32))

/-- The named fault conditions (60_exceptions.md R204 to R213). -/
inductive FaultKind where
  | illegalCommand
  | invalidBitValue
  /-- Reserved for the host's use; no command raises it (60_exceptions.md R206; DEDUCED, log 17). -/
  | unknownSymbol
  | unknownCode
  | malformedBuffer
  | noTree
  | badTree
  | badIndex
  | overflow
  | badConfig
deriving DecidableEq, Repr

/-- The code of a fault, the value `FAULT` takes (60_exceptions.md R214). -/
def faultCode (k : FaultKind) : BitVec 8 :=
  match k with
  | .illegalCommand => 0x01#8
  | .invalidBitValue => 0x02#8
  | .unknownSymbol => 0x03#8
  | .unknownCode => 0x04#8
  | .malformedBuffer => 0x05#8
  | .noTree => 0x06#8
  | .badTree => 0x07#8
  | .badIndex => 0x08#8
  | .overflow => 0x09#8
  | .badConfig => 0x0A#8

/-- The core is HALTED exactly while `FAULT` is not 0 (60_exceptions.md R201). -/
def halted (s : State) : Bool := s.fault != 0#8

/-- The level output `fault` (30_encoding.md R71, 60_exceptions.md R216). -/
def faultOut (s : State) : Bool := halted s

end Sys2Proof.Machine
end

