-- ==== Sys2Proof/Machine/Operands.lean ====
section
/-!
DEFINITION. The operand forms: the register a `CSRR` address names (10_state.md R23), the fields of a node word
(30_encoding.md R65), one bit of a byte and one bit of a value, and the two bytes of a serialised code
(20_memory.md R46 to R48).
-/
namespace Sys2Proof.Machine

/-- `IB_LEN` (10_state.md R14). -/
def ibLen (s : State) : BitVec 32 := BitVec.ofNat 32 s.ib.length

/-- `OB_LEN` (10_state.md R15). -/
def obLen (s : State) : BitVec 32 := BitVec.ofNat 32 s.ob.length

/-- `CB_LEN` (10_state.md R16). -/
def cbLen (s : State) : BitVec 32 := BitVec.ofNat 32 s.cb.length

/-- `E_SIZE` (10_state.md R21). -/
def eSize (s : State) : BitVec 32 := BitVec.ofNat 32 s.eDict.length

/-- `D_SIZE` (10_state.md R22). -/
def dSize (s : State) : BitVec 32 := BitVec.ofNat 32 s.dDict.length

/-- The register at a `CSRR` address, zero-extended to 32 bits; none at an undefined address
(10_state.md R23). -/
def registerAt (addr : BitVec 8) (s : State) : Option (BitVec 32) :=
  match addr with
  | 0x00#8 => some (s.fault.setWidth 32)
  | 0x01#8 => some s.finfo
  | 0x02#8 => some (s.fopc.setWidth 32)
  | 0x10#8 => some (ibLen s)
  | 0x11#8 => some s.ibPtr
  | 0x12#8 => some (s.bitbuf.setWidth 32)
  | 0x13#8 => some (s.bitcnt.setWidth 32)
  | 0x14#8 => some (obLen s)
  | 0x15#8 => some (s.acc.setWidth 32)
  | 0x16#8 => some (s.nacc.setWidth 32)
  | 0x17#8 => some (cbLen s)
  | 0x20#8 => some (s.treeN.setWidth 32)
  | 0x21#8 => some (s.treeRoot.setWidth 32)
  | 0x22#8 => some (s.htdCur.setWidth 32)
  | 0x23#8 => some s.htdExp
  | 0x30#8 => some (eSize s)
  | 0x31#8 => some s.eMax
  | 0x32#8 => some (dSize s)
  | 0x33#8 => some s.dMax
  | _ => none

/-- `K`, bit 31 of a node word: true for a leaf (30_encoding.md R65). -/
def nodeIsLeaf (w : BitVec 32) : Bool := w.getLsbD 31

/-- `LEFT`, bits 25:17 (30_encoding.md R65). -/
def nodeLeft (w : BitVec 32) : BitVec 9 := w.extractLsb' 17 9

/-- `RIGHT`, bits 16:8 (30_encoding.md R65). -/
def nodeRight (w : BitVec 32) : BitVec 9 := w.extractLsb' 8 9

/-- `SYM`, bits 7:0 (30_encoding.md R65). -/
def nodeSym (w : BitVec 32) : BitVec 8 := w.extractLsb' 0 8

/-- `LEAF(s) = 0x80000000 | s` (30_encoding.md R65). -/
def leafWord (sym : BitVec 8) : BitVec 32 := 0x80000000#32 ||| sym.setWidth 32

/-- `NODE(l, r) = (l << 17) | (r << 8)` (30_encoding.md R65). -/
def nodeWord (l r : BitVec 9) : BitVec 32 := (l.setWidth 32 <<< 17) ||| (r.setWidth 32 <<< 8)

/-- `v[15:8]`, the byte of a code that is serialised first (20_memory.md R48). -/
def codeHigh (k : BitVec 32) : BitVec 8 := k.extractLsb' 8 8

/-- `v[7:0]`, the byte of a code that is serialised second (20_memory.md R48). -/
def codeLow (k : BitVec 32) : BitVec 8 := k.extractLsb' 0 8

/-- Two serialised bytes as a code, `h * 256 + l` zero-extended (20_memory.md R48, 43_lzw.md R158). -/
def codeOfBytes (h l : BitVec 8) : BitVec 32 := (h ++ l : BitVec (8 + 8)).setWidth 32

/-- The bit of a byte that is delivered when `cnt` of its bits remain, `byte[cnt - 1]`
(41_bitstream.md R107). -/
def bitAt (byte : BitVec 8) (cnt : Nat) : Bool := byte.getLsbD (cnt - 1)

/-- A bit as a 32-bit value (41_bitstream.md R108). -/
def bitValue (b : Bool) : BitVec 32 := if b then 1#32 else 0#32

/-- `((acc << 1) | v[0])[7:0]`, the accumulator with one bit shifted in at the low end
(41_bitstream.md R101). -/
def shiftIn (acc : BitVec 8) (v : BitVec 32) : BitVec 8 := (acc <<< 1) ||| (v.extractLsb' 0 1).setWidth 8

/-- `(acc << (8 - n))[7:0]`, the pending bits at the top of the byte over zeros (41_bitstream.md R104). -/
def padded (acc : BitVec 8) (n : BitVec 3) : BitVec 8 := acc <<< (8 - n.toNat)

end Sys2Proof.Machine
end

