-- ==== Sys2Proof/Machine/Ops.lean ====
section
/-!
DEFINITION. The named operations every command is made of: the storages and their primitives (20_memory.md R41
to R45), the bit source (41_bitstream.md R107), the response, taking a fault and the return from it
(60_exceptions.md R200 to R203, R217), and the common path of a command (R200).
-/
namespace Sys2Proof.Machine

/-! ## Raising, responding, faulting, resetting -/

/-- `raise F(info)`: the command is abandoned with this fault (60_exceptions.md R203). -/
structure Raise where
  kind : FaultKind
  info : BitVec 32
deriving DecidableEq, Repr

/-- What a command's own rule gives when it raises nothing: the working copy and the response
(60_exceptions.md R200). -/
structure Reply where
  after  : State
  status : Status
  val    : BitVec 32
deriving DecidableEq, Repr

/-- The response is given (30_encoding.md R63). -/
def respond (st : Status) (val : BitVec 32) (s : State) : State :=
  { s with rsps := s.rsps ++ [responseWord st val] }

/-- `latch(s, F, info, opc)`: the three fault registers are written and nothing else (60_exceptions.md R200). -/
def latch (r : Raise) (opc : BitVec 8) (s : State) : State :=
  { s with fault := faultCode r.kind, finfo := r.info, fopc := opc }

/-- Taking a fault (60_exceptions.md R203): every other write of the command is discarded, the latch is set and
so the core is HALTED, and the response is `(FAULT, code)`. `s` is the state before the command. -/
def takeFault (r : Raise) (opc : BitVec 8) (s : State) : State :=
  respond .fault ((faultCode r.kind).setWidth 32) (latch r opc s)

/-- Every piece of state takes its reset value (70_reset_and_hazards.md R230); the parameters, what the host
presents and the responses given are not state of the block. This is the only return from a fault
(60_exceptions.md R217). -/
def resetCore (s : State) : State :=
  { State.reset with cfg := s.cfg, input := s.input, rsps := s.rsps }

/-- A command sent to a HALTED core is refused and changes nothing (60_exceptions.md R202). -/
def refuseHalted (s : State) : State := respond .halted (s.fault.setWidth 32) s

/-- The common path of every command but `RST` and `CSRR` (60_exceptions.md R200): refused when HALTED, else its
own rule runs on a working copy, which a `raise` discards. -/
def runRule (opc : BitVec 8) (rule : State → Except Raise Reply) (s : State) : Host.Outcome State Fault Refusal :=
  if halted s then .next (refuseHalted s)
  else
    match rule s with
    | .ok r => .next (respond r.status r.val r.after)
    | .error f => .next (takeFault f opc s)

/-- A rule that completes with status `OK`. -/
def okReply (val : BitVec 32) (s : State) : Except Raise Reply := .ok { after := s, status := .ok, val := val }

/-- An illegal word (60_exceptions.md R200, R204): refused when HALTED, else `IllegalCommand` with the word's `B`
field and opcode byte. -/
def runIllegal (word : BitVec 64) (s : State) : State :=
  if halted s then refuseHalted s else takeFault ⟨.illegalCommand, bOf word⟩ (opcOf word) s

/-! ## The byte and code buffers -/

/-- `append_IB` (20_memory.md R43; DEDUCED, log 18). -/
def appendIb (v : BitVec 8) (s : State) : Except Raise State :=
  if s.ib.length = s.cfg.ibCap then .error ⟨.overflow, 0#32⟩ else .ok { s with ib := s.ib ++ [v] }

/-- `append_OB` (20_memory.md R43). -/
def appendOb (v : BitVec 8) (s : State) : Except Raise State :=
  if s.ob.length = s.cfg.obCap then .error ⟨.overflow, 1#32⟩ else .ok { s with ob := s.ob ++ [v] }

/-- `append_CB` (20_memory.md R43). -/
def appendCb (v : BitVec 32) (s : State) : Except Raise State :=
  if s.cb.length = s.cfg.cbCap then .error ⟨.overflow, 2#32⟩ else .ok { s with cb := s.cb ++ [v] }

/-- `append_OB_string` (20_memory.md R43): the bytes of the string in order. -/
def appendObString (bytes : List (BitVec 8)) (s : State) : Except Raise State :=
  match bytes with
  | [] => .ok s
  | v :: rest =>
    match appendOb v s with
    | .error r => .error r
    | .ok t => appendObString rest t

/-- `repeat n times: append_OB(v)` (42_huffman_decoder.md R126). -/
def appendObTimes (n : Nat) (v : BitVec 8) (s : State) : Except Raise State :=
  match n with
  | 0 => .ok s
  | k + 1 =>
    match appendOb v s with
    | .error r => .error r
    | .ok t => appendObTimes k v t

/-- `open_sink_OB` (20_memory.md R44). -/
def openSinkOb (s : State) : State := { s with ob := [], acc := 0#8, nacc := 0#3 }

/-- `open_source_IB` (20_memory.md R45). -/
def openSourceIb (s : State) : State := { s with ibPtr := 0#32, bitbuf := 0#8, bitcnt := 0#4 }

/-- The guarded read of one element of `IB`, `OB` or `CB` (20_memory.md R41): `BadIndex` with the index at or
beyond the length. -/
def readElement {w : Nat} (elements : List (BitVec w)) (idx : BitVec 24) : Except Raise (BitVec w) :=
  match elements[idx.toNat]? with
  | some v => .ok v
  | none => .error ⟨.badIndex, idx.setWidth 32⟩

/-! ## The bit source -/

/-- `readbit()` (41_bitstream.md R107, R109): none is `EOS`, with no state change. At `IB_PTR` beyond `IB_LEN`,
which no run reaches (10_state.md R24), it is `EOS` too (DEDUCED, log 8). -/
def readBit (s : State) : Option (Bool × State) :=
  if s.bitcnt = 0#4 then
    match s.ib[s.ibPtr.toNat]? with
    | none => none
    | some byte => some (bitAt byte 8, { s with bitbuf := byte, ibPtr := s.ibPtr + 1#32, bitcnt := 7#4 })
  else some (bitAt s.bitbuf s.bitcnt.toNat, { s with bitcnt := s.bitcnt - 1#4 })

/-! ## The tree arena -/

/-- `TREE[i]` when `TREE_V[i] = 1`, else none (10_state.md R19, 20_memory.md R41). -/
def treeRead (tree : List (Nat × BitVec 32)) (i : Nat) : Option (BitVec 32) :=
  match tree with
  | [] => none
  | (j, w) :: rest => if i = j then some w else treeRead rest i

/-- `TREE[i] <- w; TREE_V[i] <- 1`, keeping the entries by rising index (42_huffman_decoder.md R120). -/
def treeWrite (tree : List (Nat × BitVec 32)) (i : Nat) (w : BitVec 32) : List (Nat × BitVec 32) :=
  match tree with
  | [] => [(i, w)]
  | (j, v) :: rest =>
    if i < j then (i, w) :: (j, v) :: rest
    else if i = j then (i, w) :: rest
    else (j, v) :: treeWrite rest i w

/-- The canonical form of the arena: indices strictly rising and below 512, reserved node bits zero
(10_state.md R19, 30_encoding.md R65; the list form is the model's: DEDUCED, log 7). -/
abbrev Memory.wf (tree : List (Nat × BitVec 32)) : Prop :=
  tree.Pairwise (fun a b => a.1 < b.1) ∧ ∀ cell ∈ tree, cell.1 < 512 ∧ reservedNodeBits cell.2 = 0#5

/-- `node(i)` (42_huffman_decoder.md R124): the node word of a declared and written entry, else `BadTree`. -/
def fetchNode (i : BitVec 9) (s : State) : Except Raise (BitVec 32) :=
  if s.treeN.toNat ≤ i.toNat then .error ⟨.badTree, i.setWidth 32⟩
  else
    match treeRead s.tree i.toNat with
    | some w => .ok w
    | none => .error ⟨.badTree, i.setWidth 32⟩

/-! ## The dictionaries -/

/-- The 256 seed entries (43_lzw.md R140). -/
def seedDict : List (List (BitVec 8)) := (List.range 256).map (fun j => [BitVec.ofNat 8 j])

/-- `check_max(M)` (43_lzw.md R141): true when `M < 256 or M > DICT_CAP`. -/
def badMax (max : BitVec 32) (s : State) : Bool := max.toNat < 256 || s.cfg.dictCap < max.toNat

/-- `code_of(s)`, the index of a string of the dictionary (43_lzw.md R142). It is used on strings of the
dictionary only (R144 item 1; DEDUCED, log 9). -/
def codeOf (dict : List (List (BitVec 8))) (str : List (BitVec 8)) : BitVec 32 := BitVec.ofNat 32 (dict.idxOf str)

/-- `str[0]` as a string of one byte (43_lzw.md R149, DEDUCED, log 9). -/
def firstByte (str : List (BitVec 8)) : List (BitVec 8) := str.take 1

/-! ## The command port -/

/-- The host presents this word as the next command (30_encoding.md R71). -/
def present (word : BitVec 64) (s : State) : State := { s with input := .command word :: s.input }

end Sys2Proof.Machine
end

