-- ==== Sys2Proof/Machine/BitStream.lean ====
section
/-!
DEFINITION. The bit-stream packer and unpacker (41_bitstream.md).
-/
namespace Sys2Proof.Machine

/-- `BSP.OPEN` (41_bitstream.md R100). -/
def execBspOpen (s : State) : Host.Outcome State Fault Refusal :=
  runRule 0x30#8 (fun t => okReply 0#32 (openSinkOb t)) s

/-- `BSP.WBIT` (41_bitstream.md R101): the value check comes before the append. -/
def execBspWbit (value : BitVec 32) (s : State) : Host.Outcome State Fault Refusal :=
  runRule 0x31#8 (fun t =>
    if value ≠ 0#32 ∧ value ≠ 1#32 then .error ⟨.invalidBitValue, value⟩
    else if t.nacc.toNat + 1 = 8 then
      match appendOb (shiftIn t.acc value) t with
      | .ok u => okReply (obLen u) { u with acc := 0#8, nacc := 0#3 }
      | .error r => .error r
    else okReply (obLen t) { t with acc := shiftIn t.acc value, nacc := t.nacc + 1#3 }) s

/-- `BSP.FLUSH` (41_bitstream.md R104). -/
def execBspFlush (s : State) : Host.Outcome State Fault Refusal :=
  runRule 0x32#8 (fun t =>
    if 0 < t.nacc.toNat then
      match appendOb (padded t.acc t.nacc) t with
      | .ok u => okReply (obLen u) { u with acc := 0#8, nacc := 0#3 }
      | .error r => .error r
    else okReply (obLen t) t) s

/-- `BSU.OPEN` (41_bitstream.md R106). -/
def execBsuOpen (s : State) : Host.Outcome State Fault Refusal :=
  runRule 0x34#8 (fun t => okReply 0#32 (openSourceIb t)) s

/-- `BSU.RBIT` (41_bitstream.md R108): end of stream is a status, not a fault. -/
def execBsuRbit (s : State) : Host.Outcome State Fault Refusal :=
  runRule 0x35#8 (fun t =>
    match readBit t with
    | some (b, u) => okReply (bitValue b) u
    | none => .ok { after := t, status := .eos, val := 0#32 }) s

end Sys2Proof.Machine
end

