-- ==== Sys2Proof/Machine/Buffers.lean ====
section
/-!
DEFINITION. The commands of the input, output and code buffers (40_system_and_buffers.md sections 2 to 4).
-/
namespace Sys2Proof.Machine

/-- `IB.CLR` (40_system_and_buffers.md R83): empties `IB` and rewinds the bit source. -/
def execIbClr (s : State) : Host.Outcome State Fault Refusal :=
  runRule 0x10#8 (fun t => okReply 0#32 (openSourceIb { t with ib := [] })) s

/-- `IB.PUSH` (40_system_and_buffers.md R84). -/
def execIbPush (byte : BitVec 8) (s : State) : Host.Outcome State Fault Refusal :=
  runRule 0x11#8 (fun t =>
    match appendIb byte t with
    | .ok u => okReply (ibLen u) u
    | .error r => .error r) s

/-- `IB.RD` (40_system_and_buffers.md R85). -/
def execIbRd (idx : BitVec 24) (s : State) : Host.Outcome State Fault Refusal :=
  runRule 0x12#8 (fun t =>
    match readElement t.ib idx with
    | .ok v => okReply (v.setWidth 32) t
    | .error r => .error r) s

/-- `OB.RD` (40_system_and_buffers.md R86). -/
def execObRd (idx : BitVec 24) (s : State) : Host.Outcome State Fault Refusal :=
  runRule 0x14#8 (fun t =>
    match readElement t.ob idx with
    | .ok v => okReply (v.setWidth 32) t
    | .error r => .error r) s

/-- `CB.CLR` (40_system_and_buffers.md R87). -/
def execCbClr (s : State) : Host.Outcome State Fault Refusal :=
  runRule 0x15#8 (fun t => okReply 0#32 { t with cb := [] }) s

/-- `CB.PUSH` (40_system_and_buffers.md R88). -/
def execCbPush (code : BitVec 32) (s : State) : Host.Outcome State Fault Refusal :=
  runRule 0x16#8 (fun t =>
    match appendCb code t with
    | .ok u => okReply (cbLen u) u
    | .error r => .error r) s

/-- `CB.RD` (40_system_and_buffers.md R89). -/
def execCbRd (idx : BitVec 24) (s : State) : Host.Outcome State Fault Refusal :=
  runRule 0x17#8 (fun t =>
    match readElement t.cb idx with
    | .ok v => okReply v t
    | .error r => .error r) s

end Sys2Proof.Machine
end

