-- ==== Sys2Proof/Machine/Lzw.lean ====
section
/-!
DEFINITION. The LZW encode engine, the LZW decode engine and the code packer and unpacker (43_lzw.md).
-/
namespace Sys2Proof.Machine

/-- `enc_step(c)` (43_lzw.md R143): match, else emit, then insert below the cap, then restart with `c`. -/
def encStep (c : BitVec 8) (s : State) : Except Raise State :=
  let wc := s.eW ++ [c]
  if wc ∈ s.eDict then .ok { s with eW := wc }
  else
    match appendCb (codeOf s.eDict s.eW) s with
    | .error r => .error r
    | .ok t =>
      .ok { t with eDict := if s.eDict.length < s.eMax.toNat then s.eDict ++ [wc] else s.eDict, eW := [c] }

/-- `for i in 0 .. IB_LEN-1: enc_step(IB[i])` (43_lzw.md R142). -/
def encLoop (text : List (BitVec 8)) (s : State) : Except Raise State :=
  match text with
  | [] => .ok s
  | c :: rest =>
    match encStep c s with
    | .error r => .error r
    | .ok t => encLoop rest t

/-- The code of the final `w`, when `w` is not empty (43_lzw.md R142). -/
def encFinish (s : State) : Except Raise State :=
  if s.eW = [] then .ok s else appendCb (codeOf s.eDict s.eW) s

/-- The encode engine seeded for a session (43_lzw.md R140, R142). -/
def openEncode (max : BitVec 32) (s : State) : State := { s with eMax := max, eDict := seedDict, eW := [], cb := [] }

/-- `LZE.ENCODE` (43_lzw.md R142). -/
def execLzeEncode (max : BitVec 32) (s : State) : Host.Outcome State Fault Refusal :=
  runRule 0x50#8 (fun t =>
    if badMax max t then .error ⟨.badConfig, max⟩
    else
      match encLoop t.ib (openEncode max t) with
      | .error r => .error r
      | .ok u =>
        match encFinish u with
        | .error r => .error r
        | .ok v => okReply (cbLen v) v) s

/-- The string of code `k`: a known entry, or `w` and its own first byte for the next unassigned code, also when
the dictionary is full; else `UnknownCode` (43_lzw.md R149, R150). -/
def decResolve (k : BitVec 32) (s : State) : Except Raise (List (BitVec 8)) :=
  match s.dDict[k.toNat]? with
  | some entry => .ok entry
  | none =>
    if k.toNat = s.dDict.length then .ok (s.dW ++ firstByte s.dW)
    else .error ⟨.unknownCode, k⟩

/-- `dec_step(k)` (43_lzw.md R149): resolve, append, insert below the cap, then set `w`. -/
def decStep (k : BitVec 32) (s : State) : Except Raise State :=
  match decResolve k s with
  | .error r => .error r
  | .ok entry =>
    match appendObString entry s with
    | .error r => .error r
    | .ok t =>
      .ok { t with
            dDict := if s.dDict.length < s.dMax.toNat then s.dDict ++ [s.dW ++ firstByte entry] else s.dDict
            dW := entry }

/-- `for i in 1 .. CB_LEN-1: dec_step(CB[i])` (43_lzw.md R148). -/
def decLoop (codes : List (BitVec 32)) (s : State) : Except Raise State :=
  match codes with
  | [] => .ok s
  | k :: rest =>
    match decStep k s with
    | .error r => .error r
    | .ok t => decLoop rest t

/-- The first code names a seed entry, or it is `UnknownCode` (43_lzw.md R148, R153). -/
def decFirst (k : BitVec 32) (s : State) : Except Raise State :=
  match s.dDict[k.toNat]? with
  | none => .error ⟨.unknownCode, k⟩
  | some entry => appendObString entry { s with dW := entry }

/-- The decode engine seeded for a session and a fresh sink (43_lzw.md R140, R148). -/
def openDecodeLzw (max : BitVec 32) (s : State) : State :=
  openSinkOb { s with dMax := max, dDict := seedDict, dW := [] }

/-- `LZD.DECODE` (43_lzw.md R148, R152). -/
def execLzdDecode (max : BitVec 32) (s : State) : Host.Outcome State Fault Refusal :=
  runRule 0x51#8 (fun t =>
    if badMax max t then .error ⟨.badConfig, max⟩
    else
      match t.cb with
      | [] => okReply 0#32 (openDecodeLzw max t)
      | k0 :: rest =>
        match decFirst k0 (openDecodeLzw max t) with
        | .error r => .error r
        | .ok u =>
          match decLoop rest u with
          | .error r => .error r
          | .ok v => okReply (obLen v) v) s

/-- The loop of `CPK.PACK` (43_lzw.md R155): the high byte of each code, then its low byte. -/
def packLoop (codes : List (BitVec 32)) (s : State) : Except Raise State :=
  match codes with
  | [] => .ok s
  | k :: rest =>
    match appendObString [codeHigh k, codeLow k] s with
    | .error r => .error r
    | .ok t => packLoop rest t

/-- `CPK.PACK` (43_lzw.md R155, R156). -/
def execCpkPack (s : State) : Host.Outcome State Fault Refusal :=
  runRule 0x52#8 (fun t =>
    match packLoop t.cb (openSinkOb t) with
    | .error r => .error r
    | .ok u => okReply (obLen u) u) s

/-- The loop of `CUP.UNPACK` (43_lzw.md R158): one code per two bytes. Its caller has checked that the length is
even, so no single byte is ever left. -/
def unpackLoop (bytes : List (BitVec 8)) (s : State) : Except Raise State :=
  match bytes with
  | h :: l :: rest =>
    match appendCb (codeOfBytes h l) s with
    | .error r => .error r
    | .ok t => unpackLoop rest t
  | _ => .ok s

/-- `CUP.UNPACK` (43_lzw.md R158). -/
def execCupUnpack (s : State) : Host.Outcome State Fault Refusal :=
  runRule 0x53#8 (fun t =>
    if t.ib.length % 2 = 1 then .error ⟨.malformedBuffer, ibLen t⟩
    else
      match unpackLoop t.ib { t with cb := [] } with
      | .error r => .error r
      | .ok u => okReply (cbLen u) u) s

end Sys2Proof.Machine
end

