-- ==== Sys2Proof/Machine/System.lean ====
section
/-!
DEFINITION. The system commands `NOP`, `RST`, `CSRR` (40_system_and_buffers.md section 1), with what a HALTED core
does on the two it still executes (60_exceptions.md R202).
-/
namespace Sys2Proof.Machine

/-- `NOP` (40_system_and_buffers.md R80). -/
def execNop (s : State) : Host.Outcome State Fault Refusal := runRule 0x01#8 (okReply 0#32) s

/-- `RST` (40_system_and_buffers.md R81), in READY and in HALTED alike (60_exceptions.md R202). -/
def execRst (s : State) : Host.Outcome State Fault Refusal := .next (respond .ok 0#32 (resetCore s))

/-- `CSRR` (40_system_and_buffers.md R82): a defined address is read in both modes; an undefined one raises
`BadIndex` in READY and is refused in HALTED (60_exceptions.md R202). -/
def execCsrr (addr : BitVec 8) (s : State) : Host.Outcome State Fault Refusal :=
  match registerAt addr s with
  | some v => .next (respond .ok v s)
  | none => runRule 0x03#8 (fun _ => .error ⟨.badIndex, addr.setWidth 32⟩) s

end Sys2Proof.Machine
end

