-- ==== Sys2Proof/Machine/Tree.lean ====
section
/-!
DEFINITION. The commands that load, read back, declare and forget the tree (42_huffman_decoder.md section 1).
-/
namespace Sys2Proof.Machine

/-- `TREE.WR` (42_huffman_decoder.md R120). A node word with a reserved bit set is no operand of this command but
an illegal one (R120, Faults; DESIGN CHOICE, log 10). -/
def execTreeWr (idx : BitVec 9) (word : BitVec 32) (s : State) : Host.Outcome State Fault Refusal :=
  runRule 0x20#8 (fun t =>
    if reservedNodeBits word = 0#5 then okReply 0#32 { t with tree := treeWrite t.tree idx.toNat word }
    else .error ⟨.illegalCommand, word⟩) s

/-- `TREE.RD` (42_huffman_decoder.md R121). -/
def execTreeRd (idx : BitVec 9) (s : State) : Host.Outcome State Fault Refusal :=
  runRule 0x21#8 (fun t =>
    match treeRead t.tree idx.toNat with
    | some w => okReply w t
    | none => .error ⟨.badIndex, idx.setWidth 32⟩) s

/-- `TREE.CFG` (42_huffman_decoder.md R122): the count is checked before the root. -/
def execTreeCfg (root : BitVec 9) (count : BitVec 10) (s : State) : Host.Outcome State Fault Refusal :=
  runRule 0x22#8 (fun t =>
    if 512 < count.toNat then .error ⟨.badConfig, count.setWidth 32⟩
    else if 0 < count.toNat ∧ count.toNat ≤ root.toNat then .error ⟨.badConfig, root.setWidth 32⟩
    else okReply 0#32 { t with treeN := count, treeRoot := root }) s

/-- `TREE.CLR` (42_huffman_decoder.md R123); `HTD_EXP` is left alone (90_conflicts.md C11). -/
def execTreeClr (s : State) : Host.Outcome State Fault Refusal :=
  runRule 0x23#8 (fun t => okReply 0#32 { t with tree := [], treeN := 0#10, treeRoot := 0#9, htdCur := 0#9 }) s

end Sys2Proof.Machine
end

