-- ==== Sys2Proof/Machine/TreeWalk.lean ====
section
/-!
DEFINITION. The Huffman tree-walk decoder `HTD.DECODE` (42_huffman_decoder.md section 2).
-/
namespace Sys2Proof.Machine

/-- `step(cur, b)` (42_huffman_decoder.md R125): the child on bit `b` is fetched; a leaf emits its symbol and the
walk restarts at the root. The fields of `TREE[cur]` are those its fetch gave when it was entered (DEDUCED, log 12). -/
def walkStep (root cur : BitVec 9) (b : Bool) (s : State) : Except Raise (BitVec 9 × State) :=
  match fetchNode cur s with
  | .error r => .error r
  | .ok w =>
    let nxt := if b then nodeRight w else nodeLeft w
    match fetchNode nxt s with
    | .error r => .error r
    | .ok v =>
      if nodeIsLeaf v then
        match appendOb (nodeSym v) s with
        | .error r => .error r
        | .ok t => .ok (root, t)
      else .ok (nxt, s)

/-- Where the general walk stopped: the node, whether end of stream stopped it, and the state. -/
structure WalkEnd where
  cur   : BitVec 9
  eos   : Bool
  after : State
deriving DecidableEq, Repr

/-- `while OB_LEN < E` (42_huffman_decoder.md R126, R128). Every iteration consumes a bit, so `fuel` above
`8 * IB_LEN` is never used up (R131; DEDUCED, log 11). -/
def walk (fuel : Nat) (root : BitVec 9) (expected : BitVec 32) (cur : BitVec 9) (s : State) : Except Raise WalkEnd :=
  match fuel with
  | 0 => .ok { cur := cur, eos := true, after := s }
  | k + 1 =>
    if s.ob.length < expected.toNat then
      match readBit s with
      | none => .ok { cur := cur, eos := true, after := s }
      | some (b, t) =>
        match walkStep root cur b t with
        | .error r => .error r
        | .ok (nxt, u) => walk k root expected nxt u
    else .ok { cur := cur, eos := false, after := s }

/-- The fuel of a decode: one more than the bits of `IB` (42_huffman_decoder.md R131). -/
def walkFuel (s : State) : Nat := 8 * s.ib.length + 1

/-- The source and the sink opened fresh and `HTD_EXP` latched (42_huffman_decoder.md R126). -/
def openDecode (count : BitVec 32) (s : State) : State := { openSinkOb (openSourceIb s) with htdExp := count }

/-- `HTD.DECODE` (42_huffman_decoder.md R126, R127, R133). -/
def execHtdDecode (count : BitVec 32) (s : State) : Host.Outcome State Fault Refusal :=
  runRule 0x40#8 (fun t =>
    if t.treeN = 0#10 then .error ⟨.noTree, 0#32⟩
    else
      let u := openDecode count t
      match fetchNode t.treeRoot u with
      | .error r => .error r
      | .ok w =>
        if nodeIsLeaf w then
          match appendObTimes count.toNat (nodeSym w) u with
          | .error r => .error r
          | .ok v => okReply (obLen v) { v with htdCur := t.treeRoot }
        else
          match walk (walkFuel u) t.treeRoot count t.treeRoot u with
          | .error r => .error r
          | .ok e =>
            .ok { after := { e.after with htdCur := e.cur }
                  status := if e.eos then .eos else .ok
                  val := obLen e.after }) s

end Sys2Proof.Machine
end

