-- ==== Sys2Proof/Machine/Dispatch.lean ====
section
/-!
DEFINITION. One arm per command, each one direct call of the command's meaning (60_exceptions.md R200, the line
marked (*), with the HALTED check that each meaning makes first).
-/
namespace Sys2Proof.Machine

def exec (i : Instr) (s : State) : Host.Outcome State Fault Refusal :=
  match i with
  | .nop => Sys2Proof.Machine.execNop s
  | .rst => Sys2Proof.Machine.execRst s
  | .csrr addr => Sys2Proof.Machine.execCsrr addr s
  | .ibClr => Sys2Proof.Machine.execIbClr s
  | .ibPush byte => Sys2Proof.Machine.execIbPush byte s
  | .ibRd idx => Sys2Proof.Machine.execIbRd idx s
  | .obRd idx => Sys2Proof.Machine.execObRd idx s
  | .cbClr => Sys2Proof.Machine.execCbClr s
  | .cbPush code => Sys2Proof.Machine.execCbPush code s
  | .cbRd idx => Sys2Proof.Machine.execCbRd idx s
  | .treeWr idx word => Sys2Proof.Machine.execTreeWr idx word s
  | .treeRd idx => Sys2Proof.Machine.execTreeRd idx s
  | .treeCfg root count => Sys2Proof.Machine.execTreeCfg root count s
  | .treeClr => Sys2Proof.Machine.execTreeClr s
  | .bspOpen => Sys2Proof.Machine.execBspOpen s
  | .bspWbit value => Sys2Proof.Machine.execBspWbit value s
  | .bspFlush => Sys2Proof.Machine.execBspFlush s
  | .bsuOpen => Sys2Proof.Machine.execBsuOpen s
  | .bsuRbit => Sys2Proof.Machine.execBsuRbit s
  | .htdDecode count => Sys2Proof.Machine.execHtdDecode count s
  | .lzeEncode max => Sys2Proof.Machine.execLzeEncode max s
  | .lzdDecode max => Sys2Proof.Machine.execLzdDecode max s
  | .cpkPack => Sys2Proof.Machine.execCpkPack s
  | .cupUnpack => Sys2Proof.Machine.execCupUnpack s

end Sys2Proof.Machine
end

