-- ==== Sys2Proof/Machine/Accept.lean ====
section
/-!
DEFINITION. One command word from acceptance to response, and one host event (60_exceptions.md R200,
70_reset_and_hazards.md R230). Nothing is fetched from a storage (10_state.md R11): the word comes from the host.
-/
namespace Sys2Proof.Machine

/-- `exec(s, c)` of 60_exceptions.md R200 on a whole command word: a legal word is its command, an illegal one is
refused when HALTED and else raises `IllegalCommand`. -/
def acceptCommand (word : BitVec 64) (s : State) : Host.Outcome State Fault Refusal :=
  match decode word with
  | .ok i => exec i s
  | .error _ => .next (runIllegal word s)

/-- A run: the left fold of `exec` over the host's command list (00_scope.md R3). -/
def runCommands (words : List (BitVec 64)) (s : State) : Host.Outcome State Fault Refusal :=
  match words with
  | [] => .next s
  | word :: rest =>
    match acceptCommand word s with
    | .next t => runCommands rest t
    | .fault r => .fault r
    | .refused r => .refused r

/-- A list of commands carried out in order (00_scope.md R3). -/
def runInstrs (is : List Instr) (s : State) : Host.Outcome State Fault Refusal :=
  match is with
  | [] => .next s
  | i :: rest =>
    match exec i s with
    | .next t => runInstrs rest t
    | .fault r => .fault r
    | .refused r => .refused r

/-- One host event. Hardware reset stands between commands and gives no response
(70_reset_and_hazards.md R230; DEDUCED, log 5). -/
def acceptEvent (e : HostEvent) (s : State) : Host.Outcome State Fault Refusal :=
  match e with
  | .command word => acceptCommand word s
  | .hardwareReset => .next (resetCore s)

/-- The next host event is taken from the input and carried out; with none presented the core is idle and keeps
all state (60_exceptions.md R222; DEDUCED, log 4). -/
def takeEvent (s : State) : Host.Outcome State Fault Refusal :=
  match s.input with
  | [] => .next s
  | e :: rest => acceptEvent e { s with input := rest }

end Sys2Proof.Machine
end

