-- ==== Sys2Proof/Machine/Step.lean ====
section
/-!
DEFINITION. One step of the machine: the next host event, carried out to completion (00_scope.md R2, R3).
-/
namespace Sys2Proof.Machine

/-- One step (60_exceptions.md R200): the next command word or hardware reset that the host presents. -/
def step (s : State) : Host.Outcome State Fault Refusal := takeEvent s

/-- `s` with a table row's word as the next command the host presents, the bits from `nbits` up zero (DESIGN CHOICE, log 2). -/
def State.withFetchWord (s : State) (nbits w : Nat) : State := present (BitVec.ofNat 64 (w % 2 ^ nbits)) s

end Sys2Proof.Machine
end

