-- ==== Sys2Proof/Machine/Pseudo.lean ====
section
/-!
DEFINITION. The assembler names and lines (30_encoding.md R72) and the pseudo-instructions, each the command list
it stands for (R73).
-/
namespace Sys2Proof.Machine

/-- The mnemonic of a command (30_encoding.md R62). -/
def mnemonic (i : Instr) : String :=
  match i with
  | .nop => "NOP"
  | .rst => "RST"
  | .csrr _ => "CSRR"
  | .ibClr => "IB.CLR"
  | .ibPush _ => "IB.PUSH"
  | .ibRd _ => "IB.RD"
  | .obRd _ => "OB.RD"
  | .cbClr => "CB.CLR"
  | .cbPush _ => "CB.PUSH"
  | .cbRd _ => "CB.RD"
  | .treeWr _ _ => "TREE.WR"
  | .treeRd _ => "TREE.RD"
  | .treeCfg _ _ => "TREE.CFG"
  | .treeClr => "TREE.CLR"
  | .bspOpen => "BSP.OPEN"
  | .bspWbit _ => "BSP.WBIT"
  | .bspFlush => "BSP.FLUSH"
  | .bsuOpen => "BSU.OPEN"
  | .bsuRbit => "BSU.RBIT"
  | .htdDecode _ => "HTD.DECODE"
  | .lzeEncode _ => "LZE.ENCODE"
  | .lzdDecode _ => "LZD.DECODE"
  | .cpkPack => "CPK.PACK"
  | .cupUnpack => "CUP.UNPACK"

/-- The operands of a command in the order of its line, `A` before `B` (30_encoding.md R72). -/
def lineOperands (i : Instr) : List Nat :=
  match i with
  | .csrr addr => [addr.toNat]
  | .ibPush byte => [byte.toNat]
  | .ibRd idx | .obRd idx | .cbRd idx => [idx.toNat]
  | .cbPush code => [code.toNat]
  | .treeWr idx word => [idx.toNat, word.toNat]
  | .treeRd idx => [idx.toNat]
  | .treeCfg root count => [root.toNat, count.toNat]
  | .bspWbit value => [value.toNat]
  | .htdDecode count => [count.toNat]
  | .lzeEncode max | .lzdDecode max => [max.toNat]
  | .nop | .rst | .ibClr | .cbClr | .treeClr | .bspOpen | .bspFlush | .bsuOpen | .bsuRbit | .cpkPack
  | .cupUnpack => []

/-- The assembler line of a command, numbers in decimal (30_encoding.md R72). -/
def line (i : Instr) : String :=
  match lineOperands i with
  | [] => mnemonic i
  | ns => mnemonic i ++ " " ++ String.intercalate ", " (ns.map toString)

/-- `IB.LOAD` (30_encoding.md R73). -/
def ibLoad (bytes : List (BitVec 8)) : List Instr := .ibClr :: bytes.map .ibPush

/-- `CB.LOAD` (30_encoding.md R73). -/
def cbLoad (codes : List (BitVec 32)) : List Instr := .cbClr :: codes.map .cbPush

/-- `TREE.WR k, w0; TREE.WR k+1, w1; ..` (30_encoding.md R73). The spec has no `TREE.WR` with an index above 511 and
says nothing of a longer list; here such an index wraps modulo 512 (DESIGN CHOICE, log 19). -/
def treeWrites (k : Nat) (words : List (BitVec 32)) : List Instr :=
  match words with
  | [] => []
  | w :: rest => .treeWr (BitVec.ofNat 9 k) w :: treeWrites (k + 1) rest

/-- `TREE.LOAD` (30_encoding.md R73). With more than 1023 words the declared count wraps modulo 1024 (DESIGN CHOICE,
log 19). -/
def treeLoad (root : BitVec 9) (words : List (BitVec 32)) : List Instr :=
  .treeClr :: treeWrites 0 words ++ [.treeCfg root (BitVec.ofNat 10 words.length)]

/-- `BSP.WBITS` (30_encoding.md R73). -/
def bspWbits (bits : List Bool) : List Instr := bits.map (fun b => .bspWbit (bitValue b))

/-- A whole packer session over these bits: the command list of `HUF.ENCODE` (30_encoding.md R73,
44_host_procedures.md R176). -/
def packSession (bits : List Bool) : List Instr := .bspOpen :: bspWbits bits ++ [.bspFlush]

/-- `HUF.DECODE` (30_encoding.md R73, 44_host_procedures.md R179). -/
def hufDecode (bytes : List (BitVec 8)) (root : BitVec 9) (words : List (BitVec 32)) (count : BitVec 32) : List Instr :=
  ibLoad bytes ++ treeLoad root words ++ [.htdDecode count]

/-- `LZW.ENCODE` (30_encoding.md R73, 44_host_procedures.md R180). -/
def lzwEncode (text : List (BitVec 8)) (max : BitVec 32) : List Instr := ibLoad text ++ [.lzeEncode max]

/-- `LZW.DECODE` (30_encoding.md R73, 44_host_procedures.md R180). -/
def lzwDecode (codes : List (BitVec 32)) (max : BitVec 32) : List Instr := cbLoad codes ++ [.lzdDecode max]

/-- `CODES2BYTES` (30_encoding.md R73). -/
def codes2bytes (codes : List (BitVec 32)) : List Instr := cbLoad codes ++ [.cpkPack]

/-- `BYTES2CODES` (30_encoding.md R73). -/
def bytes2codes (bytes : List (BitVec 8)) : List Instr := ibLoad bytes ++ [.cupUnpack]

/-- `OB.DUMP` for a length the host has read (30_encoding.md R73). -/
def obDump (len : Nat) : List Instr := (List.range len).map (fun j => .obRd (BitVec.ofNat 24 j))

/-- `CB.DUMP` for a length the host has read (30_encoding.md R73). -/
def cbDump (len : Nat) : List Instr := (List.range len).map (fun j => .cbRd (BitVec.ofNat 24 j))

end Sys2Proof.Machine
end

