-- ==== Sys2Proof/Machine/Procedures.lean ====
section
/-!
DEFINITION. The host's procedures (44_host_procedures.md) and the data encodings the document fixes
(20_memory.md R46, R47): what the host computes so that the tree, the bits and the counts the block is given are
defined. They are no part of the machine: `step` uses none of them; statements about encode-then-decode do.
-/
namespace Sys2Proof.Procedures

open Sys2Proof.Machine

/-! ## The packed bit stream -/

/-- Byte `j` of a packed bit sequence: the sum of `b_(8j+i) * 2^(7-i)`, a missing bit being 0
(20_memory.md R46). -/
def packedByte (bits : List Bool) (j : Nat) : BitVec 8 :=
  BitVec.ofNat 8 (((List.range 8).map (fun i => if bits.getD (8 * j + i) false then 2 ^ (7 - i) else 0)).sum)

/-- The packed form of a bit sequence: `ceil(n / 8)` bytes, most-significant bit first, zero padding
(20_memory.md R46, 30_encoding.md R67). -/
def packBits (bits : List Bool) : List (BitVec 8) := (List.range ((bits.length + 7) / 8)).map (packedByte bits)

/-- The bits of a byte, bit 7 first (20_memory.md R47). -/
def bitsOfByte (v : BitVec 8) : List Bool := (List.range 8).map (fun i => v.getLsbD (7 - i))

/-- The bits of a byte sequence in the order they are delivered (20_memory.md R47). -/
def bitsOf (bytes : List (BitVec 8)) : List Bool := bytes.flatMap bitsOfByte

/-! ## Frequency table and tree -/

/-- The frequency table of a text: one entry, with its count, for each symbol that occurs
(44_host_procedures.md R170); listed in ascending symbol order, the order R178 enters the leaves in. -/
def frequency (text : List (BitVec 8)) : List (BitVec 8 × Nat) :=
  ((List.range 256).map (BitVec.ofNat 8)).filterMap
    (fun sym => if text.count sym = 0 then none else some (sym, text.count sym))

/-- A Huffman tree as the host holds it (44_host_procedures.md R171). -/
inductive HuffTree where
  | leaf (sym : BitVec 8) (weight : Nat)
  | node (left right : HuffTree)
deriving DecidableEq, Repr

/-- A leaf's weight is its frequency, an internal node's the sum of its children's (44_host_procedures.md R171). -/
def weight (t : HuffTree) : Nat :=
  match t with
  | .leaf _ w => w
  | .node l r => weight l + weight r

/-- The leaves `buildTree` starts from (44_host_procedures.md R172). -/
def leaves (freq : List (BitVec 8 × Nat)) : List HuffTree := freq.map (fun e => .leaf e.1 e.2)

/-- `buildTree` as a relation (44_host_procedures.md R172): from the collection `p` the loop can end with the
tree `t`. Which of several lightest nodes is taken, and which becomes the left child, is left open (DEDUCED, log 13). No tree
comes of the empty collection. -/
inductive Builds : List HuffTree → HuffTree → Prop where
  /-- One node is left: the root. -/
  | done (t : HuffTree) : Builds [t] t
  /-- The two lightest nodes are merged, in either order. -/
  | merge (p rest : List HuffTree) (x y z t : HuffTree)
      (split : p.Perm (x :: y :: rest))
      (lightest : ∀ u ∈ y :: rest, weight x ≤ weight u)
      (next : ∀ u ∈ rest, weight y ≤ weight u)
      (merged : z = .node x y ∨ z = .node y x)
      (onward : Builds (z :: rest) t) : Builds p t

/-- A tree of a text: any tree `buildTree` can return for its frequency table (44_host_procedures.md R172, R177). -/
def Admissible (text : List (BitVec 8)) (t : HuffTree) : Prop := Builds (leaves (frequency text)) t

/-- The earliest of the lightest nodes, and the others in their order (44_host_procedures.md R178). -/
def takeLightest (x : HuffTree) (rest : List HuffTree) : HuffTree × List HuffTree :=
  match rest with
  | [] => (x, [])
  | y :: more =>
    let best := takeLightest y more
    if weight x ≤ weight best.1 then (x, y :: more) else (best.1, x :: best.2)

/-- The reference construction's loop: first extracted is the left child, a new node enters last
(44_host_procedures.md R178). Each round leaves one node less, so `fuel` is the number of nodes. -/
def referenceLoop (fuel : Nat) (p : List HuffTree) : Option HuffTree :=
  match fuel, p with
  | _, [] => none
  | _, [t] => some t
  | 0, _ => none
  | k + 1, x :: rest =>
    let first := takeLightest x rest
    match first.2 with
    | [] => some first.1
    | y :: more =>
      let second := takeLightest y more
      referenceLoop k (second.2 ++ [.node first.1 second.1])

/-- The reference tree of a text, used in examples only (44_host_procedures.md R178); none for the empty text. -/
def referenceTree (text : List (BitVec 8)) : Option HuffTree :=
  let p := leaves (frequency text)
  referenceLoop p.length p

/-! ## Code table and encode -/

/-- The paths below a node, `0` to the left and `1` to the right (44_host_procedures.md R174). -/
def pathsFrom (path : List Bool) (t : HuffTree) : List (BitVec 8 × List Bool) :=
  match t with
  | .leaf sym _ => [(sym, path)]
  | .node l r => pathsFrom (path ++ [false]) l ++ pathsFrom (path ++ [true]) r

/-- `buildCodes` (44_host_procedures.md R174), with the one-bit code of a single leaf (R175). -/
def buildCodes (t : HuffTree) : List (BitVec 8 × List Bool) :=
  match t with
  | .leaf sym _ => [(sym, [false])]
  | .node l r => pathsFrom [] (.node l r)

/-- The code of a symbol in a code table. -/
def codeFor (table : List (BitVec 8 × List Bool)) (sym : BitVec 8) : Option (List Bool) :=
  match table with
  | [] => none
  | (s, code) :: rest => if s = sym then some code else codeFor rest sym

/-- The bits `encode(text, codeTable)` writes; none is the host's `UnknownSymbol`
(44_host_procedures.md R176). -/
def encodeBits (table : List (BitVec 8 × List Bool)) (text : List (BitVec 8)) : Option (List Bool) :=
  match text with
  | [] => some []
  | sym :: rest =>
    match codeFor table sym, encodeBits table rest with
    | some code, some bits => some (code ++ bits)
    | _, _ => none

/-- The number of bits an encode writes, the sum of `freq(s) * len(table[s])` over the symbols of the text
(44_host_procedures.md R176). A symbol without a code, which no completed encode has, counts nothing. -/
def bitCount (table : List (BitVec 8 × List Bool)) (text : List (BitVec 8)) : Nat :=
  ((frequency text).map (fun e => e.2 * ((codeFor table e.1).getD []).length)).sum

/-- What `huf_encode` issues after `BSP.OPEN`, and the symbol without a code that ended it, if one did
(44_host_procedures.md R176). -/
structure EncodeCall where
  issued  : List Instr
  unknown : Option (BitVec 8)
deriving DecidableEq, Repr

/-- The loop of `huf_encode` and its `BSP.FLUSH`: the bits of each code in turn; at the first symbol without a code
the host fails and issues nothing further (44_host_procedures.md R176). -/
def encodeCall (table : List (BitVec 8 × List Bool)) (text : List (BitVec 8)) : EncodeCall :=
  match text with
  | [] => { issued := [.bspFlush], unknown := none }
  | sym :: rest =>
    match codeFor table sym with
    | none => { issued := [], unknown := some sym }
    | some code =>
      let more := encodeCall table rest
      { issued := bspWbits code ++ more.issued, unknown := more.unknown }

/-! ## Sessions: what the host issues, and what it returns to its caller -/

/-- What a host procedure returns. -/
inductive HostResult where
  /-- The bytes or the text read from `OB`. -/
  | bytes (bs : List (BitVec 8))
  /-- The codes read from `CB`. -/
  | codes (ks : List (BitVec 32))
  /-- `UnknownSymbol(s)`, which the host meets itself (44_host_procedures.md R176). -/
  | unknownSymbol (sym : BitVec 8)
  /-- A command faulted with this code: nothing of the session is usable (70_reset_and_hazards.md R245). -/
  | blockFault (code : BitVec 8)
deriving DecidableEq, Repr

/-- How a host procedure ends: its result and the block it leaves. -/
abbrev HostEnd := Host.Outcome (HostResult × State) Fault Refusal

/-- A command list is issued; after a fault its rest is refused (60_exceptions.md R202) and the host has the fault's
code; else it goes on (DEDUCED, log 20). -/
def issue (is : List Instr) (onward : State → HostEnd) (s : State) : HostEnd :=
  match runInstrs is s with
  | .next t => if halted t then .next (.blockFault t.fault, t) else onward t
  | .fault r => .fault r
  | .refused r => .refused r

/-- The responses `t` has beyond those of `s` and one more, the length the host asked for first. -/
def dumped (s t : State) : List (BitVec 40) := t.rsps.drop (s.rsps.length + 1)

/-- `OB[0 .. OB_LEN-1]`, read with `CSRR OB_LEN` and `OB.DUMP` (30_encoding.md R73, 44_host_procedures.md R176). -/
def readOb (s : State) : HostEnd :=
  issue (.csrr 0x14#8 :: obDump (obLen s).toNat)
    (fun t => .next (.bytes ((dumped s t).map (fun r => r.extractLsb' 0 8)), t)) s

/-- `CB[0 .. CB_LEN-1]`, read with `CSRR CB_LEN` and `CB.DUMP` (30_encoding.md R73). -/
def readCb (s : State) : HostEnd :=
  issue (.csrr 0x17#8 :: cbDump (cbLen s).toNat)
    (fun t => .next (.codes ((dumped s t).map (fun r => r.extractLsb' 0 32)), t)) s

/-- `huf_encode(text, table)` on the block (44_host_procedures.md R176): the bytes, or `UnknownSymbol(s)` with the
session abandoned, its earlier bits written, no flush and `OB` unread. -/
def hufEncode (text : List (BitVec 8)) (table : List (BitVec 8 × List Bool)) (s : State) : HostEnd :=
  issue (.bspOpen :: (encodeCall table text).issued)
    (fun t =>
      match (encodeCall table text).unknown with
      | some sym => .next (.unknownSymbol sym, t)
      | none => readOb t) s

/-- What the whole Huffman encode returns, all three of which the decoder needs (44_host_procedures.md R176, R179). -/
structure Encoded where
  bytes       : List (BitVec 8)
  tree        : HuffTree
  symbolCount : Nat
deriving DecidableEq, Repr

/-- `encode(text) -> (bytes, tree, symbolCount)` can return `out` and leave the block at `t`: with
`tree = buildTree(freq(text))`, any tree the open choices admit, and `table = buildCodes(tree)`
(44_host_procedures.md R176). -/
def Encodes (text : List (BitVec 8)) (s : State) (out : Encoded) (t : State) : Prop :=
  Admissible text out.tree ∧ hufEncode text (buildCodes out.tree) s = .next (.bytes out.bytes, t) ∧
  out.symbolCount = text.length

/-- `decode(bytes, tree, symbolCount) -> text` with one image of the tree (44_host_procedures.md R179). A count that
is no 32-bit number, which no text that fits a buffer has, wraps (DESIGN CHOICE, log 19). -/
def hufDecodeText (bytes : List (BitVec 8)) (root : BitVec 9) (words : List (BitVec 32)) (symbolCount : Nat)
    (s : State) : HostEnd :=
  issue (hufDecode bytes root words (BitVec.ofNat 32 symbolCount)) readOb s

/-- `encode(text, maxDictSize) -> codes` (44_host_procedures.md R180). -/
def lzwEncodeText (text : List (BitVec 8)) (max : BitVec 32) (s : State) : HostEnd :=
  issue (lzwEncode text max) readCb s

/-- `decode(codes, maxDictSize) -> text` (44_host_procedures.md R180). -/
def lzwDecodeText (codes : List (BitVec 32)) (max : BitVec 32) (s : State) : HostEnd :=
  issue (lzwDecode codes max) readOb s

/-- `codesToBytes(codes) -> bytes` (44_host_procedures.md R180). -/
def codesToBytes (codes : List (BitVec 32)) (s : State) : HostEnd := issue (codes2bytes codes) readOb s

/-- `bytesToCodes(bytes) -> codes` (44_host_procedures.md R180). -/
def bytesToCodes (bytes : List (BitVec 8)) (s : State) : HostEnd := issue (bytes2codes bytes) readCb s

/-! ## The arena image -/

/-- The arena holds the tree `t` at index `i` of a tree of `n` declared nodes (44_host_procedures.md R173): every
image R173 allows does, whatever its numbering; the fields a node's kind does not use are free
(30_encoding.md R65). -/
def HoldsAt (arena : List (Nat × BitVec 32)) (n : Nat) (t : HuffTree) (i : BitVec 9) : Prop :=
  match t with
  | .leaf sym _ => i.toNat < n ∧ ∃ w, treeRead arena i.toNat = some w ∧ nodeIsLeaf w = true ∧ nodeSym w = sym
  | .node l r =>
    i.toNat < n ∧ ∃ w, treeRead arena i.toNat = some w ∧ nodeIsLeaf w = false ∧
      HoldsAt arena n l (nodeLeft w) ∧ HoldsAt arena n r (nodeRight w)

/-- One image of a tree (44_host_procedures.md R173): the nodes numbered from `base`, children before their
parent, the root last. A number that is no index of the arena wraps (DESIGN CHOICE, log 19); no tree of a text has one
(R172). -/
def arenaWords (base : Nat) (t : HuffTree) : List (BitVec 32) :=
  match t with
  | .leaf sym _ => [leafWord sym]
  | .node l r =>
    let ls := arenaWords base l
    let rs := arenaWords (base + ls.length) r
    ls ++ rs ++ [nodeWord (BitVec.ofNat 9 (base + ls.length - 1)) (BitVec.ofNat 9 (base + ls.length + rs.length - 1))]

/-- The arena after the words have been written to the entries from `base` on (30_encoding.md R73). -/
def arenaOf (base : Nat) (words : List (BitVec 32)) : List (Nat × BitVec 32) :=
  match words with
  | [] => []
  | w :: rest => (base, w) :: arenaOf (base + 1) rest

/-- The words are an image of the tree with this root, whatever the numbering (44_host_procedures.md R173): they fit
the arena, are legal node words, and hold the tree. -/
def IsImage (words : List (BitVec 32)) (root : BitVec 9) (t : HuffTree) : Prop :=
  words.length ≤ 512 ∧ (∀ w ∈ words, reservedNodeBits w = 0#5) ∧ HoldsAt (arenaOf 0 words) words.length t root

/-- The commands that load a tree: its image, with the last node as the root (44_host_procedures.md R171, R173), whose
number wraps like those of `arenaWords` (DESIGN CHOICE, log 19). -/
def loadTree (t : HuffTree) : List Instr :=
  treeLoad (BitVec.ofNat 9 ((arenaWords 0 t).length - 1)) (arenaWords 0 t)

end Sys2Proof.Procedures
end

