-- ==== Sys2Proof/Safety.lean ====
section
/-!
DEFINITION. What every state reachable from reset satisfies (10_state.md R24, 41_bitstream.md R102,
43_lzw.md R144, R151), in the terms claims use.
-/
namespace Sys2Proof.Machine

/-- `FAULT` is 0 or one of the codes a command can raise, and a READY core's latch is clear (10_state.md R13,
60_exceptions.md R206, R214). -/
def LatchInv (s : State) : Prop :=
  s.fault.toNat ≤ 10 ∧ s.fault ≠ 0x03#8 ∧ (s.fault = 0#8 → s.finfo = 0#32 ∧ s.fopc = 0#8)

/-- The three buffers fit their capacities (10_state.md R24 item 1). -/
def BufferInv (s : State) : Prop :=
  s.ib.length ≤ s.cfg.ibCap ∧ s.ob.length ≤ s.cfg.obCap ∧ s.cb.length ≤ s.cfg.cbCap

/-- The bit source stands inside `IB` (10_state.md R24 item 2). -/
def SourceInv (s : State) : Prop := s.ibPtr.toNat ≤ s.ib.length ∧ s.bitcnt.toNat ≤ 8

/-- The packer invariant (10_state.md R24 item 3, 41_bitstream.md R102). -/
def SinkInv (s : State) : Prop := s.nacc.toNat ≤ 7 ∧ s.acc.toNat < 2 ^ s.nacc.toNat

/-- The declared tree (10_state.md R24 item 4) and the arena's canonical form, the model's own (DEDUCED, log 7). -/
def TreeInv (s : State) : Prop :=
  s.treeN.toNat ≤ 512 ∧ (s.treeN = 0#10 ∨ s.treeRoot.toNat < s.treeN.toNat) ∧ Memory.wf s.tree

/-- The bounds of a dictionary (10_state.md R24 items 5 and 6): no session since reset, or the seed entries
first, between 256 and the cap entries, and entry `j` from 256 on a string of 2 to `j - 254` bytes. -/
def DictInv (dict : List (List (BitVec 8))) (max : BitVec 32) (cap : Nat) : Prop :=
  (dict = [] ∧ max = 0#32) ∨
  (256 ≤ dict.length ∧ dict.length ≤ max.toNat ∧ max.toNat ≤ cap ∧
    (∀ j, j < 256 → dict[j]? = some [BitVec.ofNat 8 j]) ∧
    ∀ j str, 256 ≤ j → dict[j]? = some str → 2 ≤ str.length ∧ str.length ≤ j - 254)

/-- The encode engine (10_state.md R24 item 5, 43_lzw.md R144 items 1 to 3). -/
def EncodeInv (s : State) : Prop :=
  DictInv s.eDict s.eMax s.cfg.dictCap ∧ s.eDict.Nodup ∧ (s.eW = [] ∨ s.eW ∈ s.eDict)

/-- The decode engine (10_state.md R24 item 6, 43_lzw.md R151 item 1). -/
def DecodeInv (s : State) : Prop := DictInv s.dDict s.dMax s.cfg.dictCap

/-- Everything 10_state.md R24 says of a reachable state, for an instance whose parameters are in range
(00_scope.md R6); beside it the latch of 10_state.md section 3 and 60_exceptions.md section 2, and the list form the
model gives the arena (DEDUCED, log 7). -/
def StateInv (s : State) : Prop :=
  s.cfg.Ok ∧ LatchInv s ∧ BufferInv s ∧ SourceInv s ∧ SinkInv s ∧ TreeInv s ∧ EncodeInv s ∧ DecodeInv s

end Sys2Proof.Machine
end

