-- ==== Sys2Proof/Certificates/Slice0/Obligations.lean ====
section
/-!
DEFINITION. The statements for the provers, one definition each. What a command does is written out as the whole next
state, so each result statement is its instruction's completion and frame as well: every field not named is unchanged.
A fault of the spec is a next state (60_exceptions.md R203). READY is `s.fault = 0`.
-/
namespace Sys2Proof.Claims

open Sys2Proof.Machine Sys2Proof.Procedures

/-- The 40-bit response word of a status byte and a value (30_encoding.md R63). -/
def rsp (st : BitVec 8) (val : BitVec 32) : BitVec 40 := (st ++ val : BitVec (8 + 32))

/-- `s` with the response `(OK, val)` given. -/
def answered (val : BitVec 32) (s : State) : State := { s with rsps := s.rsps ++ [rsp 0x00#8 val] }

/-- `s` with the fault of code `k` taken by a command of opcode `opc` (60_exceptions.md R203). -/
def faulted (k : BitVec 8) (info : BitVec 32) (opc : BitVec 8) (s : State) : State :=
  { s with fault := k, finfo := info, fopc := opc, rsps := s.rsps ++ [rsp 0x02#8 (k.setWidth 32)] }

/-- `s` with the response `(HALTED, FAULT)` given (60_exceptions.md R202). -/
def refused (s : State) : State := { s with rsps := s.rsps ++ [rsp 0x03#8 (s.fault.setWidth 32)] }

/-- The reset state of the instance and the surroundings of `s` (10_state.md R27). -/
def afterReset (s : State) : State := { State.reset with cfg := s.cfg, input := s.input, rsps := s.rsps }

/-- In READY, a word of this opcode whose fields are not those of the command raises `IllegalCommand`
(30_encoding.md R61, R66). -/
def IllegalUnless (opc : BitVec 8) (fields : BitVec 24 → BitVec 32 → Prop) : Prop :=
  ∀ (w : BitVec 64) (s : State), s.fault = 0#8 → opcOf w = opc → ¬ fields (aOf w) (bOf w) →
    acceptCommand w s = .next (faulted 0x01#8 (bOf w) opc s)

/-- The word of three fields (30_encoding.md R60). -/
def word (opc : BitVec 8) (a : BitVec 24) (b : BitVec 32) : BitVec 64 := (opc ++ a ++ b : BitVec (8 + 24 + 32))

/-- The registers of 10_state.md R23 with their addresses, each zero-extended to 32 bits. -/
def registers (s : State) : List (BitVec 8 × BitVec 32) :=
  [(0x00#8, s.fault.setWidth 32), (0x01#8, s.finfo), (0x02#8, s.fopc.setWidth 32),
   (0x10#8, BitVec.ofNat 32 s.ib.length), (0x11#8, s.ibPtr), (0x12#8, s.bitbuf.setWidth 32),
   (0x13#8, s.bitcnt.setWidth 32), (0x14#8, BitVec.ofNat 32 s.ob.length), (0x15#8, s.acc.setWidth 32),
   (0x16#8, s.nacc.setWidth 32), (0x17#8, BitVec.ofNat 32 s.cb.length)] ++
  [(0x20#8, s.treeN.setWidth 32), (0x21#8, s.treeRoot.setWidth 32), (0x22#8, s.htdCur.setWidth 32),
   (0x23#8, s.htdExp), (0x30#8, BitVec.ofNat 32 s.eDict.length), (0x31#8, s.eMax),
   (0x32#8, BitVec.ofNat 32 s.dDict.length), (0x33#8, s.dMax)]

/-- The states differ at most in the strings of the dictionaries and the working strings (10_state.md R26). -/
def SameButHidden (s u : State) : Prop :=
  u = { s with eDict := u.eDict, eW := u.eW, dDict := u.dDict, dW := u.dW } ∧
  u.eDict.length = s.eDict.length ∧ u.dDict.length = s.dDict.length

/-- How the prefix automaton ends on a bit list. -/
inductive AutomatonEnd where
  /-- The symbols emitted, the node reached, the number of bits read, whether the bits ran out. -/
  | stopped (symbols : List (BitVec 8)) (cur : BitVec 9) (used : Nat) (eos : Bool)
  | badTree (node : BitVec 9)
  | overflow

/-- The prefix automaton on a list of bits, without registers (42_huffman_decoder.md R125, R126, R128): `node` gives
the word of a valid node, `expected` is the symbol count, `cap` the sink's capacity, `used` the bits read so far. -/
def automaton (node : BitVec 9 → Option (BitVec 32)) (root : BitVec 9) (expected cap : Nat)
    (bits : List Bool) (cur : BitVec 9) (symbols : List (BitVec 8)) (used : Nat) : AutomatonEnd :=
  match bits with
  | [] => .stopped symbols cur used (decide (symbols.length < expected))
  | b :: rest =>
    if symbols.length < expected then
      match node cur with
      | none => .badTree cur
      | some w =>
        let nxt := if b then w.extractLsb' 8 9 else w.extractLsb' 17 9
        match node nxt with
        | none => .badTree nxt
        | some v =>
          if v.getLsbD 31 then
            if symbols.length = cap then .overflow
            else automaton node root expected cap rest root (symbols ++ [v.extractLsb' 0 8]) (used + 1)
          else automaton node root expected cap rest nxt symbols (used + 1)
    else .stopped symbols cur used false

/-- The word of a declared and written node (42_huffman_decoder.md R124). -/
def nodeOf (s : State) (i : BitVec 9) : Option (BitVec 32) :=
  if i.toNat < s.treeN.toNat then treeRead s.tree i.toNat else none

/-- The byte of `IB` that holds bit number `used - 1`, or 0 when no bit was read (41_bitstream.md R107). -/
def lastLoaded (ib : List (BitVec 8)) (used : Nat) : BitVec 8 :=
  if used = 0 then 0#8 else ib.getD ((used - 1) / 8) 0#8

/-- The text a list of codes stands for under a dictionary. -/
def expand (dict : List (List (BitVec 8))) (codes : List (BitVec 32)) : List (BitVec 8) :=
  codes.flatMap (fun k => dict.getD k.toNat [])

end Sys2Proof.Claims

open Sys2Proof Sys2Proof.Machine Sys2Proof.Procedures Sys2Proof.Claims

/-! ## Encoding -/

/-- 30_encoding.md sections 1, 2: the decoder reads back every operand the encoder wrote. -/
def Obligations.DecodeOfEncodeIsTheCommand : Prop :=
  ∀ i : Instr, i.wellFormed = true → decode (encode i) = .ok i

/-- 30_encoding.md sections 1, 2: a legal word is the encoding of exactly the command it decodes to. -/
def Obligations.EncodeOfDecodeIsTheWord : Prop :=
  ∀ (w : BitVec 64) (i : Instr), decode w = .ok i → encode i = w ∧ i.wellFormed = true

/-- 30_encoding.md R66: a word is a command exactly when it matches a row of the opcode map, no word matches two,
and every other word raises `IllegalCommand` in READY and does nothing else. -/
def Obligations.IllegalWordsMatchNoRow : Prop :=
  (∀ w : BitVec 64, (∃ i, decode w = .ok i) ↔ ∃ r ∈ opcodeMap, w &&& r.mask = r.pattern) ∧
  (∀ (w : BitVec 64) (i : Instr) (r : OpcodeRow),
    r ∈ opcodeMap → w &&& r.mask = r.pattern → decode w = .ok i → i.opcode = r.pattern.extractLsb' 56 8) ∧
  opcodeMap.Pairwise (fun a b => ∀ w : BitVec 64, ¬ (w &&& a.mask = a.pattern ∧ w &&& b.mask = b.pattern)) ∧
  (∀ (w : BitVec 64) (s : State), s.fault = 0#8 → (∀ r ∈ opcodeMap, w &&& r.mask ≠ r.pattern) →
    acceptCommand w s = .next (faulted 0x01#8 (bOf w) (opcOf w) s)) ∧
  (∀ r ∈ opcodeMap, 0#64 &&& r.mask ≠ r.pattern ∧ BitVec.allOnes 64 &&& r.mask ≠ r.pattern) ∧
  (∀ w : BitVec 64,
    (let o := (opcOf w).toNat
     o = 0x00 ∨ (0x04 ≤ o ∧ o ≤ 0x0F) ∨ o = 0x13 ∨ (0x18 ≤ o ∧ o ≤ 0x1F) ∨ (0x24 ≤ o ∧ o ≤ 0x2F) ∨ o = 0x33 ∨
     (0x36 ≤ o ∧ o ≤ 0x3F) ∨ (0x41 ≤ o ∧ o ≤ 0x4F) ∨ 0x54 ≤ o) →
    ∀ i, decode w ≠ .ok i)

/-- 95_test_vectors.md section 2.1, E1 to E19: the spec's own words decode as it says. -/
def Obligations.SpecWordsDecode : Prop :=
  decode 0x0100000000000000#64 = .ok .nop ∧
  decode 0x0200000000000000#64 = .ok .rst ∧
  decode 0x0300001300000000#64 = .ok (.csrr 0x13#8) ∧
  decode 0x11000000000000AF#64 = .ok (.ibPush 0xAF#8) ∧
  decode 0x1200000100000000#64 = .ok (.ibRd 1#24) ∧
  decode 0x1400000D00000000#64 = .ok (.obRd 13#24) ∧
  decode 0x1600000000000102#64 = .ok (.cbPush 258#32) ∧
  decode 0x1700000300000000#64 = .ok (.cbRd 3#24) ∧
  decode 0x2000000400040300#64 = .ok (.treeWr 4#9 0x00040300#32) ∧
  decode 0x2000000083FFFFFF#64 = .ok (.treeWr 0#9 0x83FFFFFF#32) ∧
  decode 0x2100000400000000#64 = .ok (.treeRd 4#9) ∧
  decode 0x220001FF00000200#64 = .ok (.treeCfg 511#9 512#10) ∧
  decode 0x31000000FFFFFFFF#64 = .ok (.bspWbit 0xFFFFFFFF#32) ∧
  decode 0x4000000000000009#64 = .ok (.htdDecode 9#32) ∧
  decode 0x500000000000012C#64 = .ok (.lzeEncode 300#32) ∧
  decode 0x510000000000012C#64 = .ok (.lzdDecode 300#32)

/-! ## The step, the two modes, faults, reset -/

/-- 60_exceptions.md section 1: a step on a legal command word is `exec` of the decoded command, the word taken from
the host's input (log 2). -/
def Obligations.StepRunsTheDecodedCommand : Prop :=
  ∀ (s : State) (w : BitVec 64) (rest : List HostEvent) (i : Instr),
    s.input = .command w :: rest → decode w = .ok i → step s = exec i { s with input := rest }

/-- 60_exceptions.md R204: an illegal word raises `IllegalCommand`, recording the word's `B` field and opcode byte;
the rule's four examples are illegal. -/
def Obligations.IllegalCommandRecordsTheWord : Prop :=
  (∀ (s : State) (w : BitVec 64) (rest : List HostEvent) (e : Illegal),
    s.input = .command w :: rest → s.fault = 0#8 → decode w = .error e →
      step s = .next (faulted 0x01#8 (bOf w) (opcOf w) { s with input := rest })) ∧
  decode 0x0000000000000000#64 = .error .undefinedOpcode ∧
  decode 0x1100000000000100#64 = .error .reservedBit ∧
  (∀ b : BitVec 32, decode (word 0x20#8 512#24 b) = .error .reservedBit) ∧
  decode 0x0100000000000001#64 = .error .reservedBit

/-- 70_reset_and_hazards.md sections 1, 4 and 60_exceptions.md section 6: hardware reset gives the reset state and no
response; with nothing presented all state is retained (log 4, 5). -/
def Obligations.StepOnResetAndIdle : Prop :=
  (∀ (s : State) (rest : List HostEvent), s.input = .hardwareReset :: rest →
    step s = .next (afterReset { s with input := rest })) ∧
  (∀ s : State, s.input = [] → step s = .next s)

/-- 60_exceptions.md section 1 (R200): `exec` is total, on commands and on words. -/
def Obligations.ExecAlwaysAnswersANextState : Prop :=
  (∀ (i : Instr) (s : State), ∃ t, exec i s = .next t) ∧
  (∀ (w : BitVec 64) (s : State), ∃ t, acceptCommand w s = .next t) ∧
  (∀ s : State, ∃ t, step s = .next t)

/-- 60_exceptions.md R202: a HALTED core executes a well-formed `RST` and a `CSRR` of a defined register, and refuses
every other word with no change. -/
def Obligations.HaltedRefusesAllButRstAndCsrr : Prop :=
  ∀ s : State, s.fault ≠ 0#8 →
    acceptCommand 0x0200000000000000#64 s = .next (answered 0#32 (afterReset s)) ∧
    (∀ p ∈ registers s, acceptCommand (word 0x03#8 (p.1.setWidth 24) 0#32) s = .next (answered p.2 s)) ∧
    (∀ w : BitVec 64, w ≠ 0x0200000000000000#64 → (∀ p ∈ registers s, w ≠ word 0x03#8 (p.1.setWidth 24) 0#32) →
      acceptCommand w s = .next (refused s))

/-- 60_exceptions.md R203: a command that faults changes the three fault registers and nothing else, answers
`(FAULT, code)`, and leaves the core HALTED with the `fault` output at 1. -/
def Obligations.FaultsArePrecise : Prop :=
  (∀ (i : Instr) (s t : State), s.fault = 0#8 → exec i s = .next t → t.fault ≠ 0#8 →
    (∃ k, t.fault = faultCode k) ∧ t = faulted t.fault t.finfo i.opcode s ∧ faultOut t = true) ∧
  (∀ (w : BitVec 64) (s t : State), s.fault = 0#8 → acceptCommand w s = .next t → t.fault ≠ 0#8 →
    (∃ k, t.fault = faultCode k) ∧ t = faulted t.fault t.finfo (opcOf w) s ∧ faultOut t = true)

/-- 60_exceptions.md R206: no step brings `FAULT` to 0x03, the code of `UnknownSymbol`. -/
def Obligations.UnknownSymbolIsNeverRaised : Prop :=
  faultCode .unknownSymbol = 0x03#8 ∧ State.reset.fault ≠ 0x03#8 ∧
  ∀ s t : State, s.fault ≠ 0x03#8 → step s = .next t → t.fault ≠ 0x03#8

/-- 30_encoding.md sections 3, 8: every command word accepted gives exactly one response, of one of the four statuses,
after the earlier ones; the host's further input is untouched (the model's own fields: log 2, 3). -/
def Obligations.OneResponsePerCommand : Prop :=
  ∀ (s t : State) (w : BitVec 64) (rest : List HostEvent),
    s.input = .command w :: rest → step s = .next t →
      t.input = rest ∧ ∃ st val, t.rsps = s.rsps ++ [rsp st val] ∧ st.toNat ≤ 3

/-- 00_scope.md section 6: no step changes the parameters (log 1), and no register reads them back. -/
def Obligations.ParametersNeverChange : Prop :=
  (∀ s t : State, step s = .next t → t.cfg = s.cfg) ∧
  (∀ (a : BitVec 8) (s : State) (c : Config), registerAt a { s with cfg := c } = registerAt a s)

/-- 00_scope.md section 5: the machine's steps over a list of presented commands are the left fold of `exec` (log 2). -/
def Obligations.RunIsTheFoldOfTheCommands : Prop :=
  ∀ (ws : List (BitVec 64)) (s : State), s.input = ws.map .command →
    ∃ t, Host.Core.run core ws.length s = .next t ∧ t.input = [] ∧ t.rsps.length = s.rsps.length + ws.length ∧
      runCommands ws { s with input := [] } = .next t

/-- 10_state.md R27: the reset values of all the state of R10. -/
def Obligations.ResetValues : Prop :=
  let r := State.reset
  (r.fault = 0#8 ∧ r.finfo = 0#32 ∧ r.fopc = 0#8) ∧
  (r.ib = [] ∧ r.ob = [] ∧ r.cb = []) ∧
  (r.ibPtr = 0#32 ∧ r.bitbuf = 0#8 ∧ r.bitcnt = 0#4) ∧
  (r.acc = 0#8 ∧ r.nacc = 0#3) ∧
  ((∀ i, treeRead r.tree i = none) ∧ r.treeN = 0#10 ∧ r.treeRoot = 0#9) ∧
  (r.htdCur = 0#9 ∧ r.htdExp = 0#32) ∧
  (r.eDict = [] ∧ r.eMax = 0#32 ∧ r.eW = []) ∧
  (r.dDict = [] ∧ r.dMax = 0#32 ∧ r.dW = []) ∧
  halted r = false

/-! ## Whole-machine rules -/

/-- 10_state.md section 11: the reset state satisfies the invariants of R24, with the latch clauses of section 3 and
60_exceptions.md section 2, and the arena's rising-list form, which is the model's (log 7); its parameters are those of
log 1. -/
def Obligations.ResetSatisfiesTheInvariant : Prop := StateInv State.reset

/-- 10_state.md section 11: every step keeps the invariants of R24; what StateInv says of the latch (`FAULT` 0 or a
code some command raises, `FINFO` and `FOPC` 0 while it is 0) is 10_state.md section 3 and 60_exceptions.md section 2; that
the arena's list of written entries is strictly rising (Memory.wf) is the form the model gives it (log 7). -/
def Obligations.EveryStepKeepsTheInvariant : Prop :=
  ∀ s t : State, StateInv s → step s = .next t → StateInv t

/-- 10_state.md sections 3 to 8 (the column "written by" of R23, and R14 to R22): every other command leaves each
piece of state alone. -/
def Obligations.OnlyTheNamedCommandsWriteEachState : Prop :=
  ∀ (i : Instr) (s t : State), exec i s = .next t → i ≠ .rst →
    ((i ≠ .ibClr ∧ ∀ b, i ≠ .ibPush b) → t.ib = s.ib) ∧
    ((i ≠ .ibClr ∧ i ≠ .bsuOpen ∧ i ≠ .bsuRbit ∧ ∀ n, i ≠ .htdDecode n) →
      t.ibPtr = s.ibPtr ∧ t.bitbuf = s.bitbuf ∧ t.bitcnt = s.bitcnt) ∧
    ((i ≠ .bspOpen ∧ (∀ v, i ≠ .bspWbit v) ∧ i ≠ .bspFlush ∧ (∀ n, i ≠ .htdDecode n) ∧
        (∀ m, i ≠ .lzdDecode m) ∧ i ≠ .cpkPack) → t.ob = s.ob ∧ t.acc = s.acc ∧ t.nacc = s.nacc) ∧
    ((i ≠ .cbClr ∧ (∀ k, i ≠ .cbPush k) ∧ (∀ m, i ≠ .lzeEncode m) ∧ i ≠ .cupUnpack) → t.cb = s.cb) ∧
    ((i ≠ .treeClr ∧ ∀ j w, i ≠ .treeWr j w) → t.tree = s.tree) ∧
    ((i ≠ .treeClr ∧ ∀ r n, i ≠ .treeCfg r n) → t.treeN = s.treeN ∧ t.treeRoot = s.treeRoot) ∧
    ((i ≠ .treeClr ∧ ∀ n, i ≠ .htdDecode n) → t.htdCur = s.htdCur) ∧
    ((∀ n, i ≠ .htdDecode n) → t.htdExp = s.htdExp) ∧
    ((∀ m, i ≠ .lzeEncode m) → t.eDict = s.eDict ∧ t.eMax = s.eMax ∧ t.eW = s.eW) ∧
    ((∀ m, i ≠ .lzdDecode m) → t.dDict = s.dDict ∧ t.dMax = s.dMax ∧ t.dW = s.dW)

/-- 10_state.md section 10 (R26): the strings the dictionaries and working strings hold never influence a later
response or any other state. -/
def Obligations.HiddenStringsInfluenceNothing : Prop :=
  ∀ s u s' : State, SameButHidden s u → step s = .next s' → ∃ u', step u = .next u' ∧ SameButHidden s' u'

/-! ## System commands -/

/-- 40_system_and_buffers.md R80. -/
def Obligations.NopDoesNothing : Prop :=
  encode .nop = 0x0100000000000000#64 ∧
  (∀ s : State, s.fault = 0#8 → exec .nop s = .next (answered 0#32 s)) ∧
  (∀ s : State, s.fault ≠ 0#8 → exec .nop s = .next (refused s)) ∧
  IllegalUnless 0x01#8 (fun a b => a = 0#24 ∧ b = 0#32)

/-- 40_system_and_buffers.md R81. -/
def Obligations.RstResetsTheBlock : Prop :=
  encode .rst = 0x0200000000000000#64 ∧
  (∀ s : State, exec .rst s = .next (answered 0#32 (afterReset s))) ∧
  IllegalUnless 0x02#8 (fun a b => a = 0#24 ∧ b = 0#32) ∧
  (∀ (w : BitVec 64) (s : State), s.fault ≠ 0#8 → opcOf w = 0x02#8 → ¬ (aOf w = 0#24 ∧ bOf w = 0#32) →
    acceptCommand w s = .next (refused s))

/-- 40_system_and_buffers.md R82, with the addresses of 10_state.md R23. -/
def Obligations.CsrrReadsOneRegister : Prop :=
  (∀ a : BitVec 8, encode (.csrr a) = word 0x03#8 (a.setWidth 24) 0#32) ∧
  (∀ s : State, ∀ p ∈ registers s, exec (.csrr p.1) s = .next (answered p.2 s)) ∧
  (∀ (s : State) (a : BitVec 8), (∀ p ∈ registers s, p.1 ≠ a) →
    (s.fault = 0#8 → exec (.csrr a) s = .next (faulted 0x08#8 (a.setWidth 32) 0x03#8 s)) ∧
    (s.fault ≠ 0#8 → exec (.csrr a) s = .next (refused s))) ∧
  IllegalUnless 0x03#8 (fun a b => a.extractLsb' 8 16 = 0#16 ∧ b = 0#32) ∧
  (∀ (w : BitVec 64) (s : State), s.fault ≠ 0#8 → opcOf w = 0x03#8 →
    ¬ ((aOf w).extractLsb' 8 16 = 0#16 ∧ bOf w = 0#32) → acceptCommand w s = .next (refused s))

/-! ## Buffer commands -/

/-- 40_system_and_buffers.md R83. -/
def Obligations.IbClrEmptiesAndRewinds : Prop :=
  encode .ibClr = 0x1000000000000000#64 ∧
  (∀ s : State, s.fault = 0#8 →
    exec .ibClr s = .next (answered 0#32 { s with ib := [], ibPtr := 0#32, bitbuf := 0#8, bitcnt := 0#4 })) ∧
  IllegalUnless 0x10#8 (fun a b => a = 0#24 ∧ b = 0#32)

/-- 40_system_and_buffers.md R84; the last clause is its corner case: a byte pushed at end of stream is read next. -/
def Obligations.IbPushAppendsOneByte : Prop :=
  (∀ v : BitVec 8, encode (.ibPush v) = word 0x11#8 0#24 (v.setWidth 32)) ∧
  (∀ (s : State) (v : BitVec 8), s.fault = 0#8 → s.ib.length ≠ s.cfg.ibCap →
    exec (.ibPush v) s = .next (answered (BitVec.ofNat 32 (s.ib.length + 1)) { s with ib := s.ib ++ [v] })) ∧
  (∀ (s : State) (v : BitVec 8), s.fault = 0#8 → s.ib.length = s.cfg.ibCap →
    exec (.ibPush v) s = .next (faulted 0x09#8 0#32 0x11#8 s)) ∧
  IllegalUnless 0x11#8 (fun a b => a = 0#24 ∧ b.toNat ≤ 255) ∧
  (∀ (s t : State) (v : BitVec 8), s.fault = 0#8 → s.ib.length ≠ s.cfg.ibCap → s.bitcnt = 0#4 →
    s.ibPtr.toNat = s.ib.length → exec (.ibPush v) s = .next t →
      exec .bsuRbit t = .next (answered (if v.getLsbD 7 then 1#32 else 0#32)
        { t with bitbuf := v, ibPtr := t.ibPtr + 1#32, bitcnt := 7#4 }))

/-- 40_system_and_buffers.md R85. -/
def Obligations.IbRdReadsOneByte : Prop :=
  (∀ a : BitVec 24, encode (.ibRd a) = word 0x12#8 a 0#32) ∧
  (∀ (s : State) (a : BitVec 24) (v : BitVec 8), s.fault = 0#8 → s.ib[a.toNat]? = some v →
    exec (.ibRd a) s = .next (answered (v.setWidth 32) s)) ∧
  (∀ (s : State) (a : BitVec 24), s.fault = 0#8 → s.ib.length ≤ a.toNat →
    exec (.ibRd a) s = .next (faulted 0x08#8 (a.setWidth 32) 0x12#8 s)) ∧
  IllegalUnless 0x12#8 (fun _ b => b = 0#32)

/-- 40_system_and_buffers.md R86. -/
def Obligations.ObRdReadsOneByte : Prop :=
  (∀ a : BitVec 24, encode (.obRd a) = word 0x14#8 a 0#32) ∧
  (∀ (s : State) (a : BitVec 24) (v : BitVec 8), s.fault = 0#8 → s.ob[a.toNat]? = some v →
    exec (.obRd a) s = .next (answered (v.setWidth 32) s)) ∧
  (∀ (s : State) (a : BitVec 24), s.fault = 0#8 → s.ob.length ≤ a.toNat →
    exec (.obRd a) s = .next (faulted 0x08#8 (a.setWidth 32) 0x14#8 s)) ∧
  (∀ (s : State) (a : BitVec 24), s.fault ≠ 0#8 → exec (.obRd a) s = .next (refused s)) ∧
  IllegalUnless 0x14#8 (fun _ b => b = 0#32)

/-- 40_system_and_buffers.md R87. -/
def Obligations.CbClrEmptiesTheCodes : Prop :=
  encode .cbClr = 0x1500000000000000#64 ∧
  (∀ s : State, s.fault = 0#8 → exec .cbClr s = .next (answered 0#32 { s with cb := [] })) ∧
  IllegalUnless 0x15#8 (fun a b => a = 0#24 ∧ b = 0#32)

/-- 40_system_and_buffers.md R88. -/
def Obligations.CbPushAppendsOneCode : Prop :=
  (∀ k : BitVec 32, encode (.cbPush k) = word 0x16#8 0#24 k) ∧
  (∀ (s : State) (k : BitVec 32), s.fault = 0#8 → s.cb.length ≠ s.cfg.cbCap →
    exec (.cbPush k) s = .next (answered (BitVec.ofNat 32 (s.cb.length + 1)) { s with cb := s.cb ++ [k] })) ∧
  (∀ (s : State) (k : BitVec 32), s.fault = 0#8 → s.cb.length = s.cfg.cbCap →
    exec (.cbPush k) s = .next (faulted 0x09#8 2#32 0x16#8 s)) ∧
  IllegalUnless 0x16#8 (fun a _ => a = 0#24)

/-- 40_system_and_buffers.md R89. -/
def Obligations.CbRdReadsOneCode : Prop :=
  (∀ a : BitVec 24, encode (.cbRd a) = word 0x17#8 a 0#32) ∧
  (∀ (s : State) (a : BitVec 24) (k : BitVec 32), s.fault = 0#8 → s.cb[a.toNat]? = some k →
    exec (.cbRd a) s = .next (answered k s)) ∧
  (∀ (s : State) (a : BitVec 24), s.fault = 0#8 → s.cb.length ≤ a.toNat →
    exec (.cbRd a) s = .next (faulted 0x08#8 (a.setWidth 32) 0x17#8 s)) ∧
  IllegalUnless 0x17#8 (fun _ b => b = 0#32)

/-! ## Tree commands -/

/-- 42_huffman_decoder.md section 1 (R120): the entry reads back as written, every other entry as before, and nothing
else of the state changes; an index above 511 or a node word with a reserved bit is an illegal word. The clause on
Memory.wf is not R120's: it is the rising-list form the model gives the arena (log 7). -/
def Obligations.TreeWrWritesOneNode : Prop :=
  (∀ (j : BitVec 9) (w : BitVec 32), encode (.treeWr j w) = word 0x20#8 (j.setWidth 24) w) ∧
  (∀ (s : State) (j : BitVec 9) (w : BitVec 32), s.fault = 0#8 → w.extractLsb' 26 5 = 0#5 →
    ∃ tree, exec (.treeWr j w) s = .next (answered 0#32 { s with tree := tree }) ∧
      treeRead tree j.toNat = some w ∧ (∀ m, m ≠ j.toNat → treeRead tree m = treeRead s.tree m) ∧
      (Memory.wf s.tree → Memory.wf tree)) ∧
  IllegalUnless 0x20#8 (fun a b => a.toNat ≤ 511 ∧ b.extractLsb' 26 5 = 0#5)

/-- 42_huffman_decoder.md R121. -/
def Obligations.TreeRdReadsOneNode : Prop :=
  (∀ j : BitVec 9, encode (.treeRd j) = word 0x21#8 (j.setWidth 24) 0#32) ∧
  (∀ (s : State) (j : BitVec 9) (w : BitVec 32), s.fault = 0#8 → treeRead s.tree j.toNat = some w →
    exec (.treeRd j) s = .next (answered w s)) ∧
  (∀ (s : State) (j : BitVec 9), s.fault = 0#8 → treeRead s.tree j.toNat = none →
    exec (.treeRd j) s = .next (faulted 0x08#8 (j.setWidth 32) 0x21#8 s)) ∧
  IllegalUnless 0x21#8 (fun a b => a.toNat ≤ 511 ∧ b = 0#32)

/-- 42_huffman_decoder.md R122. -/
def Obligations.TreeCfgDeclaresTheTree : Prop :=
  (∀ (r : BitVec 9) (n : BitVec 10), encode (.treeCfg r n) = word 0x22#8 (r.setWidth 24) (n.setWidth 32)) ∧
  (∀ (s : State) (r : BitVec 9) (n : BitVec 10), s.fault = 0#8 → n.toNat ≤ 512 →
    (n.toNat = 0 ∨ r.toNat < n.toNat) →
    exec (.treeCfg r n) s = .next (answered 0#32 { s with treeN := n, treeRoot := r })) ∧
  (∀ (s : State) (r : BitVec 9) (n : BitVec 10), s.fault = 0#8 → 512 < n.toNat →
    exec (.treeCfg r n) s = .next (faulted 0x0A#8 (n.setWidth 32) 0x22#8 s)) ∧
  (∀ (s : State) (r : BitVec 9) (n : BitVec 10), s.fault = 0#8 → n.toNat ≤ 512 → 0 < n.toNat → n.toNat ≤ r.toNat →
    exec (.treeCfg r n) s = .next (faulted 0x0A#8 (r.setWidth 32) 0x22#8 s)) ∧
  IllegalUnless 0x22#8 (fun a b => a.toNat ≤ 511 ∧ b.toNat ≤ 1023)

/-- 42_huffman_decoder.md R123. -/
def Obligations.TreeClrForgetsTheTree : Prop :=
  encode .treeClr = 0x2300000000000000#64 ∧
  (∀ s : State, s.fault = 0#8 →
    ∃ tree, (∀ m, treeRead tree m = none) ∧
      exec .treeClr s =
        .next (answered 0#32 { s with tree := tree, treeN := 0#10, treeRoot := 0#9, htdCur := 0#9 })) ∧
  IllegalUnless 0x23#8 (fun a b => a = 0#24 ∧ b = 0#32)

/-! ## Bit stream -/

/-- 41_bitstream.md R100. -/
def Obligations.BspOpenStartsAnEmptySink : Prop :=
  encode .bspOpen = 0x3000000000000000#64 ∧
  (∀ s : State, s.fault = 0#8 →
    exec .bspOpen s = .next (answered 0#32 { s with ob := [], acc := 0#8, nacc := 0#3 })) ∧
  IllegalUnless 0x30#8 (fun a b => a = 0#24 ∧ b = 0#32)

/-- 41_bitstream.md R101: the value check, the shift, and the eighth bit. -/
def Obligations.BspWbitPacksOneBit : Prop :=
  (∀ v : BitVec 32, encode (.bspWbit v) = word 0x31#8 0#24 v) ∧
  (∀ (s : State) (v : BitVec 32), s.fault = 0#8 → v ≠ 0#32 → v ≠ 1#32 →
    exec (.bspWbit v) s = .next (faulted 0x02#8 v 0x31#8 s)) ∧
  (∀ (s : State) (v : BitVec 32), s.fault = 0#8 → (v = 0#32 ∨ v = 1#32) → s.nacc.toNat < 7 →
    exec (.bspWbit v) s = .next (answered (BitVec.ofNat 32 s.ob.length)
      { s with acc := BitVec.ofNat 8 (2 * s.acc.toNat + v.toNat), nacc := BitVec.ofNat 3 (s.nacc.toNat + 1) })) ∧
  (∀ (s : State) (v : BitVec 32), s.fault = 0#8 → (v = 0#32 ∨ v = 1#32) → s.nacc.toNat = 7 →
    s.ob.length ≠ s.cfg.obCap →
    exec (.bspWbit v) s = .next (answered (BitVec.ofNat 32 (s.ob.length + 1))
      { s with ob := s.ob ++ [BitVec.ofNat 8 (2 * s.acc.toNat + v.toNat)], acc := 0#8, nacc := 0#3 })) ∧
  (∀ (s : State) (v : BitVec 32), s.fault = 0#8 → (v = 0#32 ∨ v = 1#32) → s.nacc.toNat = 7 →
    s.ob.length = s.cfg.obCap → exec (.bspWbit v) s = .next (faulted 0x09#8 1#32 0x31#8 s)) ∧
  IllegalUnless 0x31#8 (fun a _ => a = 0#24)

/-- 41_bitstream.md R104: one to seven pending bits go to the top of a last byte over zeros; none pending, nothing is
emitted. -/
def Obligations.BspFlushPadsTheLastByte : Prop :=
  encode .bspFlush = 0x3200000000000000#64 ∧
  (∀ s : State, s.fault = 0#8 → s.nacc = 0#3 →
    exec .bspFlush s = .next (answered (BitVec.ofNat 32 s.ob.length) s)) ∧
  (∀ s : State, s.fault = 0#8 → s.nacc ≠ 0#3 → s.ob.length ≠ s.cfg.obCap →
    exec .bspFlush s = .next (answered (BitVec.ofNat 32 (s.ob.length + 1))
      { s with ob := s.ob ++ [BitVec.ofNat 8 (s.acc.toNat * 2 ^ (8 - s.nacc.toNat))], acc := 0#8, nacc := 0#3 })) ∧
  (∀ s : State, s.fault = 0#8 → s.nacc ≠ 0#3 → s.ob.length = s.cfg.obCap →
    exec .bspFlush s = .next (faulted 0x09#8 1#32 0x32#8 s)) ∧
  IllegalUnless 0x32#8 (fun a b => a = 0#24 ∧ b = 0#32)

/-- 41_bitstream.md section 1 (the inference the spec states as R103): a session of `n` bits leaves the `ceil(n / 8)` packed bytes of 20_memory.md R46, after
`BSP.OPEN` and, with no open, on a fresh sink such as reset leaves; a flush after a multiple of 8 adds no byte. -/
def Obligations.PackerSessionLength : Prop :=
  (∀ (bits : List Bool) (s : State), s.fault = 0#8 → (bits.length + 7) / 8 ≤ s.cfg.obCap →
    ∃ rs, runInstrs (packSession bits) s =
      .next { s with ob := packBits bits, acc := 0#8, nacc := 0#3, rsps := rs }) ∧
  (∀ (bits : List Bool) (s : State), s.fault = 0#8 → s.ob = [] → s.acc = 0#8 → s.nacc = 0#3 →
    (bits.length + 7) / 8 ≤ s.cfg.obCap →
    ∃ rs, runInstrs (bspWbits bits ++ [.bspFlush]) s =
      .next { s with ob := packBits bits, acc := 0#8, nacc := 0#3, rsps := rs }) ∧
  (∀ (bits : List Bool) (s t : State), s.fault = 0#8 → s.ob = [] → s.acc = 0#8 → s.nacc = 0#3 →
    bits.length / 8 ≤ s.cfg.obCap → bits.length % 8 = 0 → runInstrs (bspWbits bits) s = .next t →
    t.ob = packBits bits) ∧
  (∀ bits : List Bool, (packBits bits).length = (bits.length + 7) / 8)

/-- 41_bitstream.md R106. -/
def Obligations.BsuOpenRewindsTheSource : Prop :=
  encode .bsuOpen = 0x3400000000000000#64 ∧
  (∀ s : State, s.fault = 0#8 →
    exec .bsuOpen s = .next (answered 0#32 { s with ibPtr := 0#32, bitbuf := 0#8, bitcnt := 0#4 })) ∧
  IllegalUnless 0x34#8 (fun a b => a = 0#24 ∧ b = 0#32)

/-- 41_bitstream.md R108 with `readbit()` of R107 written out: end of stream, a refill, a buffered bit. -/
def Obligations.BsuRbitReadsOneBit : Prop :=
  encode .bsuRbit = 0x3500000000000000#64 ∧
  (∀ s : State, s.fault = 0#8 → s.bitcnt = 0#4 → s.ibPtr.toNat = s.ib.length →
    exec .bsuRbit s = .next { s with rsps := s.rsps ++ [rsp 0x01#8 0#32] }) ∧
  (∀ (s : State) (v : BitVec 8), s.fault = 0#8 → s.bitcnt = 0#4 → s.ib[s.ibPtr.toNat]? = some v →
    exec .bsuRbit s = .next (answered (if v.getLsbD 7 then 1#32 else 0#32)
      { s with bitbuf := v, ibPtr := s.ibPtr + 1#32, bitcnt := 7#4 })) ∧
  (∀ (s : State) (n : Nat), s.fault = 0#8 → s.bitcnt.toNat = n + 1 → n < 8 →
    exec .bsuRbit s = .next (answered (if s.bitbuf.getLsbD n then 1#32 else 0#32)
      { s with bitcnt := BitVec.ofNat 4 n })) ∧
  IllegalUnless 0x35#8 (fun a b => a = 0#24 ∧ b = 0#32)

/-- 41_bitstream.md R109, for a source that stands inside `IB` (10_state.md R24 item 2): `EOS` exactly when the bit
buffer and the byte source are both exhausted; (a) it repeats with no state change; (b) a pushed byte is read next. -/
def Obligations.EndOfStreamIsNotLatched : Prop :=
  ∀ s : State, s.fault = 0#8 → s.ibPtr.toNat ≤ s.ib.length →
    ((∃ t, exec .bsuRbit s = .next t ∧ t.rsps = s.rsps ++ [rsp 0x01#8 0#32]) ↔
      (s.bitcnt = 0#4 ∧ s.ibPtr.toNat = s.ib.length)) ∧
    (s.bitcnt = 0#4 → s.ibPtr.toNat = s.ib.length →
      runInstrs [.bsuRbit, .bsuRbit] s =
        .next { s with rsps := s.rsps ++ [rsp 0x01#8 0#32, rsp 0x01#8 0#32] }) ∧
    (∀ v : BitVec 8, s.bitcnt = 0#4 → s.ibPtr.toNat = s.ib.length → s.ib.length ≠ s.cfg.ibCap →
      ∃ rs, runInstrs [.bsuRbit, .ibPush v, .bsuRbit] s =
        .next { s with ib := s.ib ++ [v], bitbuf := v, ibPtr := s.ibPtr + 1#32, bitcnt := 7#4, rsps := rs } ∧
        rs = s.rsps ++ [rsp 0x01#8 0#32, rsp 0x00#8 (BitVec.ofNat 32 (s.ib.length + 1)),
          rsp 0x00#8 (if v.getLsbD 7 then 1#32 else 0#32)])

/-- 41_bitstream.md section 3 (R110): reading the packed form of a bit sequence gives its bits, then the padding
zeros, then end of stream for ever. -/
def Obligations.UnpackingReturnsThePackedBits : Prop :=
  ∀ (bits : List Bool) (s : State) (extra : Nat), s.fault = 0#8 → s.ib = packBits bits → s.ib.length ≤ 2 ^ 24 →
    s.ibPtr = 0#32 → s.bitcnt = 0#4 →
    ∃ t, runInstrs (List.replicate (8 * s.ib.length + extra) .bsuRbit) s = .next t ∧
      t.rsps = s.rsps ++ bits.map (fun b => rsp 0x00#8 (if b then 1#32 else 0#32)) ++
        List.replicate (8 * s.ib.length - bits.length) (rsp 0x00#8 0#32) ++
        List.replicate extra (rsp 0x01#8 0#32)

/-! ## The tree-walk decoder -/

/-- 42_huffman_decoder.md R133: with no tree, `NoTree`, whatever the count. -/
def Obligations.DecodeWithoutATreeFaults : Prop :=
  ∀ (s : State) (e : BitVec 32), s.fault = 0#8 → s.treeN = 0#10 →
    exec (.htdDecode e) s = .next (faulted 0x06#8 0#32 0x40#8 s)

/-- 42_huffman_decoder.md section 2: a leaf at the root is emitted exactly `E` times, no bit is read and the status is
`OK` (R127); more than `OB` holds is `Overflow(1)` (R131, which the spec marks as its own inference). The stream so
ignored is one zero bit per symbol (44_host_procedures.md section 4, R175). -/
def Obligations.SingletonModeIgnoresTheBits : Prop :=
  ∀ (s : State) (e w : BitVec 32), s.fault = 0#8 → s.treeRoot.toNat < s.treeN.toNat →
    treeRead s.tree s.treeRoot.toNat = some w → w.getLsbD 31 = true →
    (e.toNat ≤ s.cfg.obCap →
      exec (.htdDecode e) s = .next (answered e
        { s with ob := List.replicate e.toNat (w.extractLsb' 0 8), acc := 0#8, nacc := 0#3, ibPtr := 0#32
                 bitbuf := 0#8, bitcnt := 0#4, htdExp := e, htdCur := s.treeRoot })) ∧
    (s.cfg.obCap < e.toNat → exec (.htdDecode e) s = .next (faulted 0x09#8 1#32 0x40#8 s)) ∧
    (∀ k : Nat, encodeBits (buildCodes (.leaf (w.extractLsb' 0 8) k)) (List.replicate e.toNat (w.extractLsb' 0 8)) =
      some (List.replicate e.toNat false))

/-- 42_huffman_decoder.md section 2 (R124 to R126, R128, R129): a root outside the declared tree or never written is
`BadTree(root)`; from an internal root the register-level walk of `HTD.DECODE` is the prefix automaton on the bits of
`IB`: the same symbols, the same stop, the same faults, and the bit source left exactly after the bits the automaton
read. -/
def Obligations.DecodeIsThePrefixAutomaton : Prop :=
  ∀ (s : State) (e : BitVec 32), s.fault = 0#8 → s.treeN ≠ 0#10 → s.ib.length ≤ 2 ^ 24 →
    (nodeOf s s.treeRoot = none →
      exec (.htdDecode e) s = .next (faulted 0x07#8 (s.treeRoot.setWidth 32) 0x40#8 s)) ∧
    (∀ w : BitVec 32, nodeOf s s.treeRoot = some w → w.getLsbD 31 = false →
      exec (.htdDecode e) s =
        match automaton (nodeOf s) s.treeRoot e.toNat s.cfg.obCap (bitsOf s.ib) s.treeRoot [] 0 with
        | .badTree i => .next (faulted 0x07#8 (i.setWidth 32) 0x40#8 s)
        | .overflow => .next (faulted 0x09#8 1#32 0x40#8 s)
        | .stopped symbols cur used eos => .next
          { s with
            ob := symbols, acc := 0#8, nacc := 0#3
            ibPtr := BitVec.ofNat 32 ((used + 7) / 8), bitbuf := lastLoaded s.ib used
            bitcnt := BitVec.ofNat 4 ((8 - used % 8) % 8)
            htdExp := e, htdCur := cur
            rsps := s.rsps ++ [rsp (if eos then 0x01#8 else 0x00#8) (BitVec.ofNat 32 symbols.length)] })

/-- 42_huffman_decoder.md section 2 (the law R132): what the host's Huffman encode of a non-empty text produced, with its tree loaded in
any image, decodes to the text with status `OK`. -/
def Obligations.HuffmanRoundTrip : Prop :=
  ∀ (s : State) (tree : HuffTree) (text : List (BitVec 8)) (bits : List Bool), s.fault = 0#8 → text ≠ [] →
    HoldsAt s.tree s.treeN.toNat tree s.treeRoot →
    encodeBits (buildCodes tree) text = some bits → s.ib = packBits bits →
    s.ib.length ≤ s.cfg.ibCap → text.length ≤ s.cfg.obCap → s.cfg.Ok →
    ∃ t, exec (.htdDecode (BitVec.ofNat 32 text.length)) s = .next t ∧ t.ob = text ∧ t.fault = 0#8 ∧
      t.rsps = s.rsps ++ [rsp 0x00#8 (BitVec.ofNat 32 text.length)]

/-- 44_host_procedures.md section 3 (R173): two images of one tree decode every input alike. -/
def Obligations.DecodeDependsOnTheShapeOnly : Prop :=
  ∀ (s u : State) (tree : HuffTree) (e : BitVec 32),
    u = { s with tree := u.tree, treeN := u.treeN, treeRoot := u.treeRoot, htdCur := u.htdCur } → s.fault = 0#8 →
    HoldsAt s.tree s.treeN.toNat tree s.treeRoot → HoldsAt u.tree u.treeN.toNat tree u.treeRoot →
    ∃ s' u', exec (.htdDecode e) s = .next s' ∧ exec (.htdDecode e) u = .next u' ∧
      u' = { s' with tree := u.tree, treeN := u.treeN, treeRoot := u.treeRoot, htdCur := u'.htdCur }

/-- 44_host_procedures.md section 6 (R177 items 1 and 2): every tree `buildTree` can return for a text has a leaf for
each symbol of it, so its code table encodes the text, and its codes are prefix-free. -/
def Obligations.AdmissibleTreesEncodeTheirText : Prop :=
  ∀ (text : List (BitVec 8)) (tree : HuffTree), Admissible text tree →
    ((buildCodes tree).map Prod.fst).Perm ((frequency text).map Prod.fst) ∧
    (∃ bits, encodeBits (buildCodes tree) text = some bits) ∧
    ∀ p ∈ buildCodes tree, ∀ q ∈ buildCodes tree, p.2 <+: q.2 → p = q

/-! ## LZW -/

/-- 43_lzw.md R141: `maxDictSize` outside `256 .. DICT_CAP` is `BadConfig(M)` in both engines, and inside it, also
above 65536, is accepted. -/
def Obligations.MaxDictSizeIsChecked : Prop :=
  ∀ (s : State) (m : BitVec 32), s.fault = 0#8 →
    ((m.toNat < 256 ∨ s.cfg.dictCap < m.toNat) →
      exec (.lzeEncode m) s = .next (faulted 0x0A#8 m 0x50#8 s) ∧
      exec (.lzdDecode m) s = .next (faulted 0x0A#8 m 0x51#8 s)) ∧
    (256 ≤ m.toNat → m.toNat ≤ s.cfg.dictCap →
      ∀ t, (exec (.lzeEncode m) s = .next t ∨ exec (.lzdDecode m) s = .next t) → t.fault ≠ 0x0A#8)

/-- 43_lzw.md section 2 (R142 to R144): with a legal `M` and room for one code per symbol, the encode completes; it
writes `CB` and the encode engine only; the codes stand for the text in the final dictionary; the dictionary keeps the
bounds and the distinctness of R144 and grew by one entry per code but the last, up to the cap. -/
def Obligations.LzeEncodeCompletes : Prop :=
  ∀ (s : State) (m : BitVec 32), s.fault = 0#8 → 256 ≤ m.toNat → m.toNat ≤ s.cfg.dictCap →
    s.ib.length ≤ s.cfg.cbCap →
    ∃ cb dict w, exec (.lzeEncode m) s =
        .next (answered (BitVec.ofNat 32 cb.length) { s with cb := cb, eDict := dict, eMax := m, eW := w }) ∧
      expand dict cb = s.ib ∧ cb.length ≤ s.ib.length ∧
      (∀ k ∈ cb, k.toNat < dict.length) ∧
      DictInv dict m s.cfg.dictCap ∧ dict.Nodup ∧ (w = [] ↔ s.ib = []) ∧ (w = [] ∨ w ∈ dict) ∧
      dict.length = min m.toNat (256 + (cb.length - 1))

/-- 43_lzw.md section 2 (R145): with `M = 256` the dictionary never grows and the codes are the symbols. -/
def Obligations.LzeEncodeWithAFullDictionary : Prop :=
  ∀ s : State, s.fault = 0#8 → 256 ≤ s.cfg.dictCap → s.ib.length ≤ s.cfg.cbCap →
    exec (.lzeEncode 256#32) s = .next (answered (BitVec.ofNat 32 s.ib.length)
      { s with
        cb := s.ib.map (fun v => v.setWidth 32)
        eDict := (List.range 256).map (fun j => [BitVec.ofNat 8 j])
        eMax := 256#32
        eW := s.ib.drop (s.ib.length - 1) })

/-- 43_lzw.md R146: the codes depend on the text and on `M` alone. -/
def Obligations.LzeEncodeDependsOnTextAndMax : Prop :=
  ∀ (s u s' u' : State) (m : BitVec 32), s.fault = 0#8 → u.fault = 0#8 → s.ib = u.ib → s.cfg = u.cfg →
    exec (.lzeEncode m) s = .next s' → exec (.lzeEncode m) u = .next u' →
      s'.fault = u'.fault ∧ (s'.fault = 0#8 → s'.cb = u'.cb ∧ s'.eDict = u'.eDict ∧ s'.eW = u'.eW)

/-- 43_lzw.md R152: the empty code list decodes to the empty text. -/
def Obligations.LzdDecodeOfTheEmptyCodeList : Prop :=
  ∀ (s : State) (m : BitVec 32), s.fault = 0#8 → 256 ≤ m.toNat → m.toNat ≤ s.cfg.dictCap → s.cb = [] →
    exec (.lzdDecode m) s = .next (answered 0#32
      { s with ob := [], acc := 0#8, nacc := 0#3, dMax := m, dW := []
               dDict := (List.range 256).map (fun j => [BitVec.ofNat 8 j]) })

/-- 43_lzw.md R153: a first code from 256 on is `UnknownCode`. -/
def Obligations.LzdFirstCodeMustBeASeed : Prop :=
  ∀ (s : State) (m k : BitVec 32) (rest : List (BitVec 32)), s.fault = 0#8 → 256 ≤ m.toNat →
    m.toNat ≤ s.cfg.dictCap → s.cb = k :: rest → 256 ≤ k.toNat →
    exec (.lzdDecode m) s = .next (faulted 0x04#8 k 0x51#8 s)

/-- 43_lzw.md R149: one code after the first, in the three cases of the rule, on a session's state whose working
string is not empty. -/
def Obligations.LzdStepResolvesOneCode : Prop :=
  ∀ (s : State) (k : BitVec 32) (c : BitVec 8) (tail : List (BitVec 8)), s.dW = c :: tail →
    (∀ (a : BitVec 8) (more : List (BitVec 8)), s.dDict[k.toNat]? = some (a :: more) →
      s.ob.length + (more.length + 1) ≤ s.cfg.obCap →
      decStep k s = .ok { s with
        ob := s.ob ++ (a :: more), dW := a :: more
        dDict := if s.dDict.length < s.dMax.toNat then s.dDict ++ [s.dW ++ [a]] else s.dDict }) ∧
    (k.toNat = s.dDict.length → s.ob.length + (s.dW.length + 1) ≤ s.cfg.obCap →
      decStep k s = .ok { s with
        ob := s.ob ++ (s.dW ++ [c]), dW := s.dW ++ [c]
        dDict := if s.dDict.length < s.dMax.toNat then s.dDict ++ [s.dW ++ [c]] else s.dDict }) ∧
    (s.dDict.length < k.toNat → decStep k s = .error ⟨.unknownCode, k⟩) ∧
    (∀ entry : List (BitVec 8),
      (s.dDict[k.toNat]? = some entry ∨ (k.toNat = s.dDict.length ∧ entry = s.dW ++ [c])) →
      s.ob.length ≤ s.cfg.obCap → s.cfg.obCap < s.ob.length + entry.length →
      decStep k s = .error ⟨.overflow, 1#32⟩)

/-- 43_lzw.md section 3 (R150): with a full dictionary the code 256 is still answered by the special branch, each time
one byte longer; nothing is inserted. The text is `1 + 2 + .. + (n + 1)` copies of the first symbol. -/
def Obligations.LzdSpecialBranchWhenFull : Prop :=
  ∀ (s : State) (v : BitVec 8) (n : Nat), s.fault = 0#8 → 256 ≤ s.cfg.dictCap →
    s.cb = v.setWidth 32 :: List.replicate n 256#32 → (n + 1) * (n + 2) / 2 ≤ s.cfg.obCap →
    exec (.lzdDecode 256#32) s = .next (answered (BitVec.ofNat 32 ((n + 1) * (n + 2) / 2))
      { s with
        ob := List.replicate ((n + 1) * (n + 2) / 2) v, acc := 0#8, nacc := 0#3, dMax := 256#32
        dDict := (List.range 256).map (fun j => [BitVec.ofNat 8 j]), dW := List.replicate (n + 1) v })

/-- 43_lzw.md section 3 (R148, R149): codes that are all seed codes decode to their symbols, whatever the cap, with one
entry inserted per code after the first up to the cap (R151 item 2). -/
def Obligations.LzdDecodeOfSeedCodes : Prop :=
  ∀ (s : State) (m : BitVec 32) (text : List (BitVec 8)), s.fault = 0#8 → 256 ≤ m.toNat →
    m.toNat ≤ s.cfg.dictCap → s.cb = text.map (fun v => v.setWidth 32) → text.length ≤ s.cfg.obCap →
    ∃ dict, exec (.lzdDecode m) s = .next (answered (BitVec.ofNat 32 text.length)
        { s with ob := text, acc := 0#8, nacc := 0#3, dMax := m, dDict := dict, dW := text.drop (text.length - 1) }) ∧
      DictInv dict m s.cfg.dictCap ∧ dict.length = min m.toNat (256 + (text.length - 1))

/-- 43_lzw.md section 3 (R151 items 3 and 4): decoding what an encode without fault left in `CB`, with the same `M`,
gives the text back, and the decoder ends with the encoder's dictionary and working string. -/
def Obligations.LzwRoundTrip : Prop :=
  ∀ (s t : State) (m : BitVec 32), s.fault = 0#8 → exec (.lzeEncode m) s = .next t → t.fault = 0#8 →
    s.ib.length ≤ s.cfg.obCap →
    ∃ u, exec (.lzdDecode m) t = .next u ∧ u.fault = 0#8 ∧ u.ob = s.ib ∧ u.dDict = t.eDict ∧ u.dW = t.eW ∧
      u.rsps = t.rsps ++ [rsp 0x00#8 (BitVec.ofNat 32 s.ib.length)]

/-- 43_lzw.md R155: each code's low 16 bits, high byte first, also of a code above 65535. -/
def Obligations.CpkPackSerialisesTheCodes : Prop :=
  encode .cpkPack = 0x5200000000000000#64 ∧
  (∀ s : State, s.fault = 0#8 → 2 * s.cb.length ≤ s.cfg.obCap →
    exec .cpkPack s = .next (answered (BitVec.ofNat 32 (2 * s.cb.length))
      { s with
        ob := s.cb.flatMap (fun k => [BitVec.ofNat 8 (k.toNat / 256), BitVec.ofNat 8 k.toNat])
        acc := 0#8, nacc := 0#3 })) ∧
  (∀ s : State, s.fault = 0#8 → s.cfg.obCap < 2 * s.cb.length →
    exec .cpkPack s = .next (faulted 0x09#8 1#32 0x52#8 s)) ∧
  IllegalUnless 0x52#8 (fun a b => a = 0#24 ∧ b = 0#32)

/-- 43_lzw.md R158: an odd length is `MalformedBuffer` before anything else; else one code per two bytes. -/
def Obligations.CupUnpackReadsTheFields : Prop :=
  encode .cupUnpack = 0x5300000000000000#64 ∧
  (∀ s : State, s.fault = 0#8 → s.ib.length % 2 = 1 →
    exec .cupUnpack s = .next (faulted 0x05#8 (BitVec.ofNat 32 s.ib.length) 0x53#8 s)) ∧
  (∀ s : State, s.fault = 0#8 → s.ib.length % 2 = 0 → s.ib.length / 2 ≤ s.cfg.cbCap →
    exec .cupUnpack s = .next (answered (BitVec.ofNat 32 (s.ib.length / 2))
      { s with
        cb := (List.range (s.ib.length / 2)).map
          (fun i => BitVec.ofNat 32 ((s.ib.getD (2 * i) 0#8).toNat * 256 + (s.ib.getD (2 * i + 1) 0#8).toNat)) })) ∧
  (∀ s : State, s.fault = 0#8 → s.ib.length % 2 = 0 → s.cfg.cbCap < s.ib.length / 2 →
    exec .cupUnpack s = .next (faulted 0x09#8 2#32 0x53#8 s)) ∧
  IllegalUnless 0x53#8 (fun a b => a = 0#24 ∧ b = 0#32)

/-- 43_lzw.md section 4 (the inference the spec states as R159): packing then unpacking restores codes below 65536, and unpacking then packing restores any
even-length byte sequence, the capacities sufficing. -/
def Obligations.PackThenUnpackRestoresTheCodes : Prop :=
  (∀ s : State, s.fault = 0#8 → (∀ k ∈ s.cb, k.toNat < 65536) → 2 * s.cb.length ≤ s.cfg.obCap →
    s.cb.length ≤ s.cfg.cbCap →
    ∃ t u, exec .cpkPack s = .next t ∧ exec .cupUnpack { t with ib := t.ob, cb := [] } = .next u ∧
      u.fault = 0#8 ∧ u.cb = s.cb) ∧
  (∀ s : State, s.fault = 0#8 → s.ib.length % 2 = 0 → s.ib.length / 2 ≤ s.cfg.cbCap →
    s.ib.length ≤ s.cfg.obCap →
    ∃ t u, exec .cupUnpack s = .next t ∧ exec .cpkPack t = .next u ∧ u.fault = 0#8 ∧ u.ob = s.ib)
end

