-- ==== Sys2Proof/Laws/Decode.lean ====
section
/-!
SUPPORT. The fields of a word built from three fields are those fields (30_encoding.md R60), and a field widened
for the word reads back at its own width.
-/
namespace Sys2Proof

@[simp] theorem opcOf_cmdWord (opc : BitVec 8) (a : BitVec 24) (b : BitVec 32) : opcOf (cmdWord opc a b) = opc := by
  apply BitVec.eq_of_toNat_eq
  simp only [opcOf, cmdWord, BitVec.extractLsb'_toNat, BitVec.toNat_append]
  have ha := a.isLt; have hb := b.isLt; have ho := opc.isLt
  rw [← Nat.shiftLeft_add_eq_or_of_lt ha, ← Nat.shiftLeft_add_eq_or_of_lt hb]
  simp only [Nat.shiftRight_eq_div_pow, Nat.shiftLeft_eq]
  omega

@[simp] theorem aOf_cmdWord (opc : BitVec 8) (a : BitVec 24) (b : BitVec 32) : aOf (cmdWord opc a b) = a := by
  apply BitVec.eq_of_toNat_eq
  simp only [aOf, cmdWord, BitVec.extractLsb'_toNat, BitVec.toNat_append]
  have ha := a.isLt; have hb := b.isLt; have ho := opc.isLt
  rw [← Nat.shiftLeft_add_eq_or_of_lt ha, ← Nat.shiftLeft_add_eq_or_of_lt hb]
  simp only [Nat.shiftRight_eq_div_pow, Nat.shiftLeft_eq]
  omega

@[simp] theorem bOf_cmdWord (opc : BitVec 8) (a : BitVec 24) (b : BitVec 32) : bOf (cmdWord opc a b) = b := by
  apply BitVec.eq_of_toNat_eq
  simp only [bOf, cmdWord, BitVec.extractLsb'_toNat, BitVec.toNat_append]
  have ha := a.isLt; have hb := b.isLt; have ho := opc.isLt
  rw [← Nat.shiftLeft_add_eq_or_of_lt ha, ← Nat.shiftLeft_add_eq_or_of_lt hb]
  simp only [Nat.shiftRight_eq_div_pow, Nat.shiftLeft_eq]
  omega

/-- A word is the word of its three fields. -/
theorem cmdWord_fields (c : BitVec 64) : cmdWord (opcOf c) (aOf c) (bOf c) = c := by
  apply BitVec.eq_of_toNat_eq
  have hc := c.isLt
  simp only [opcOf, aOf, bOf, cmdWord, BitVec.extractLsb'_toNat, BitVec.toNat_append]
  rw [← Nat.shiftLeft_add_eq_or_of_lt (by omega), ← Nat.shiftLeft_add_eq_or_of_lt (by omega)]
  simp only [Nat.shiftRight_eq_div_pow, Nat.shiftLeft_eq]
  omega

/-- The low bits of a widened field are the field. -/
theorem extractLsb'_setWidth_low {w v : Nat} (x : BitVec w) (h : w ≤ v) : (x.setWidth v).extractLsb' 0 w = x := by
  apply BitVec.eq_of_toNat_eq
  have hx := x.isLt
  have hv : x.toNat < 2 ^ v := lt_of_lt_of_le hx (Nat.pow_le_pow_right (by omega) h)
  simp only [BitVec.extractLsb'_toNat, BitVec.toNat_setWidth, Nat.shiftRight_zero, Nat.mod_eq_of_lt hv,
    Nat.mod_eq_of_lt hx]

/-- The bits above a widened field are zero. -/
theorem extractLsb'_setWidth_high {w v n : Nat} (x : BitVec w) (h : w ≤ v) :
    (x.setWidth v).extractLsb' w n = 0#n := by
  apply BitVec.eq_of_toNat_eq
  have hx := x.isLt
  have hv : x.toNat < 2 ^ v := lt_of_lt_of_le hx (Nat.pow_le_pow_right (by omega) h)
  simp only [BitVec.extractLsb'_toNat, BitVec.toNat_setWidth, Nat.mod_eq_of_lt hv, Nat.shiftRight_eq_div_pow,
    Nat.div_eq_of_lt hx, Nat.zero_mod, BitVec.toNat_ofNat]

end Sys2Proof
end

