-- ==== Sys2Proof/Laws/State.lean ====
section
/-!
SUPPORT. What each named update of the state does to each field: one lemma per field, true by `rfl`, in simp's
set, so that no proof unfolds an update.
-/
namespace Sys2Proof.Machine

section
variable (st : Status) (val : BitVec 32) (s : State)
@[simp] theorem respond_fault : (respond st val s).fault = s.fault := rfl
@[simp] theorem respond_finfo : (respond st val s).finfo = s.finfo := rfl
@[simp] theorem respond_fopc : (respond st val s).fopc = s.fopc := rfl
@[simp] theorem respond_ib : (respond st val s).ib = s.ib := rfl
@[simp] theorem respond_ibPtr : (respond st val s).ibPtr = s.ibPtr := rfl
@[simp] theorem respond_bitbuf : (respond st val s).bitbuf = s.bitbuf := rfl
@[simp] theorem respond_bitcnt : (respond st val s).bitcnt = s.bitcnt := rfl
@[simp] theorem respond_ob : (respond st val s).ob = s.ob := rfl
@[simp] theorem respond_acc : (respond st val s).acc = s.acc := rfl
@[simp] theorem respond_nacc : (respond st val s).nacc = s.nacc := rfl
@[simp] theorem respond_cb : (respond st val s).cb = s.cb := rfl
@[simp] theorem respond_tree : (respond st val s).tree = s.tree := rfl
@[simp] theorem respond_treeN : (respond st val s).treeN = s.treeN := rfl
@[simp] theorem respond_treeRoot : (respond st val s).treeRoot = s.treeRoot := rfl
@[simp] theorem respond_htdCur : (respond st val s).htdCur = s.htdCur := rfl
@[simp] theorem respond_htdExp : (respond st val s).htdExp = s.htdExp := rfl
@[simp] theorem respond_eDict : (respond st val s).eDict = s.eDict := rfl
@[simp] theorem respond_eMax : (respond st val s).eMax = s.eMax := rfl
@[simp] theorem respond_eW : (respond st val s).eW = s.eW := rfl
@[simp] theorem respond_dDict : (respond st val s).dDict = s.dDict := rfl
@[simp] theorem respond_dMax : (respond st val s).dMax = s.dMax := rfl
@[simp] theorem respond_dW : (respond st val s).dW = s.dW := rfl
@[simp] theorem respond_cfg : (respond st val s).cfg = s.cfg := rfl
@[simp] theorem respond_input : (respond st val s).input = s.input := rfl
@[simp] theorem respond_rsps : (respond st val s).rsps = s.rsps ++ [responseWord st val] := rfl
end

section
variable (r : Raise) (opc : BitVec 8) (s : State)
@[simp] theorem latch_fault : (latch r opc s).fault = faultCode r.kind := rfl
@[simp] theorem latch_finfo : (latch r opc s).finfo = r.info := rfl
@[simp] theorem latch_fopc : (latch r opc s).fopc = opc := rfl
@[simp] theorem latch_ib : (latch r opc s).ib = s.ib := rfl
@[simp] theorem latch_ibPtr : (latch r opc s).ibPtr = s.ibPtr := rfl
@[simp] theorem latch_bitbuf : (latch r opc s).bitbuf = s.bitbuf := rfl
@[simp] theorem latch_bitcnt : (latch r opc s).bitcnt = s.bitcnt := rfl
@[simp] theorem latch_ob : (latch r opc s).ob = s.ob := rfl
@[simp] theorem latch_acc : (latch r opc s).acc = s.acc := rfl
@[simp] theorem latch_nacc : (latch r opc s).nacc = s.nacc := rfl
@[simp] theorem latch_cb : (latch r opc s).cb = s.cb := rfl
@[simp] theorem latch_tree : (latch r opc s).tree = s.tree := rfl
@[simp] theorem latch_treeN : (latch r opc s).treeN = s.treeN := rfl
@[simp] theorem latch_treeRoot : (latch r opc s).treeRoot = s.treeRoot := rfl
@[simp] theorem latch_htdCur : (latch r opc s).htdCur = s.htdCur := rfl
@[simp] theorem latch_htdExp : (latch r opc s).htdExp = s.htdExp := rfl
@[simp] theorem latch_eDict : (latch r opc s).eDict = s.eDict := rfl
@[simp] theorem latch_eMax : (latch r opc s).eMax = s.eMax := rfl
@[simp] theorem latch_eW : (latch r opc s).eW = s.eW := rfl
@[simp] theorem latch_dDict : (latch r opc s).dDict = s.dDict := rfl
@[simp] theorem latch_dMax : (latch r opc s).dMax = s.dMax := rfl
@[simp] theorem latch_dW : (latch r opc s).dW = s.dW := rfl
@[simp] theorem latch_cfg : (latch r opc s).cfg = s.cfg := rfl
@[simp] theorem latch_input : (latch r opc s).input = s.input := rfl
@[simp] theorem latch_rsps : (latch r opc s).rsps = s.rsps := rfl
end

section
variable (r : Raise) (opc : BitVec 8) (s : State)
@[simp] theorem takeFault_fault : (takeFault r opc s).fault = faultCode r.kind := rfl
@[simp] theorem takeFault_finfo : (takeFault r opc s).finfo = r.info := rfl
@[simp] theorem takeFault_fopc : (takeFault r opc s).fopc = opc := rfl
@[simp] theorem takeFault_ib : (takeFault r opc s).ib = s.ib := rfl
@[simp] theorem takeFault_ibPtr : (takeFault r opc s).ibPtr = s.ibPtr := rfl
@[simp] theorem takeFault_bitbuf : (takeFault r opc s).bitbuf = s.bitbuf := rfl
@[simp] theorem takeFault_bitcnt : (takeFault r opc s).bitcnt = s.bitcnt := rfl
@[simp] theorem takeFault_ob : (takeFault r opc s).ob = s.ob := rfl
@[simp] theorem takeFault_acc : (takeFault r opc s).acc = s.acc := rfl
@[simp] theorem takeFault_nacc : (takeFault r opc s).nacc = s.nacc := rfl
@[simp] theorem takeFault_cb : (takeFault r opc s).cb = s.cb := rfl
@[simp] theorem takeFault_tree : (takeFault r opc s).tree = s.tree := rfl
@[simp] theorem takeFault_treeN : (takeFault r opc s).treeN = s.treeN := rfl
@[simp] theorem takeFault_treeRoot : (takeFault r opc s).treeRoot = s.treeRoot := rfl
@[simp] theorem takeFault_htdCur : (takeFault r opc s).htdCur = s.htdCur := rfl
@[simp] theorem takeFault_htdExp : (takeFault r opc s).htdExp = s.htdExp := rfl
@[simp] theorem takeFault_eDict : (takeFault r opc s).eDict = s.eDict := rfl
@[simp] theorem takeFault_eMax : (takeFault r opc s).eMax = s.eMax := rfl
@[simp] theorem takeFault_eW : (takeFault r opc s).eW = s.eW := rfl
@[simp] theorem takeFault_dDict : (takeFault r opc s).dDict = s.dDict := rfl
@[simp] theorem takeFault_dMax : (takeFault r opc s).dMax = s.dMax := rfl
@[simp] theorem takeFault_dW : (takeFault r opc s).dW = s.dW := rfl
@[simp] theorem takeFault_cfg : (takeFault r opc s).cfg = s.cfg := rfl
@[simp] theorem takeFault_input : (takeFault r opc s).input = s.input := rfl
@[simp] theorem takeFault_rsps : (takeFault r opc s).rsps = s.rsps ++ [responseWord .fault ((faultCode r.kind).setWidth 32)] := rfl
end

section
variable (s : State)
@[simp] theorem refuseHalted_fault : (refuseHalted s).fault = s.fault := rfl
@[simp] theorem refuseHalted_finfo : (refuseHalted s).finfo = s.finfo := rfl
@[simp] theorem refuseHalted_fopc : (refuseHalted s).fopc = s.fopc := rfl
@[simp] theorem refuseHalted_ib : (refuseHalted s).ib = s.ib := rfl
@[simp] theorem refuseHalted_ibPtr : (refuseHalted s).ibPtr = s.ibPtr := rfl
@[simp] theorem refuseHalted_bitbuf : (refuseHalted s).bitbuf = s.bitbuf := rfl
@[simp] theorem refuseHalted_bitcnt : (refuseHalted s).bitcnt = s.bitcnt := rfl
@[simp] theorem refuseHalted_ob : (refuseHalted s).ob = s.ob := rfl
@[simp] theorem refuseHalted_acc : (refuseHalted s).acc = s.acc := rfl
@[simp] theorem refuseHalted_nacc : (refuseHalted s).nacc = s.nacc := rfl
@[simp] theorem refuseHalted_cb : (refuseHalted s).cb = s.cb := rfl
@[simp] theorem refuseHalted_tree : (refuseHalted s).tree = s.tree := rfl
@[simp] theorem refuseHalted_treeN : (refuseHalted s).treeN = s.treeN := rfl
@[simp] theorem refuseHalted_treeRoot : (refuseHalted s).treeRoot = s.treeRoot := rfl
@[simp] theorem refuseHalted_htdCur : (refuseHalted s).htdCur = s.htdCur := rfl
@[simp] theorem refuseHalted_htdExp : (refuseHalted s).htdExp = s.htdExp := rfl
@[simp] theorem refuseHalted_eDict : (refuseHalted s).eDict = s.eDict := rfl
@[simp] theorem refuseHalted_eMax : (refuseHalted s).eMax = s.eMax := rfl
@[simp] theorem refuseHalted_eW : (refuseHalted s).eW = s.eW := rfl
@[simp] theorem refuseHalted_dDict : (refuseHalted s).dDict = s.dDict := rfl
@[simp] theorem refuseHalted_dMax : (refuseHalted s).dMax = s.dMax := rfl
@[simp] theorem refuseHalted_dW : (refuseHalted s).dW = s.dW := rfl
@[simp] theorem refuseHalted_cfg : (refuseHalted s).cfg = s.cfg := rfl
@[simp] theorem refuseHalted_input : (refuseHalted s).input = s.input := rfl
@[simp] theorem refuseHalted_rsps : (refuseHalted s).rsps = s.rsps ++ [responseWord .halted (s.fault.setWidth 32)] := rfl
end

section
variable (s : State)
@[simp] theorem openSinkOb_fault : (openSinkOb s).fault = s.fault := rfl
@[simp] theorem openSinkOb_finfo : (openSinkOb s).finfo = s.finfo := rfl
@[simp] theorem openSinkOb_fopc : (openSinkOb s).fopc = s.fopc := rfl
@[simp] theorem openSinkOb_ib : (openSinkOb s).ib = s.ib := rfl
@[simp] theorem openSinkOb_ibPtr : (openSinkOb s).ibPtr = s.ibPtr := rfl
@[simp] theorem openSinkOb_bitbuf : (openSinkOb s).bitbuf = s.bitbuf := rfl
@[simp] theorem openSinkOb_bitcnt : (openSinkOb s).bitcnt = s.bitcnt := rfl
@[simp] theorem openSinkOb_ob : (openSinkOb s).ob = [] := rfl
@[simp] theorem openSinkOb_acc : (openSinkOb s).acc = 0#8 := rfl
@[simp] theorem openSinkOb_nacc : (openSinkOb s).nacc = 0#3 := rfl
@[simp] theorem openSinkOb_cb : (openSinkOb s).cb = s.cb := rfl
@[simp] theorem openSinkOb_tree : (openSinkOb s).tree = s.tree := rfl
@[simp] theorem openSinkOb_treeN : (openSinkOb s).treeN = s.treeN := rfl
@[simp] theorem openSinkOb_treeRoot : (openSinkOb s).treeRoot = s.treeRoot := rfl
@[simp] theorem openSinkOb_htdCur : (openSinkOb s).htdCur = s.htdCur := rfl
@[simp] theorem openSinkOb_htdExp : (openSinkOb s).htdExp = s.htdExp := rfl
@[simp] theorem openSinkOb_eDict : (openSinkOb s).eDict = s.eDict := rfl
@[simp] theorem openSinkOb_eMax : (openSinkOb s).eMax = s.eMax := rfl
@[simp] theorem openSinkOb_eW : (openSinkOb s).eW = s.eW := rfl
@[simp] theorem openSinkOb_dDict : (openSinkOb s).dDict = s.dDict := rfl
@[simp] theorem openSinkOb_dMax : (openSinkOb s).dMax = s.dMax := rfl
@[simp] theorem openSinkOb_dW : (openSinkOb s).dW = s.dW := rfl
@[simp] theorem openSinkOb_cfg : (openSinkOb s).cfg = s.cfg := rfl
@[simp] theorem openSinkOb_input : (openSinkOb s).input = s.input := rfl
@[simp] theorem openSinkOb_rsps : (openSinkOb s).rsps = s.rsps := rfl
end

section
variable (s : State)
@[simp] theorem openSourceIb_fault : (openSourceIb s).fault = s.fault := rfl
@[simp] theorem openSourceIb_finfo : (openSourceIb s).finfo = s.finfo := rfl
@[simp] theorem openSourceIb_fopc : (openSourceIb s).fopc = s.fopc := rfl
@[simp] theorem openSourceIb_ib : (openSourceIb s).ib = s.ib := rfl
@[simp] theorem openSourceIb_ibPtr : (openSourceIb s).ibPtr = 0#32 := rfl
@[simp] theorem openSourceIb_bitbuf : (openSourceIb s).bitbuf = 0#8 := rfl
@[simp] theorem openSourceIb_bitcnt : (openSourceIb s).bitcnt = 0#4 := rfl
@[simp] theorem openSourceIb_ob : (openSourceIb s).ob = s.ob := rfl
@[simp] theorem openSourceIb_acc : (openSourceIb s).acc = s.acc := rfl
@[simp] theorem openSourceIb_nacc : (openSourceIb s).nacc = s.nacc := rfl
@[simp] theorem openSourceIb_cb : (openSourceIb s).cb = s.cb := rfl
@[simp] theorem openSourceIb_tree : (openSourceIb s).tree = s.tree := rfl
@[simp] theorem openSourceIb_treeN : (openSourceIb s).treeN = s.treeN := rfl
@[simp] theorem openSourceIb_treeRoot : (openSourceIb s).treeRoot = s.treeRoot := rfl
@[simp] theorem openSourceIb_htdCur : (openSourceIb s).htdCur = s.htdCur := rfl
@[simp] theorem openSourceIb_htdExp : (openSourceIb s).htdExp = s.htdExp := rfl
@[simp] theorem openSourceIb_eDict : (openSourceIb s).eDict = s.eDict := rfl
@[simp] theorem openSourceIb_eMax : (openSourceIb s).eMax = s.eMax := rfl
@[simp] theorem openSourceIb_eW : (openSourceIb s).eW = s.eW := rfl
@[simp] theorem openSourceIb_dDict : (openSourceIb s).dDict = s.dDict := rfl
@[simp] theorem openSourceIb_dMax : (openSourceIb s).dMax = s.dMax := rfl
@[simp] theorem openSourceIb_dW : (openSourceIb s).dW = s.dW := rfl
@[simp] theorem openSourceIb_cfg : (openSourceIb s).cfg = s.cfg := rfl
@[simp] theorem openSourceIb_input : (openSourceIb s).input = s.input := rfl
@[simp] theorem openSourceIb_rsps : (openSourceIb s).rsps = s.rsps := rfl
end

section
variable (count : BitVec 32) (s : State)
@[simp] theorem openDecode_fault : (openDecode count s).fault = s.fault := rfl
@[simp] theorem openDecode_finfo : (openDecode count s).finfo = s.finfo := rfl
@[simp] theorem openDecode_fopc : (openDecode count s).fopc = s.fopc := rfl
@[simp] theorem openDecode_ib : (openDecode count s).ib = s.ib := rfl
@[simp] theorem openDecode_ibPtr : (openDecode count s).ibPtr = 0#32 := rfl
@[simp] theorem openDecode_bitbuf : (openDecode count s).bitbuf = 0#8 := rfl
@[simp] theorem openDecode_bitcnt : (openDecode count s).bitcnt = 0#4 := rfl
@[simp] theorem openDecode_ob : (openDecode count s).ob = [] := rfl
@[simp] theorem openDecode_acc : (openDecode count s).acc = 0#8 := rfl
@[simp] theorem openDecode_nacc : (openDecode count s).nacc = 0#3 := rfl
@[simp] theorem openDecode_cb : (openDecode count s).cb = s.cb := rfl
@[simp] theorem openDecode_tree : (openDecode count s).tree = s.tree := rfl
@[simp] theorem openDecode_treeN : (openDecode count s).treeN = s.treeN := rfl
@[simp] theorem openDecode_treeRoot : (openDecode count s).treeRoot = s.treeRoot := rfl
@[simp] theorem openDecode_htdCur : (openDecode count s).htdCur = s.htdCur := rfl
@[simp] theorem openDecode_htdExp : (openDecode count s).htdExp = count := rfl
@[simp] theorem openDecode_eDict : (openDecode count s).eDict = s.eDict := rfl
@[simp] theorem openDecode_eMax : (openDecode count s).eMax = s.eMax := rfl
@[simp] theorem openDecode_eW : (openDecode count s).eW = s.eW := rfl
@[simp] theorem openDecode_dDict : (openDecode count s).dDict = s.dDict := rfl
@[simp] theorem openDecode_dMax : (openDecode count s).dMax = s.dMax := rfl
@[simp] theorem openDecode_dW : (openDecode count s).dW = s.dW := rfl
@[simp] theorem openDecode_cfg : (openDecode count s).cfg = s.cfg := rfl
@[simp] theorem openDecode_input : (openDecode count s).input = s.input := rfl
@[simp] theorem openDecode_rsps : (openDecode count s).rsps = s.rsps := rfl
end

section
variable (max : BitVec 32) (s : State)
@[simp] theorem openEncode_fault : (openEncode max s).fault = s.fault := rfl
@[simp] theorem openEncode_finfo : (openEncode max s).finfo = s.finfo := rfl
@[simp] theorem openEncode_fopc : (openEncode max s).fopc = s.fopc := rfl
@[simp] theorem openEncode_ib : (openEncode max s).ib = s.ib := rfl
@[simp] theorem openEncode_ibPtr : (openEncode max s).ibPtr = s.ibPtr := rfl
@[simp] theorem openEncode_bitbuf : (openEncode max s).bitbuf = s.bitbuf := rfl
@[simp] theorem openEncode_bitcnt : (openEncode max s).bitcnt = s.bitcnt := rfl
@[simp] theorem openEncode_ob : (openEncode max s).ob = s.ob := rfl
@[simp] theorem openEncode_acc : (openEncode max s).acc = s.acc := rfl
@[simp] theorem openEncode_nacc : (openEncode max s).nacc = s.nacc := rfl
@[simp] theorem openEncode_cb : (openEncode max s).cb = [] := rfl
@[simp] theorem openEncode_tree : (openEncode max s).tree = s.tree := rfl
@[simp] theorem openEncode_treeN : (openEncode max s).treeN = s.treeN := rfl
@[simp] theorem openEncode_treeRoot : (openEncode max s).treeRoot = s.treeRoot := rfl
@[simp] theorem openEncode_htdCur : (openEncode max s).htdCur = s.htdCur := rfl
@[simp] theorem openEncode_htdExp : (openEncode max s).htdExp = s.htdExp := rfl
@[simp] theorem openEncode_eDict : (openEncode max s).eDict = seedDict := rfl
@[simp] theorem openEncode_eMax : (openEncode max s).eMax = max := rfl
@[simp] theorem openEncode_eW : (openEncode max s).eW = [] := rfl
@[simp] theorem openEncode_dDict : (openEncode max s).dDict = s.dDict := rfl
@[simp] theorem openEncode_dMax : (openEncode max s).dMax = s.dMax := rfl
@[simp] theorem openEncode_dW : (openEncode max s).dW = s.dW := rfl
@[simp] theorem openEncode_cfg : (openEncode max s).cfg = s.cfg := rfl
@[simp] theorem openEncode_input : (openEncode max s).input = s.input := rfl
@[simp] theorem openEncode_rsps : (openEncode max s).rsps = s.rsps := rfl
end

section
variable (max : BitVec 32) (s : State)
@[simp] theorem openDecodeLzw_fault : (openDecodeLzw max s).fault = s.fault := rfl
@[simp] theorem openDecodeLzw_finfo : (openDecodeLzw max s).finfo = s.finfo := rfl
@[simp] theorem openDecodeLzw_fopc : (openDecodeLzw max s).fopc = s.fopc := rfl
@[simp] theorem openDecodeLzw_ib : (openDecodeLzw max s).ib = s.ib := rfl
@[simp] theorem openDecodeLzw_ibPtr : (openDecodeLzw max s).ibPtr = s.ibPtr := rfl
@[simp] theorem openDecodeLzw_bitbuf : (openDecodeLzw max s).bitbuf = s.bitbuf := rfl
@[simp] theorem openDecodeLzw_bitcnt : (openDecodeLzw max s).bitcnt = s.bitcnt := rfl
@[simp] theorem openDecodeLzw_ob : (openDecodeLzw max s).ob = [] := rfl
@[simp] theorem openDecodeLzw_acc : (openDecodeLzw max s).acc = 0#8 := rfl
@[simp] theorem openDecodeLzw_nacc : (openDecodeLzw max s).nacc = 0#3 := rfl
@[simp] theorem openDecodeLzw_cb : (openDecodeLzw max s).cb = s.cb := rfl
@[simp] theorem openDecodeLzw_tree : (openDecodeLzw max s).tree = s.tree := rfl
@[simp] theorem openDecodeLzw_treeN : (openDecodeLzw max s).treeN = s.treeN := rfl
@[simp] theorem openDecodeLzw_treeRoot : (openDecodeLzw max s).treeRoot = s.treeRoot := rfl
@[simp] theorem openDecodeLzw_htdCur : (openDecodeLzw max s).htdCur = s.htdCur := rfl
@[simp] theorem openDecodeLzw_htdExp : (openDecodeLzw max s).htdExp = s.htdExp := rfl
@[simp] theorem openDecodeLzw_eDict : (openDecodeLzw max s).eDict = s.eDict := rfl
@[simp] theorem openDecodeLzw_eMax : (openDecodeLzw max s).eMax = s.eMax := rfl
@[simp] theorem openDecodeLzw_eW : (openDecodeLzw max s).eW = s.eW := rfl
@[simp] theorem openDecodeLzw_dDict : (openDecodeLzw max s).dDict = seedDict := rfl
@[simp] theorem openDecodeLzw_dMax : (openDecodeLzw max s).dMax = max := rfl
@[simp] theorem openDecodeLzw_dW : (openDecodeLzw max s).dW = [] := rfl
@[simp] theorem openDecodeLzw_cfg : (openDecodeLzw max s).cfg = s.cfg := rfl
@[simp] theorem openDecodeLzw_input : (openDecodeLzw max s).input = s.input := rfl
@[simp] theorem openDecodeLzw_rsps : (openDecodeLzw max s).rsps = s.rsps := rfl
end

section
variable (word : BitVec 64) (s : State)
@[simp] theorem present_fault : (present word s).fault = s.fault := rfl
@[simp] theorem present_finfo : (present word s).finfo = s.finfo := rfl
@[simp] theorem present_fopc : (present word s).fopc = s.fopc := rfl
@[simp] theorem present_ib : (present word s).ib = s.ib := rfl
@[simp] theorem present_ibPtr : (present word s).ibPtr = s.ibPtr := rfl
@[simp] theorem present_bitbuf : (present word s).bitbuf = s.bitbuf := rfl
@[simp] theorem present_bitcnt : (present word s).bitcnt = s.bitcnt := rfl
@[simp] theorem present_ob : (present word s).ob = s.ob := rfl
@[simp] theorem present_acc : (present word s).acc = s.acc := rfl
@[simp] theorem present_nacc : (present word s).nacc = s.nacc := rfl
@[simp] theorem present_cb : (present word s).cb = s.cb := rfl
@[simp] theorem present_tree : (present word s).tree = s.tree := rfl
@[simp] theorem present_treeN : (present word s).treeN = s.treeN := rfl
@[simp] theorem present_treeRoot : (present word s).treeRoot = s.treeRoot := rfl
@[simp] theorem present_htdCur : (present word s).htdCur = s.htdCur := rfl
@[simp] theorem present_htdExp : (present word s).htdExp = s.htdExp := rfl
@[simp] theorem present_eDict : (present word s).eDict = s.eDict := rfl
@[simp] theorem present_eMax : (present word s).eMax = s.eMax := rfl
@[simp] theorem present_eW : (present word s).eW = s.eW := rfl
@[simp] theorem present_dDict : (present word s).dDict = s.dDict := rfl
@[simp] theorem present_dMax : (present word s).dMax = s.dMax := rfl
@[simp] theorem present_dW : (present word s).dW = s.dW := rfl
@[simp] theorem present_cfg : (present word s).cfg = s.cfg := rfl
@[simp] theorem present_input : (present word s).input = .command word :: s.input := rfl
@[simp] theorem present_rsps : (present word s).rsps = s.rsps := rfl
end

/-! `resetCore` gives every field its reset value (10_state.md R27) and keeps the model's own three. -/
section
variable (s : State)
@[simp] theorem resetCore_fault : (resetCore s).fault = 0#8 := rfl
@[simp] theorem resetCore_finfo : (resetCore s).finfo = 0#32 := rfl
@[simp] theorem resetCore_fopc : (resetCore s).fopc = 0#8 := rfl
@[simp] theorem resetCore_ib : (resetCore s).ib = [] := rfl
@[simp] theorem resetCore_ibPtr : (resetCore s).ibPtr = 0#32 := rfl
@[simp] theorem resetCore_bitbuf : (resetCore s).bitbuf = 0#8 := rfl
@[simp] theorem resetCore_bitcnt : (resetCore s).bitcnt = 0#4 := rfl
@[simp] theorem resetCore_ob : (resetCore s).ob = [] := rfl
@[simp] theorem resetCore_acc : (resetCore s).acc = 0#8 := rfl
@[simp] theorem resetCore_nacc : (resetCore s).nacc = 0#3 := rfl
@[simp] theorem resetCore_cb : (resetCore s).cb = [] := rfl
@[simp] theorem resetCore_tree : (resetCore s).tree = [] := rfl
@[simp] theorem resetCore_treeN : (resetCore s).treeN = 0#10 := rfl
@[simp] theorem resetCore_treeRoot : (resetCore s).treeRoot = 0#9 := rfl
@[simp] theorem resetCore_htdCur : (resetCore s).htdCur = 0#9 := rfl
@[simp] theorem resetCore_htdExp : (resetCore s).htdExp = 0#32 := rfl
@[simp] theorem resetCore_eDict : (resetCore s).eDict = [] := rfl
@[simp] theorem resetCore_eMax : (resetCore s).eMax = 0#32 := rfl
@[simp] theorem resetCore_eW : (resetCore s).eW = [] := rfl
@[simp] theorem resetCore_dDict : (resetCore s).dDict = [] := rfl
@[simp] theorem resetCore_dMax : (resetCore s).dMax = 0#32 := rfl
@[simp] theorem resetCore_dW : (resetCore s).dW = [] := rfl
@[simp] theorem resetCore_cfg : (resetCore s).cfg = s.cfg := rfl
@[simp] theorem resetCore_input : (resetCore s).input = s.input := rfl
@[simp] theorem resetCore_rsps : (resetCore s).rsps = s.rsps := rfl
end

end Sys2Proof.Machine
end

