-- ==== Sys2Proof/Laws/Ops.lean ====
section
/-!
SUPPORT. For each shared operation, one lemma that says everything it can do, and the basic laws of the storages:
a read after a write, and that every operation on the arena keeps its canonical form.
-/
namespace Sys2Proof.Machine

/-! ## The common path -/

theorem halted_eq_false_iff (s : State) : halted s = false ↔ s.fault = 0#8 := by simp [halted]

theorem halted_eq_true_iff (s : State) : halted s = true ↔ s.fault ≠ 0#8 := by simp [halted]

/-- In READY a rule that completes gives its working copy and its response. -/
theorem runRule_ok {opc : BitVec 8} {rule : State → Except Raise Reply} {s : State} {r : Reply}
    (ready : s.fault = 0#8) (h : rule s = .ok r) :
    runRule opc rule s = .next (respond r.status r.val r.after) := by
  simp [runRule, halted, ready, h]

/-- In READY a rule that raises takes the fault on the state before the command. -/
theorem runRule_raise {opc : BitVec 8} {rule : State → Except Raise Reply} {s : State} {r : Raise}
    (ready : s.fault = 0#8) (h : rule s = .error r) : runRule opc rule s = .next (takeFault r opc s) := by
  simp [runRule, halted, ready, h]

/-- In HALTED every rule is refused. -/
theorem runRule_halted {opc : BitVec 8} {rule : State → Except Raise Reply} {s : State} (h : s.fault ≠ 0#8) :
    runRule opc rule s = .next (refuseHalted s) := by
  simp [runRule, halted, h]

/-- Everything the common path can answer (60_exceptions.md R200). -/
theorem runRule_cases {opc : BitVec 8} {rule : State → Except Raise Reply} {s t : State}
    (h : runRule opc rule s = .next t) :
    (s.fault ≠ 0#8 ∧ t = refuseHalted s) ∨
    (s.fault = 0#8 ∧ ∃ r, rule s = .ok r ∧ t = respond r.status r.val r.after) ∨
    (s.fault = 0#8 ∧ ∃ r, rule s = .error r ∧ t = takeFault r opc s) := by
  by_cases hf : s.fault = 0#8
  · cases hr : rule s with
    | ok r =>
      rw [runRule_ok hf hr] at h
      exact .inr (.inl ⟨hf, r, rfl, (Host.Outcome.next.inj h).symm⟩)
    | error r =>
      rw [runRule_raise hf hr] at h
      exact .inr (.inr ⟨hf, r, rfl, (Host.Outcome.next.inj h).symm⟩)
  · rw [runRule_halted hf] at h
    exact .inl ⟨hf, (Host.Outcome.next.inj h).symm⟩

/-- The common path always answers a next state. -/
theorem runRule_next (opc : BitVec 8) (rule : State → Except Raise Reply) (s : State) :
    ∃ t, runRule opc rule s = .next t := by
  by_cases hf : s.fault = 0#8
  · cases hr : rule s with
    | ok r => exact ⟨_, runRule_ok hf hr⟩
    | error r => exact ⟨_, runRule_raise hf hr⟩
  · exact ⟨_, runRule_halted hf⟩

/-! ## The buffers -/

theorem appendIb_cases (v : BitVec 8) (s : State) :
    (s.ib.length = s.cfg.ibCap ∧ appendIb v s = .error ⟨.overflow, 0#32⟩) ∨
    (s.ib.length ≠ s.cfg.ibCap ∧ appendIb v s = .ok { s with ib := s.ib ++ [v] }) := by
  by_cases h : s.ib.length = s.cfg.ibCap <;> simp [appendIb, h]

theorem appendOb_cases (v : BitVec 8) (s : State) :
    (s.ob.length = s.cfg.obCap ∧ appendOb v s = .error ⟨.overflow, 1#32⟩) ∨
    (s.ob.length ≠ s.cfg.obCap ∧ appendOb v s = .ok { s with ob := s.ob ++ [v] }) := by
  by_cases h : s.ob.length = s.cfg.obCap <;> simp [appendOb, h]

theorem appendCb_cases (v : BitVec 32) (s : State) :
    (s.cb.length = s.cfg.cbCap ∧ appendCb v s = .error ⟨.overflow, 2#32⟩) ∨
    (s.cb.length ≠ s.cfg.cbCap ∧ appendCb v s = .ok { s with cb := s.cb ++ [v] }) := by
  by_cases h : s.cb.length = s.cfg.cbCap <;> simp [appendCb, h]

/-- A string that fits is appended whole. -/
theorem appendObString_fits (bytes : List (BitVec 8)) (s : State) (h : s.ob.length + bytes.length ≤ s.cfg.obCap) :
    appendObString bytes s = .ok { s with ob := s.ob ++ bytes } := by
  induction bytes generalizing s with
  | nil => simp [appendObString]
  | cons v rest ih =>
    simp only [List.length_cons] at h
    have hne : s.ob.length ≠ s.cfg.obCap := by omega
    have hl : ({ s with ob := s.ob ++ [v] } : State).ob.length + rest.length ≤
        ({ s with ob := s.ob ++ [v] } : State).cfg.obCap := by
      simp only [List.length_append, List.length_cons, List.length_nil]; omega
    simp [appendObString, appendOb, hne, ih _ hl]

/-- A string that does not fit an unfilled `OB` raises `Overflow(1)`. -/
theorem appendObString_overflows (bytes : List (BitVec 8)) (s : State) (room : s.ob.length ≤ s.cfg.obCap)
    (h : s.cfg.obCap < s.ob.length + bytes.length) : appendObString bytes s = .error ⟨.overflow, 1#32⟩ := by
  induction bytes generalizing s with
  | nil => simp at h; omega
  | cons v rest ih =>
    simp only [List.length_cons] at h
    by_cases hne : s.ob.length = s.cfg.obCap
    · simp [appendObString, appendOb, hne]
    · have hr : ({ s with ob := s.ob ++ [v] } : State).ob.length ≤ s.cfg.obCap := by
        simp only [List.length_append, List.length_cons, List.length_nil]; omega
      have hl : s.cfg.obCap < ({ s with ob := s.ob ++ [v] } : State).ob.length + rest.length := by
        simp only [List.length_append, List.length_cons, List.length_nil]; omega
      simp [appendObString, appendOb, hne, ih _ hr hl]

/-- Everything appending a string can answer. -/
theorem appendObString_cases (bytes : List (BitVec 8)) (s : State) :
    appendObString bytes s = .ok { s with ob := s.ob ++ bytes } ∨
    appendObString bytes s = .error ⟨.overflow, 1#32⟩ := by
  induction bytes generalizing s with
  | nil => simp [appendObString]
  | cons v rest ih =>
    rcases appendOb_cases v s with ⟨_, h⟩ | ⟨_, h⟩
    · simp [appendObString, h]
    · rcases ih { s with ob := s.ob ++ [v] } with h' | h' <;> simp [appendObString, h, h']

/-- Repeating one byte is appending the string of its copies. -/
theorem appendObTimes_eq (n : Nat) (v : BitVec 8) (s : State) :
    appendObTimes n v s = appendObString (List.replicate n v) s := by
  induction n generalizing s with
  | zero => rfl
  | succ k ih =>
    simp only [appendObTimes, List.replicate_succ, appendObString]
    cases appendOb v s <;> simp [ih]

theorem readElement_cases {w : Nat} (elements : List (BitVec w)) (idx : BitVec 24) :
    (∃ v, elements[idx.toNat]? = some v ∧ readElement elements idx = .ok v) ∨
    (elements.length ≤ idx.toNat ∧ readElement elements idx = .error ⟨.badIndex, idx.setWidth 32⟩) := by
  cases h : elements[idx.toNat]? with
  | none => exact .inr ⟨by simpa using h, by simp [readElement, h]⟩
  | some v => exact .inl ⟨v, rfl, by simp [readElement, h]⟩

/-! ## The bit source -/

/-- Everything `readbit()` can answer (41_bitstream.md R107). -/
theorem readBit_cases (s : State) :
    (s.bitcnt = 0#4 ∧ s.ib.length ≤ s.ibPtr.toNat ∧ readBit s = none) ∨
    (s.bitcnt = 0#4 ∧ ∃ byte, s.ib[s.ibPtr.toNat]? = some byte ∧
      readBit s = some (byte.getLsbD 7, { s with bitbuf := byte, ibPtr := s.ibPtr + 1#32, bitcnt := 7#4 })) ∨
    (s.bitcnt ≠ 0#4 ∧
      readBit s = some (s.bitbuf.getLsbD (s.bitcnt.toNat - 1), { s with bitcnt := s.bitcnt - 1#4 })) := by
  by_cases hc : s.bitcnt = 0#4
  · cases h : s.ib[s.ibPtr.toNat]? with
    | none => exact .inl ⟨hc, by simpa using h, by simp [readBit, hc, h]⟩
    | some byte => exact .inr (.inl ⟨hc, byte, rfl, by simp [readBit, hc, h, bitAt]⟩)
  · exact .inr (.inr ⟨hc, by simp [readBit, hc, bitAt]⟩)

/-- The bit source moves nothing but its own three registers. -/
theorem readBit_frame {s t : State} {b : Bool} (h : readBit s = some (b, t)) :
    t = { s with bitbuf := t.bitbuf, ibPtr := t.ibPtr, bitcnt := t.bitcnt } := by
  rcases readBit_cases s with ⟨_, _, e⟩ | ⟨_, byte, _, e⟩ | ⟨_, e⟩ <;> rw [e] at h <;> cases h <;> rfl

/-! ## The arena -/

@[simp] theorem treeRead_treeWrite_same (tree : List (Nat × BitVec 32)) (i : Nat) (w : BitVec 32) :
    treeRead (treeWrite tree i w) i = some w := by
  induction tree with
  | nil => simp [treeWrite, treeRead]
  | cons c rest ih =>
    simp only [treeWrite]
    split
    · simp [treeRead]
    · split
      · simp [treeRead]
      · rename_i h; simp [treeRead, h, ih]

theorem treeRead_treeWrite_other (tree : List (Nat × BitVec 32)) {i j : Nat} (w : BitVec 32) (h : j ≠ i) :
    treeRead (treeWrite tree i w) j = treeRead tree j := by
  induction tree with
  | nil => simp [treeWrite, treeRead, h]
  | cons c rest ih =>
    simp only [treeWrite]
    split
    · simp [treeRead, h]
    · split
      · rename_i e; subst e; simp [treeRead, h]
      · simp [treeRead, ih]

theorem mem_treeWrite {tree : List (Nat × BitVec 32)} {i : Nat} {w : BitVec 32} {c : Nat × BitVec 32}
    (h : c ∈ treeWrite tree i w) : c = (i, w) ∨ c ∈ tree := by
  induction tree with
  | nil => simpa [treeWrite] using h
  | cons d rest ih =>
    simp only [treeWrite] at h
    split at h
    · simpa using h
    · split at h
      · simp only [List.mem_cons] at h ⊢; tauto
      · simp only [List.mem_cons] at h ⊢
        rcases h with h | h
        · exact .inr (.inl h)
        · rcases ih h with h | h
          · exact .inl h
          · exact .inr (.inr h)

theorem treeWrite_pairwise {tree : List (Nat × BitVec 32)} (i : Nat) (w : BitVec 32)
    (h : tree.Pairwise (fun a b => a.1 < b.1)) : (treeWrite tree i w).Pairwise (fun a b => a.1 < b.1) := by
  induction tree with
  | nil => simp [treeWrite]
  | cons d rest ih =>
    rw [List.pairwise_cons] at h
    simp only [treeWrite]
    split
    · rename_i hlt
      refine List.pairwise_cons.2 ⟨fun c hc => ?_, List.pairwise_cons.2 h⟩
      rcases List.mem_cons.1 hc with rfl | hc
      · exact hlt
      · exact lt_trans hlt (h.1 c hc)
    · split
      · rename_i e
        exact List.pairwise_cons.2 ⟨fun c hc => by simpa [e] using h.1 c hc, h.2⟩
      · refine List.pairwise_cons.2 ⟨fun c hc => ?_, ih h.2⟩
        rcases mem_treeWrite hc with rfl | hc
        · simp only; omega
        · exact h.1 c hc

/-- A write of a legal node word at a legal index keeps the canonical form. -/
theorem treeWrite_wf {tree : List (Nat × BitVec 32)} {i : Nat} {w : BitVec 32} (h : Memory.wf tree) (hi : i < 512)
    (hw : reservedNodeBits w = 0#5) : Memory.wf (treeWrite tree i w) := by
  refine ⟨treeWrite_pairwise i w h.1, fun c hc => ?_⟩
  rcases mem_treeWrite hc with rfl | hc
  · exact ⟨hi, hw⟩
  · exact h.2 c hc

/-- Reset leaves the arena in canonical form. -/
theorem reset_wf : Memory.wf State.reset.tree := by decide

theorem treeRead_mem {tree : List (Nat × BitVec 32)} {i : Nat} {w : BitVec 32} (h : treeRead tree i = some w) :
    (i, w) ∈ tree := by
  induction tree with
  | nil => simp [treeRead] at h
  | cons d rest ih =>
    simp only [treeRead] at h
    split at h
    · rename_i e; cases h; subst e; simp
    · exact List.mem_cons_of_mem _ (ih h)

/-- Everything `node(i)` can answer (42_huffman_decoder.md R124). -/
theorem fetchNode_cases (i : BitVec 9) (s : State) :
    (i.toNat < s.treeN.toNat ∧ ∃ w, treeRead s.tree i.toNat = some w ∧ fetchNode i s = .ok w) ∨
    ((s.treeN.toNat ≤ i.toNat ∨ treeRead s.tree i.toNat = none) ∧
      fetchNode i s = .error ⟨.badTree, i.setWidth 32⟩) := by
  by_cases h : s.treeN.toNat ≤ i.toNat
  · exact .inr ⟨.inl h, by simp [fetchNode, h]⟩
  · cases hr : treeRead s.tree i.toNat with
    | none => exact .inr ⟨.inr rfl, by simp [fetchNode, h, hr]⟩
    | some w => exact .inl ⟨by omega, w, rfl, by simp [fetchNode, h, hr]⟩

/-! ## The dictionaries -/

theorem badMax_eq_false_iff (max : BitVec 32) (s : State) :
    badMax max s = false ↔ 256 ≤ max.toNat ∧ max.toNat ≤ s.cfg.dictCap := by
  simp [badMax]

@[simp] theorem seedDict_length : seedDict.length = 256 := by simp [seedDict]

theorem seedDict_get {j : Nat} (h : j < 256) : seedDict[j]? = some [BitVec.ofNat 8 j] := by
  simp [seedDict, h]

theorem seedDict_nodup : seedDict.Nodup := by
  refine List.Nodup.map_on (fun a ha b hb e => ?_) List.nodup_range
  have e' := congrArg BitVec.toNat (List.cons.inj e).1
  simp only [BitVec.toNat_ofNat, List.mem_range] at e' ha hb
  omega

/-- The code of a string of the dictionary names that string. -/
theorem codeOf_get {dict : List (List (BitVec 8))} {str : List (BitVec 8)} (h : str ∈ dict)
    (small : dict.length ≤ 2 ^ 32) : dict[(codeOf dict str).toNat]? = some str := by
  have hlt : dict.idxOf str < dict.length := List.idxOf_lt_length_iff.2 h
  have e : (codeOf dict str).toNat = dict.idxOf str := by
    simp only [codeOf, BitVec.toNat_ofNat]; omega
  rw [e, List.getElem?_eq_getElem hlt, List.getElem_idxOf]

/-- Everything one encode step can answer (43_lzw.md R143). -/
theorem encStep_cases (c : BitVec 8) (s : State) :
    (s.eW ++ [c] ∈ s.eDict ∧ encStep c s = .ok { s with eW := s.eW ++ [c] }) ∨
    (s.eW ++ [c] ∉ s.eDict ∧ s.cb.length = s.cfg.cbCap ∧ encStep c s = .error ⟨.overflow, 2#32⟩) ∨
    (s.eW ++ [c] ∉ s.eDict ∧ s.cb.length ≠ s.cfg.cbCap ∧ encStep c s = .ok { s with
      cb := s.cb ++ [codeOf s.eDict s.eW]
      eDict := if s.eDict.length < s.eMax.toNat then s.eDict ++ [s.eW ++ [c]] else s.eDict
      eW := [c] }) := by
  by_cases h : s.eW ++ [c] ∈ s.eDict
  · exact .inl ⟨h, by simp [encStep, h]⟩
  · by_cases hf : s.cb.length = s.cfg.cbCap
    · exact .inr (.inl ⟨h, hf, by simp [encStep, h, appendCb, hf]⟩)
    · exact .inr (.inr ⟨h, hf, by simp [encStep, h, appendCb, hf]⟩)

/-- Everything resolving a code can answer (43_lzw.md R149, R150). -/
theorem decResolve_cases (k : BitVec 32) (s : State) :
    (∃ entry, s.dDict[k.toNat]? = some entry ∧ decResolve k s = .ok entry) ∨
    (k.toNat = s.dDict.length ∧ decResolve k s = .ok (s.dW ++ firstByte s.dW)) ∨
    (s.dDict.length < k.toNat ∧ decResolve k s = .error ⟨.unknownCode, k⟩) := by
  cases h : s.dDict[k.toNat]? with
  | some entry => exact .inl ⟨entry, rfl, by simp [decResolve, h]⟩
  | none =>
    have hle : s.dDict.length ≤ k.toNat := by simpa using h
    by_cases he : k.toNat = s.dDict.length
    · exact .inr (.inl ⟨he, by simp [decResolve, he]⟩)
    · exact .inr (.inr ⟨by omega, by simp [decResolve, h, he]⟩)

/-! ## Serialised codes -/

/-- Two bytes as a code and back (20_memory.md R48). -/
theorem codeHigh_codeOfBytes (h l : BitVec 8) : codeHigh (codeOfBytes h l) = h := by
  apply BitVec.eq_of_getLsbD_eq
  intro i hi
  simp only [codeHigh, codeOfBytes, BitVec.getLsbD_extractLsb', BitVec.getLsbD_setWidth, BitVec.getLsbD_append]
  have h1 : 8 + i < 32 := by omega
  simp [hi, h1]

theorem codeLow_codeOfBytes (h l : BitVec 8) : codeLow (codeOfBytes h l) = l := by
  apply BitVec.eq_of_getLsbD_eq
  intro i hi
  simp only [codeLow, codeOfBytes, BitVec.getLsbD_extractLsb', BitVec.getLsbD_setWidth, BitVec.getLsbD_append]
  have h1 : i < 32 := by omega
  simp [hi, h1]

/-- A code below 65536 is its two bytes (20_memory.md R48). -/
theorem codeOfBytes_high_low (k : BitVec 32) (small : k.toNat < 65536) :
    codeOfBytes (codeHigh k) (codeLow k) = k := by
  apply BitVec.eq_of_toNat_eq
  simp only [codeHigh, codeLow, codeOfBytes, BitVec.toNat_setWidth, BitVec.toNat_append, BitVec.extractLsb'_toNat]
  rw [← Nat.shiftLeft_add_eq_or_of_lt (by omega)]
  simp only [Nat.shiftRight_eq_div_pow, Nat.shiftLeft_eq]
  omega

end Sys2Proof.Machine
end

