-- ==== Sys2Proof/Laws/PerInstr.lean ====
section
/-!
SUPPORT. A statement about every command, made per constructor: the three fields of its encoded word
(30_encoding.md R60, R61).
-/
namespace Sys2Proof.Laws.EncodedFields

/-- The encoded word of a command has the command's opcode, `A` field and `B` field. -/
def Statement (i : Instr) : Prop :=
  opcOf (encode i) = i.opcode ∧ aOf (encode i) = i.fieldA ∧ bOf (encode i) = i.fieldB

/-- It holds whatever the three fields are. -/
theorem any (i : Instr) : Statement i :=
  ⟨opcOf_cmdWord _ _ _, aOf_cmdWord _ _ _, bOf_cmdWord _ _ _⟩

theorem nop : Statement (.nop) := any _
theorem rst : Statement (.rst) := any _
theorem csrr (addr : BitVec 8) : Statement (.csrr addr) := any _
theorem ibClr : Statement (.ibClr) := any _
theorem ibPush (byte : BitVec 8) : Statement (.ibPush byte) := any _
theorem ibRd (idx : BitVec 24) : Statement (.ibRd idx) := any _
theorem obRd (idx : BitVec 24) : Statement (.obRd idx) := any _
theorem cbClr : Statement (.cbClr) := any _
theorem cbPush (code : BitVec 32) : Statement (.cbPush code) := any _
theorem cbRd (idx : BitVec 24) : Statement (.cbRd idx) := any _
theorem treeWr (idx : BitVec 9) (word : BitVec 32) : Statement (.treeWr idx word) := any _
theorem treeRd (idx : BitVec 9) : Statement (.treeRd idx) := any _
theorem treeCfg (root : BitVec 9) (count : BitVec 10) : Statement (.treeCfg root count) := any _
theorem treeClr : Statement (.treeClr) := any _
theorem bspOpen : Statement (.bspOpen) := any _
theorem bspWbit (value : BitVec 32) : Statement (.bspWbit value) := any _
theorem bspFlush : Statement (.bspFlush) := any _
theorem bsuOpen : Statement (.bsuOpen) := any _
theorem bsuRbit : Statement (.bsuRbit) := any _
theorem htdDecode (count : BitVec 32) : Statement (.htdDecode count) := any _
theorem lzeEncode (max : BitVec 32) : Statement (.lzeEncode max) := any _
theorem lzdDecode (max : BitVec 32) : Statement (.lzdDecode max) := any _
theorem cpkPack : Statement (.cpkPack) := any _
theorem cupUnpack : Statement (.cupUnpack) := any _

end Sys2Proof.Laws.EncodedFields
end

