-- ==== Sys2Proof/Machine/Properties.lean ====
section
/-!
DEFINITION. The document's testable properties (44_host_procedures.md R182), one definition per row of its table,
each about the host's sessions on the block. No step uses them; they are there to be proved.
-/
namespace Sys2Proof.Procedures

open Sys2Proof.Machine

/-- `decode(encode(text)) == text`: whatever tree, bytes and block an encode of the text ended with, decoding with any
image of that tree and the text's length gives the text, the capacities sufficing (44_host_procedures.md R182). -/
def RoundTrips (text : List (BitVec 8)) : Prop :=
  ∀ (s t : State) (out : Encoded) (words : List (BitVec 32)) (root : BitVec 9), s.fault = 0#8 → s.cfg.Ok →
    Encodes text s out t → IsImage words root out.tree →
    out.bytes.length ≤ s.cfg.ibCap → text.length ≤ s.cfg.obCap →
    ∃ u, hufDecodeText out.bytes root words out.symbolCount t = .next (.bytes text, u)

/-- Row 1 of 44_host_procedures.md R182: every non-empty text round-trips, and with every tree of it the encode does
end when its bytes fit `OB`, as many as R176 says. -/
def HuffmanRoundTripProperty : Prop :=
  ∀ text : List (BitVec 8), text ≠ [] → RoundTrips text ∧
    ∀ (s : State) (tree : HuffTree), s.fault = 0#8 → s.cfg.Ok → Admissible text tree →
      (bitCount (buildCodes tree) text + 7) / 8 ≤ s.cfg.obCap →
      ∃ out t, Encodes text s out t ∧ out.tree = tree ∧
        out.bytes.length = (bitCount (buildCodes tree) text + 7) / 8

/-- Row 2 of 44_host_procedures.md R182: every text round-trips through the codes for every `M` the block accepts
(43_lzw.md R151 item 4), and the encode does end when there is room for one code per symbol. -/
def LzwRoundTripProperty : Prop :=
  ∀ (text : List (BitVec 8)) (m : BitVec 32) (s : State), s.fault = 0#8 → s.cfg.Ok → 256 ≤ m.toNat →
    m.toNat ≤ s.cfg.dictCap → text.length ≤ s.cfg.ibCap → text.length ≤ s.cfg.obCap →
    (text.length ≤ s.cfg.cbCap → ∃ codes t, lzwEncodeText text m s = .next (.codes codes, t)) ∧
    ∀ codes t, lzwEncodeText text m s = .next (.codes codes, t) →
      ∃ u, lzwDecodeText codes m t = .next (.bytes text, u)

/-- Row 3 of 44_host_procedures.md R182: a text of one symbol round-trips; its code table has exactly one entry, of
length 1, and each symbol is one zero bit (R175). -/
def SingleSymbolProperty : Prop :=
  ∀ (sym : BitVec 8) (n : Nat), 1 ≤ n →
    (∀ tree, Admissible (List.replicate n sym) tree →
      buildCodes tree = [(sym, [false])] ∧
      encodeBits (buildCodes tree) (List.replicate n sym) = some (List.replicate n false)) ∧
    RoundTrips (List.replicate n sym)

/-- Row 4 of 44_host_procedures.md R182: the empty text has no tree, and a decode with no tree loaded is rejected
with `NoTree` (R181). -/
def EmptyInputProperty : Prop :=
  (∀ tree, ¬ Admissible [] tree) ∧
  ∀ (s : State) (bytes : List (BitVec 8)) (root : BitVec 9) (count : Nat), s.fault = 0#8 →
    bytes.length ≤ s.cfg.ibCap →
    ∃ t, hufDecodeText bytes root [] count s = .next (.blockFault 0x06#8, t)

/-- Row 5 of 44_host_procedures.md R182: an encode of a number of bits that is no multiple of 8 ends in a byte padded
with zero bits, and still round-trips. -/
def BitPackingProperty : Prop :=
  ∀ (text : List (BitVec 8)) (tree : HuffTree) (bits : List Bool) (s : State), s.fault = 0#8 → s.cfg.Ok →
    encodeBits (buildCodes tree) text = some bits → bits.length % 8 ≠ 0 → (bits.length + 7) / 8 ≤ s.cfg.obCap →
    (∃ bytes t, hufEncode text (buildCodes tree) s = .next (.bytes bytes, t) ∧
      bitsOf bytes = bits ++ List.replicate (8 - bits.length % 8) false) ∧
    RoundTrips text

/-- Row 6 of 44_host_procedures.md R182: a string of one repeated symbol with `maxDictSize = 260`. The dictionary
stops at 260 entries (it has them from 11 symbols on), the encode does not fail, the text comes back, and no larger
dictionary needs more codes. -/
def DictionaryCapProperty : Prop :=
  ∀ (sym : BitVec 8) (n : Nat) (s : State), s.fault = 0#8 → s.cfg.Ok → 260 ≤ s.cfg.dictCap →
    n ≤ s.cfg.ibCap → n ≤ s.cfg.obCap → n ≤ s.cfg.cbCap →
    ∃ codes t, lzwEncodeText (List.replicate n sym) 260#32 s = .next (.codes codes, t) ∧
      t.eDict.length ≤ 260 ∧ (11 ≤ n → t.eDict.length = 260) ∧
      (∃ u, lzwDecodeText codes 260#32 t = .next (.bytes (List.replicate n sym), u)) ∧
      ∀ (m : BitVec 32) (more : List (BitVec 32)) (u : State), 260 ≤ m.toNat → m.toNat ≤ s.cfg.dictCap →
        lzwEncodeText (List.replicate n sym) m s = .next (.codes more, u) → more.length ≤ codes.length

/-- Row 7 of 44_host_procedures.md R182: `bytesToCodes` on an odd length is `MalformedBuffer`, and no code is
written. -/
def FixedWidthProperty : Prop :=
  ∀ (bytes : List (BitVec 8)) (s : State), s.fault = 0#8 → bytes.length % 2 = 1 → bytes.length ≤ s.cfg.ibCap →
    ∃ t, bytesToCodes bytes s = .next (.blockFault 0x05#8, t) ∧ t.cb = s.cb ∧ t.finfo = BitVec.ofNat 32 bytes.length

/-- The text "aabbbcccc". -/
def scenarioText : List (BitVec 8) := [97#8, 97#8, 98#8, 98#8, 98#8, 99#8, 99#8, 99#8, 99#8]

/-- Row 8 of 44_host_procedures.md R182: the frequency map of "aabbbcccc", a prefix-free code and the round trip with
every tree of it, and with `maxDictSize = 300` the codes 97, 97, .., the entry 256 = "aa" and the text back
(43_lzw.md R142, R148). -/
def ConcreteScenarioProperty : Prop :=
  frequency scenarioText = [(97#8, 2), (98#8, 3), (99#8, 4)] ∧
  (∀ tree, Admissible scenarioText tree →
    ∀ p ∈ buildCodes tree, ∀ q ∈ buildCodes tree, p.2 <+: q.2 → p = q) ∧
  RoundTrips scenarioText ∧
  ∀ s : State, s.fault = 0#8 → s.cfg.Ok → 300 ≤ s.cfg.dictCap → 9 ≤ s.cfg.ibCap → 9 ≤ s.cfg.obCap →
    7 ≤ s.cfg.cbCap →
    ∃ t, lzwEncodeText scenarioText 300#32 s =
        .next (.codes [97#32, 97#32, 98#32, 258#32, 99#32, 260#32, 99#32], t) ∧
      t.eDict[256]? = some [97#8, 97#8] ∧
      ∃ u, lzwDecodeText [97#32, 97#32, 98#32, 258#32, 99#32, 260#32, 99#32] 300#32 t =
        .next (.bytes scenarioText, u)

end Sys2Proof.Procedures
end

