-- ==== Sys2Proof/Laws/Sessions.lean ====
section
/-!
SUPPORT. What the host's command lists do on a READY block: one lemma for each load, each read-out and the packer
commands of `huf_encode`, and how a session ends.
-/
namespace Sys2Proof.Machine

/-! ## Lists of commands -/

theorem runInstrs_cons {i : Instr} {is : List Instr} {s t : State} (h : exec i s = .next t) :
    runInstrs (i :: is) s = runInstrs is t := by simp [runInstrs, h]

theorem runInstrs_append {is js : List Instr} {s t : State} (h : runInstrs is s = .next t) :
    runInstrs (is ++ js) s = runInstrs js t := by
  induction is generalizing s with
  | nil => cases h; rfl
  | cons i rest ih =>
    simp only [List.cons_append, runInstrs] at h ⊢
    cases hx : exec i s with
    | next u => rw [hx] at h; exact ih h
    | fault r => rw [hx] at h; cases h
    | refused r => rw [hx] at h; cases h

/-- A list that ends ran its first part and went on from there. -/
theorem runInstrs_append_inv {is js : List Instr} {s u : State} (h : runInstrs (is ++ js) s = .next u) :
    ∃ t, runInstrs is s = .next t ∧ runInstrs js t = .next u := by
  induction is generalizing s with
  | nil => exact ⟨s, rfl, h⟩
  | cons i rest ih =>
    simp only [List.cons_append, runInstrs] at h ⊢
    cases hx : exec i s with
    | next t => rw [hx] at h; exact ih h
    | fault r => rw [hx] at h; cases h
    | refused r => rw [hx] at h; cases h

/-! ## Loading the buffers and the tree -/

theorem runInstrs_ibPushes (bytes : List (BitVec 8)) (s : State) (ready : s.fault = 0#8)
    (fits : s.ib.length + bytes.length ≤ s.cfg.ibCap) :
    ∃ rs, runInstrs (bytes.map .ibPush) s = .next { s with ib := s.ib ++ bytes, rsps := rs } := by
  induction bytes generalizing s with
  | nil => exact ⟨s.rsps, by simp [runInstrs]⟩
  | cons v rest ih =>
    simp only [List.length_cons] at fits
    have hne : s.ib.length ≠ s.cfg.ibCap := by omega
    obtain ⟨rs, h⟩ := ih (respond .ok (ibLen { s with ib := s.ib ++ [v] }) { s with ib := s.ib ++ [v] }) ready
      (by simp only [respond, List.length_append, List.length_cons, List.length_nil]; omega)
    have hx : exec (.ibPush v) s =
        .next (respond .ok (ibLen { s with ib := s.ib ++ [v] }) { s with ib := s.ib ++ [v] }) := by
      simp [exec, execIbPush, runRule, halted, ready, appendIb, hne, okReply]
    exact ⟨rs, by rw [List.map_cons, runInstrs_cons hx, h]; simp [respond]⟩

/-- `IB.LOAD` (30_encoding.md R73). -/
theorem runInstrs_ibLoad (bytes : List (BitVec 8)) (s : State) (ready : s.fault = 0#8)
    (fits : bytes.length ≤ s.cfg.ibCap) :
    ∃ rs, runInstrs (ibLoad bytes) s =
      .next { s with ib := bytes, ibPtr := 0#32, bitbuf := 0#8, bitcnt := 0#4, rsps := rs } := by
  obtain ⟨rs, h⟩ := runInstrs_ibPushes bytes (respond .ok 0#32 (openSourceIb { s with ib := [] })) ready
    (by simpa [respond, openSourceIb] using fits)
  have hx : exec .ibClr s = .next (respond .ok 0#32 (openSourceIb { s with ib := [] })) := by
    simp [exec, execIbClr, runRule, halted, ready, okReply]
  exact ⟨rs, by rw [ibLoad, runInstrs_cons hx, h]; simp [respond, openSourceIb]⟩

theorem runInstrs_cbPushes (codes : List (BitVec 32)) (s : State) (ready : s.fault = 0#8)
    (fits : s.cb.length + codes.length ≤ s.cfg.cbCap) :
    ∃ rs, runInstrs (codes.map .cbPush) s = .next { s with cb := s.cb ++ codes, rsps := rs } := by
  induction codes generalizing s with
  | nil => exact ⟨s.rsps, by simp [runInstrs]⟩
  | cons v rest ih =>
    simp only [List.length_cons] at fits
    have hne : s.cb.length ≠ s.cfg.cbCap := by omega
    obtain ⟨rs, h⟩ := ih (respond .ok (cbLen { s with cb := s.cb ++ [v] }) { s with cb := s.cb ++ [v] }) ready
      (by simp only [respond, List.length_append, List.length_cons, List.length_nil]; omega)
    have hx : exec (.cbPush v) s =
        .next (respond .ok (cbLen { s with cb := s.cb ++ [v] }) { s with cb := s.cb ++ [v] }) := by
      simp [exec, execCbPush, runRule, halted, ready, appendCb, hne, okReply]
    exact ⟨rs, by rw [List.map_cons, runInstrs_cons hx, h]; simp [respond]⟩

/-- `CB.LOAD` (30_encoding.md R73). -/
theorem runInstrs_cbLoad (codes : List (BitVec 32)) (s : State) (ready : s.fault = 0#8)
    (fits : codes.length ≤ s.cfg.cbCap) :
    ∃ rs, runInstrs (cbLoad codes) s = .next { s with cb := codes, rsps := rs } := by
  obtain ⟨rs, h⟩ := runInstrs_cbPushes codes (respond .ok 0#32 { s with cb := [] }) ready (by simpa [respond] using fits)
  have hx : exec .cbClr s = .next (respond .ok 0#32 { s with cb := [] }) := by
    simp [exec, execCbClr, runRule, halted, ready, okReply]
  exact ⟨rs, by rw [cbLoad, runInstrs_cons hx, h]; simp [respond]⟩

/-- A write beyond every listed index is listed last. -/
theorem treeWrite_last {tree : List (Nat × BitVec 32)} {k : Nat} (w : BitVec 32) (h : ∀ c ∈ tree, c.1 < k) :
    treeWrite tree k w = tree ++ [(k, w)] := by
  induction tree with
  | nil => rfl
  | cons c rest ih =>
    have hc := h c (by simp)
    simp only [treeWrite, List.cons_append]
    rw [if_neg (by omega), if_neg (by omega), ih (fun d hd => h d (List.mem_cons_of_mem _ hd))]

theorem runInstrs_treeWrites (words : List (BitVec 32)) (k : Nat) (s : State) (ready : s.fault = 0#8)
    (fits : k + words.length ≤ 512) (legal : ∀ w ∈ words, reservedNodeBits w = 0#5) (low : ∀ c ∈ s.tree, c.1 < k) :
    ∃ rs, runInstrs (treeWrites k words) s =
      .next { s with tree := s.tree ++ Procedures.arenaOf k words, rsps := rs } := by
  induction words generalizing k s with
  | nil => exact ⟨s.rsps, by simp [treeWrites, runInstrs, Procedures.arenaOf]⟩
  | cons w rest ih =>
    simp only [List.length_cons] at fits
    have hk : (BitVec.ofNat 9 k).toNat = k := by simp only [BitVec.toNat_ofNat]; omega
    have hx : exec (.treeWr (BitVec.ofNat 9 k) w) s =
        .next (respond .ok 0#32 { s with tree := s.tree ++ [(k, w)] }) := by
      simp [exec, execTreeWr, runRule, halted, ready, legal w, hk, treeWrite_last w low, okReply, -BitVec.toNat_ofNat]
    obtain ⟨rs, h⟩ := ih (k + 1) (respond .ok 0#32 { s with tree := s.tree ++ [(k, w)] }) ready (by omega)
      (fun v hv => legal v (List.mem_cons_of_mem _ hv)) (by
        intro c hc
        rcases List.mem_append.1 hc with hc | hc
        · exact Nat.lt_succ_of_lt (low c hc)
        · rw [List.mem_singleton.1 hc]; exact Nat.lt_succ_self k)
    exact ⟨rs, by rw [treeWrites, runInstrs_cons hx, h]; simp [respond, Procedures.arenaOf]⟩

/-- `TREE.LOAD` of at most 512 legal words whose root is among them, or of none (30_encoding.md R73). -/
theorem runInstrs_treeLoad (words : List (BitVec 32)) (root : BitVec 9) (s : State) (ready : s.fault = 0#8)
    (fits : words.length ≤ 512) (legal : ∀ w ∈ words, reservedNodeBits w = 0#5)
    (inside : words = [] ∨ root.toNat < words.length) :
    ∃ rs, runInstrs (treeLoad root words) s =
      .next { s with
        tree := Procedures.arenaOf 0 words, treeN := BitVec.ofNat 10 words.length, treeRoot := root
        htdCur := 0#9, rsps := rs } := by
  obtain ⟨rs, h⟩ := runInstrs_treeWrites words 0
    (respond .ok 0#32 { s with tree := [], treeN := 0#10, treeRoot := 0#9, htdCur := 0#9 }) ready
    (by omega) legal (by simp [respond])
  have hn : (BitVec.ofNat 10 words.length).toNat = words.length := by simp only [BitVec.toNat_ofNat]; omega
  have hroot : ¬ (0 < words.length ∧ words.length ≤ root.toNat) := by
    rcases inside with e | e
    · simp [e]
    · omega
  have hc : exec .treeClr s =
      .next (respond .ok 0#32 { s with tree := [], treeN := 0#10, treeRoot := 0#9, htdCur := 0#9 }) := by
    simp [exec, execTreeClr, runRule, halted, ready, okReply]
  have hd (u : State) (hu : u.fault = 0#8) : exec (.treeCfg root (BitVec.ofNat 10 words.length)) u =
      .next (respond .ok 0#32 { u with treeN := BitVec.ofNat 10 words.length, treeRoot := root }) := by
    simp [exec, execTreeCfg, runRule, halted, hu, hn, hroot, okReply, Nat.not_lt.2 fits, -BitVec.toNat_ofNat]
  exact ⟨_, (runInstrs_cons hc).trans ((runInstrs_append h).trans (runInstrs_cons (hd _ ready)))⟩

/-! ## Reading the buffers -/

theorem runInstrs_obReads (n : Nat) (s : State) (ready : s.fault = 0#8) (inside : n ≤ s.ob.length)
    (small : s.ob.length ≤ 2 ^ 24) :
    runInstrs (obDump n) s =
      .next { s with rsps := s.rsps ++ (s.ob.take n).map (fun v => responseWord .ok (v.setWidth 32)) } := by
  induction n with
  | zero => simp [obDump, runInstrs]
  | succ k ih =>
    have hk : (BitVec.ofNat 24 k).toNat = k := by simp only [BitVec.toNat_ofNat]; omega
    have hg : s.ob[k]? = some s.ob[k] := List.getElem?_eq_getElem (by omega)
    have hd : obDump (k + 1) = obDump k ++ [.obRd (BitVec.ofNat 24 k)] := by simp [obDump, List.range_succ]
    have hx (u : State) (hu : u.fault = 0#8) (ho : u.ob = s.ob) :
        exec (.obRd (BitVec.ofNat 24 k)) u = .next (respond .ok (s.ob[k].setWidth 32) u) := by
      simp [exec, execObRd, runRule, halted, hu, ho, readElement, hk, hg, okReply, -BitVec.toNat_ofNat]
    rw [hd]
    refine (runInstrs_append (ih (by omega))).trans ((runInstrs_cons (hx _ (by exact ready) (by rfl))).trans ?_)
    rw [List.take_add_one, hg, Option.toList_some, List.map_append, List.map_singleton, ← List.append_assoc]
    rfl

theorem runInstrs_cbReads (n : Nat) (s : State) (ready : s.fault = 0#8) (inside : n ≤ s.cb.length)
    (small : s.cb.length ≤ 2 ^ 24) :
    runInstrs (cbDump n) s = .next { s with rsps := s.rsps ++ (s.cb.take n).map (fun k => responseWord .ok k) } := by
  induction n with
  | zero => simp [cbDump, runInstrs]
  | succ k ih =>
    have hk : (BitVec.ofNat 24 k).toNat = k := by simp only [BitVec.toNat_ofNat]; omega
    have hg : s.cb[k]? = some s.cb[k] := List.getElem?_eq_getElem (by omega)
    have hd : cbDump (k + 1) = cbDump k ++ [.cbRd (BitVec.ofNat 24 k)] := by simp [cbDump, List.range_succ]
    have hx (u : State) (hu : u.fault = 0#8) (ho : u.cb = s.cb) :
        exec (.cbRd (BitVec.ofNat 24 k)) u = .next (respond .ok s.cb[k] u) := by
      simp [exec, execCbRd, runRule, halted, hu, ho, readElement, hk, hg, okReply, -BitVec.toNat_ofNat]
    rw [hd]
    refine (runInstrs_append (ih (by omega))).trans ((runInstrs_cons (hx _ (by exact ready) (by rfl))).trans ?_)
    rw [List.take_add_one, hg, Option.toList_some, List.map_append, List.map_singleton, ← List.append_assoc]
    rfl

theorem responseWord_val (st : Status) (v : BitVec 32) : (responseWord st v).extractLsb' 0 32 = v := by
  apply BitVec.eq_of_toNat_eq
  simp only [responseWord, BitVec.extractLsb'_toNat, BitVec.toNat_append]
  have hv := v.isLt
  rw [← Nat.shiftLeft_add_eq_or_of_lt hv]
  simp only [Nat.shiftRight_zero, Nat.shiftLeft_eq]
  omega

theorem responseWord_byte (st : Status) (v : BitVec 8) : (responseWord st (v.setWidth 32)).extractLsb' 0 8 = v := by
  apply BitVec.eq_of_toNat_eq
  simp only [responseWord, BitVec.extractLsb'_toNat, BitVec.toNat_append]
  have hv := v.isLt
  rw [← Nat.shiftLeft_add_eq_or_of_lt (v.setWidth 32).isLt]
  simp only [Nat.shiftRight_zero, Nat.shiftLeft_eq, BitVec.toNat_setWidth]
  omega

end Sys2Proof.Machine

namespace Sys2Proof.Procedures

open Sys2Proof.Machine

/-- A list that leaves the block READY goes on. -/
theorem issue_ready {is : List Instr} {onward : State → HostEnd} {s t : State} (h : runInstrs is s = .next t)
    (ready : t.fault = 0#8) : issue is onward s = onward t := by simp [issue, h, halted, ready]

/-- A list that leaves the block HALTED ends with the fault's code. -/
theorem issue_halted {is : List Instr} {onward : State → HostEnd} {s t : State} (h : runInstrs is s = .next t)
    (stopped : t.fault ≠ 0#8) : issue is onward s = .next (.blockFault t.fault, t) := by
  simp [issue, h, halted, stopped]

/-- A session that ends, and not with a fault of the block, left it READY and went on. -/
theorem issue_inv {is : List Instr} {onward : State → HostEnd} {s u : State} {r : HostResult}
    (h : issue is onward s = .next (r, u)) (usable : ∀ code, r ≠ .blockFault code) :
    ∃ t, runInstrs is s = .next t ∧ t.fault = 0#8 ∧ onward t = .next (r, u) := by
  unfold issue at h
  cases hr : runInstrs is s with
  | next t =>
    by_cases hf : t.fault = 0#8
    · exact ⟨t, rfl, hf, by simpa [hr, halted, hf] using h⟩
    · simp only [hr, halted, bne_iff_ne, ne_eq, hf, not_false_eq_true, if_true, Host.Outcome.next.injEq,
        Prod.mk.injEq] at h
      exact absurd h.1.symm (usable _)
  | fault r => rw [hr] at h; cases h
  | refused r => rw [hr] at h; cases h

/-- Reading `OB` out gives its bytes and adds responses only. -/
theorem readOb_ready (s : State) (ready : s.fault = 0#8) (small : s.ob.length ≤ 2 ^ 24) :
    ∃ rs, readOb s = .next (.bytes s.ob, { s with rsps := rs }) := by
  have hl : (obLen s).toNat = s.ob.length := by simp only [obLen, BitVec.toNat_ofNat]; omega
  have hc : exec (.csrr 0x14#8) s = .next (respond .ok (obLen s) s) := rfl
  have hr := runInstrs_obReads s.ob.length (respond .ok (obLen s) s) ready (le_refl _) small
  refine ⟨?_, ?_⟩
  rotate_left
  · unfold readOb
    rw [hl, issue_ready ((runInstrs_cons hc).trans hr) ready]
    simp [dumped, respond, responseWord_byte, Function.comp_def]
    rfl

/-- Reading `CB` out gives its codes and adds responses only. -/
theorem readCb_ready (s : State) (ready : s.fault = 0#8) (small : s.cb.length ≤ 2 ^ 24) :
    ∃ rs, readCb s = .next (.codes s.cb, { s with rsps := rs }) := by
  have hl : (cbLen s).toNat = s.cb.length := by simp only [cbLen, BitVec.toNat_ofNat]; omega
  have hc : exec (.csrr 0x17#8) s = .next (respond .ok (cbLen s) s) := rfl
  have hr := runInstrs_cbReads s.cb.length (respond .ok (cbLen s) s) ready (le_refl _) small
  refine ⟨?_, ?_⟩
  rotate_left
  · unfold readCb
    rw [hl, issue_ready ((runInstrs_cons hc).trans hr) ready]
    simp [dumped, respond, responseWord_val, Function.comp_def]
    rfl

/-! ## The commands of `huf_encode` -/

/-- A text whose symbols all have codes is issued whole, with its flush. -/
theorem encodeCall_known {table : List (BitVec 8 × List Bool)} {text : List (BitVec 8)} {bits : List Bool}
    (h : encodeBits table text = some bits) :
    encodeCall table text = { issued := bspWbits bits ++ [.bspFlush], unknown := none } := by
  induction text generalizing bits with
  | nil => cases h; rfl
  | cons sym rest ih =>
    simp only [encodeBits] at h
    cases hc : codeFor table sym with
    | none => simp [hc] at h
    | some code =>
      cases hr : encodeBits table rest with
      | none => simp [hc, hr] at h
      | some more =>
        simp only [hc, hr, Option.some.injEq] at h
        subst h
        simp [encodeCall, hc, ih hr, bspWbits]

/-- A text with a symbol that has no code: the host fails on the first such symbol, and flushes nothing. -/
theorem encodeCall_unknown {table : List (BitVec 8 × List Bool)} {text : List (BitVec 8)}
    (h : encodeBits table text = none) :
    ∃ before sym after bits, text = before ++ sym :: after ∧ codeFor table sym = none ∧
      encodeBits table before = some bits ∧
      encodeCall table text = { issued := bspWbits bits, unknown := some sym } := by
  induction text with
  | nil => cases h
  | cons sym rest ih =>
    cases hc : codeFor table sym with
    | none => exact ⟨[], sym, rest, [], rfl, hc, rfl, by simp [encodeCall, hc, bspWbits]⟩
    | some code =>
      have hr : encodeBits table rest = none := by
        cases hr : encodeBits table rest with
        | none => rfl
        | some more => simp [encodeBits, hc, hr] at h
      obtain ⟨before, bad, after, bits, e, hb, hk, he⟩ := ih hr
      exact ⟨sym :: before, bad, after, code ++ bits, by simp [e], hb, by simp [encodeBits, hc, hk],
        by simp [encodeCall, hc, he, bspWbits]⟩

end Sys2Proof.Procedures
end

