-- ==== Sys2Proof/Laws/Properties.lean ====
section
/-!
SUPPORT. The testable properties of 44_host_procedures.md R182 carried by the statements for the provers, each
statement that carries one a hypothesis here; those no statement need carry are proved outright.
-/
namespace Sys2Proof.Procedures

open Sys2Proof.Machine

/-! ## The packer session that ends without a fault -/

theorem takeFault_halted (r : Raise) (opc : BitVec 8) (s : State) : (takeFault r opc s).fault ≠ 0#8 := by
  show faultCode r.kind ≠ 0#8
  cases r.kind <;> decide

/-- The bits a sink holds: eight for each byte emitted, and the pending ones. -/
def sinkBits (s : State) : Nat := 8 * s.ob.length + s.nacc.toNat

/-- One bit: the sink still fits, and a block left READY was READY and holds one bit more. -/
theorem bspWbit_grows {v : BitVec 32} {s t : State} (room : s.ob.length ≤ s.cfg.obCap)
    (h : exec (.bspWbit v) s = .next t) :
    t.cfg = s.cfg ∧ t.ob.length ≤ t.cfg.obCap ∧
      (t.fault = 0#8 → s.fault = 0#8 ∧ sinkBits t = sinkBits s + 1) := by
  simp only [exec, execBspWbit] at h
  rcases runRule_cases h with ⟨hf, rfl⟩ | ⟨hf, r, hr, rfl⟩ | ⟨_, r, _, rfl⟩
  · exact ⟨rfl, room, fun e => absurd e hf⟩
  · split at hr
    · cases hr
    · split at hr
      · rcases appendOb_cases (shiftIn s.acc v) s with ⟨_, e⟩ | ⟨hne, e⟩ <;> rw [e] at hr <;> cases hr
        refine ⟨rfl, ?_, fun _ => ⟨hf, ?_⟩⟩ <;> simp [sinkBits] <;> omega
      · cases hr
        refine ⟨rfl, room, fun _ => ⟨hf, ?_⟩⟩
        simp [sinkBits]
        omega
  · exact ⟨rfl, room, fun e => absurd e (takeFault_halted _ _ _)⟩

/-- A flush that leaves the block READY: it was READY, and everything the sink held fits `OB`. -/
theorem bspFlush_fits {s t : State} (room : s.ob.length ≤ s.cfg.obCap) (h : exec .bspFlush s = .next t)
    (after : t.fault = 0#8) : s.fault = 0#8 ∧ sinkBits s ≤ 8 * s.cfg.obCap := by
  have := s.nacc.isLt
  simp only [exec, execBspFlush] at h
  rcases runRule_cases h with ⟨hf, rfl⟩ | ⟨hf, r, hr, rfl⟩ | ⟨_, r, _, rfl⟩
  · exact absurd after hf
  · refine ⟨hf, ?_⟩
    simp only [sinkBits]
    split at hr
    · rcases appendOb_cases (padded s.acc s.nacc) s with ⟨_, e⟩ | ⟨hne, e⟩ <;> rw [e] at hr
      · cases hr
      · omega
    · omega
  · exact absurd after (takeFault_halted _ _ _)

/-- Writing bits and flushing, the block left READY: it was READY, and the bits fit `OB`. -/
theorem writesAndFlush_fit {bits : List Bool} {s t : State} (room : s.ob.length ≤ s.cfg.obCap)
    (h : runInstrs (bspWbits bits ++ [.bspFlush]) s = .next t) (after : t.fault = 0#8) :
    s.fault = 0#8 ∧ sinkBits s + bits.length ≤ 8 * s.cfg.obCap := by
  induction bits generalizing s with
  | nil =>
    simp only [bspWbits, List.map_nil, List.nil_append, runInstrs] at h
    cases hx : exec .bspFlush s with
    | next u => rw [hx] at h; cases h; exact bspFlush_fits room hx after
    | fault r => simp [hx] at h
    | refused r => simp [hx] at h
  | cons b rest ih =>
    simp only [bspWbits, List.map_cons, List.cons_append, runInstrs] at h
    cases hx : exec (.bspWbit (bitValue b)) s with
    | next u =>
      rw [hx] at h
      obtain ⟨hc, hu, hs⟩ := bspWbit_grows room hx
      obtain ⟨hf, hb⟩ := ih hu h
      obtain ⟨ready, e⟩ := hs hf
      rw [hc] at hb
      exact ⟨ready, by simp only [List.length_cons]; omega⟩
    | fault r => simp [hx] at h
    | refused r => simp [hx] at h

/-- A packer session that leaves the block READY wrote no more bits than `OB` holds. -/
theorem packSession_fits {bits : List Bool} {s t : State} (ready : s.fault = 0#8)
    (h : runInstrs (packSession bits) s = .next t) (after : t.fault = 0#8) :
    (bits.length + 7) / 8 ≤ s.cfg.obCap := by
  have hx : exec .bspOpen s = .next (respond .ok 0#32 (openSinkOb s)) := by
    simp [exec, execBspOpen, runRule, halted, ready, okReply]
  rw [packSession, List.cons_append, runInstrs_cons hx] at h
  have hb := (writesAndFlush_fit (by simp [openSinkOb]) h after).2
  simp only [sinkBits, respond, openSinkOb, List.length_nil, BitVec.toNat_ofNat] at hb
  omega

/-! ## Rows 1 and 3: Huffman -/

/-- An encode of a text whose symbols have codes that ends with bytes: they are the packed bits, which fit `OB`. -/
theorem hufEncode_inv (session : Obligations.PackerSessionLength) {text bytes : List (BitVec 8)}
    {table : List (BitVec 8 × List Bool)} {bits : List Bool} {s t : State} (ready : s.fault = 0#8) (ok : s.cfg.Ok)
    (hb : encodeBits table text = some bits) (h : hufEncode text table s = .next (.bytes bytes, t)) :
    bytes = packBits bits ∧ (bits.length + 7) / 8 ≤ s.cfg.obCap ∧
      ∃ rs, t = { s with ob := packBits bits, acc := 0#8, nacc := 0#3, rsps := rs } := by
  unfold hufEncode at h
  rw [encodeCall_known hb] at h
  obtain ⟨u, hu, hf, ho⟩ := issue_inv h (by simp)
  have fits := packSession_fits ready hu hf
  obtain ⟨rs, hs⟩ := session.1 bits s ready fits
  cases hs.symm.trans hu
  have hl := session.2.2.2 bits
  obtain ⟨rs', hr⟩ := readOb_ready { s with ob := packBits bits, acc := 0#8, nacc := 0#3, rsps := rs } ready (by
    show (packBits bits).length ≤ _
    rw [hl]; exact fits.trans ok.2.1.2)
  cases hr.symm.trans ho
  exact ⟨rfl, fits, rs', rfl⟩

/-- An encode whose bits fit `OB` ends with their packed form. -/
theorem hufEncode_fits (session : Obligations.PackerSessionLength) {text : List (BitVec 8)}
    {table : List (BitVec 8 × List Bool)} {bits : List Bool} {s : State} (ready : s.fault = 0#8) (ok : s.cfg.Ok)
    (hb : encodeBits table text = some bits) (fits : (bits.length + 7) / 8 ≤ s.cfg.obCap) :
    ∃ rs, hufEncode text table s =
      .next (.bytes (packBits bits), { s with ob := packBits bits, acc := 0#8, nacc := 0#3, rsps := rs }) := by
  obtain ⟨rs, hs⟩ := session.1 bits s ready fits
  have hl := session.2.2.2 bits
  obtain ⟨rs', hr⟩ := readOb_ready { s with ob := packBits bits, acc := 0#8, nacc := 0#3, rsps := rs } ready (by
    show (packBits bits).length ≤ _
    rw [hl]; exact fits.trans ok.2.1.2)
  refine ⟨rs', ?_⟩
  unfold hufEncode
  rw [encodeCall_known hb]
  exact (issue_ready hs ready).trans hr

/-- The commands of a decode load the bytes and the tree, and issue `HTD.DECODE` there (44_host_procedures.md R179). -/
theorem runInstrs_hufDecode (bytes : List (BitVec 8)) (root : BitVec 9) (words : List (BitVec 32)) (count : BitVec 32)
    (s : State) (ready : s.fault = 0#8) (room : bytes.length ≤ s.cfg.ibCap) (fits : words.length ≤ 512)
    (legal : ∀ w ∈ words, reservedNodeBits w = 0#5) (inside : words = [] ∨ root.toNat < words.length) :
    ∃ rs, runInstrs (hufDecode bytes root words count) s = runInstrs [.htdDecode count] { s with
        ib := bytes, ibPtr := 0#32, bitbuf := 0#8, bitcnt := 0#4
        tree := arenaOf 0 words, treeN := BitVec.ofNat 10 words.length, treeRoot := root, htdCur := 0#9, rsps := rs } := by
  obtain ⟨rs, hl⟩ := runInstrs_ibLoad bytes s ready room
  obtain ⟨rs', ht⟩ := runInstrs_treeLoad words root
    { s with ib := bytes, ibPtr := 0#32, bitbuf := 0#8, bitcnt := 0#4, rsps := rs } ready fits legal inside
  exact ⟨rs', by rw [hufDecode, List.append_assoc, runInstrs_append hl, runInstrs_append ht]⟩

theorem HoldsAt.lt {arena : List (Nat × BitVec 32)} {n : Nat} {t : HuffTree} {i : BitVec 9}
    (h : HoldsAt arena n t i) : i.toNat < n := by
  cases t <;> exact h.1

/-- Whatever a Huffman encode of a non-empty text returned decodes to the text. -/
theorem roundTrips (law : Obligations.HuffmanRoundTrip) (session : Obligations.PackerSessionLength)
    (trees : Obligations.AdmissibleTreesEncodeTheirText) {text : List (BitVec 8)} (ne : text ≠ []) : RoundTrips text := by
  intro s t out words root ready ok ⟨hadm, hrun, hcount⟩ ⟨hw, hlegal, hholds⟩ roomIb roomOb
  obtain ⟨-, ⟨bits, hbits⟩, -⟩ := trees text out.tree hadm
  obtain ⟨hbytes, -, rs, rfl⟩ := hufEncode_inv session ready ok hbits hrun
  obtain ⟨rs', hl⟩ := runInstrs_hufDecode out.bytes root words (BitVec.ofNat 32 out.symbolCount)
    { s with ob := packBits bits, acc := 0#8, nacc := 0#3, rsps := rs } ready roomIb hw hlegal (.inr hholds.lt)
  have hn : (BitVec.ofNat 10 words.length).toNat = words.length := by simp only [BitVec.toNat_ofNat]; omega
  obtain ⟨u, hx, hob, hf, -⟩ := law { s with
      ob := packBits bits, acc := 0#8, nacc := 0#3
      ib := out.bytes, ibPtr := 0#32, bitbuf := 0#8, bitcnt := 0#4
      tree := arenaOf 0 words, treeN := BitVec.ofNat 10 words.length, treeRoot := root, htdCur := 0#9, rsps := rs' }
    out.tree text bits ready ne (by simpa only [hn] using hholds) hbits hbytes roomIb roomOb ok
  obtain ⟨rs'', hr⟩ := readOb_ready u hf (by rw [hob]; exact roomOb.trans ok.2.1.2)
  rw [hob] at hr
  refine ⟨_, (issue_ready ?_ hf).trans hr⟩
  rw [hl, hcount]
  exact (runInstrs_cons hx).trans rfl

/-! ### The number of bits an encode writes -/

/-- The symbols, in the order of their values. -/
theorem symbols_nodup : ((List.range 256).map (BitVec.ofNat 8)).Nodup := by
  refine List.Nodup.map_on (fun a ha b hb e => ?_) List.nodup_range
  have e' := congrArg BitVec.toNat e
  simp only [BitVec.toNat_ofNat, List.mem_range] at e' ha hb
  omega

theorem mem_symbols (v : BitVec 8) : v ∈ (List.range 256).map (BitVec.ofNat 8) :=
  List.mem_map.2 ⟨v.toNat, List.mem_range.2 v.isLt, by simp⟩

/-- A sum over the frequency table is a sum over the text (44_host_procedures.md R170). -/
theorem sum_frequency (text : List (BitVec 8)) (f : BitVec 8 → Nat) :
    ((frequency text).map (fun e => e.2 * f e.1)).sum = (text.map f).sum := by
  have drop : ∀ l : List (BitVec 8),
      ((l.filterMap (fun sym => if text.count sym = 0 then none else some (sym, text.count sym))).map
        (fun e => e.2 * f e.1)).sum = (l.map (fun sym => text.count sym * f sym)).sum := by
    intro l
    induction l with
    | nil => rfl
    | cons sym rest ih => by_cases h : text.count sym = 0 <;> simp [h, ih]
  rw [frequency, drop, ← List.sum_toFinset _ symbols_nodup, Finset.sum_list_map_count]
  refine (Finset.sum_subset (fun v _ => List.mem_toFinset.2 (mem_symbols v)) (fun v _ hv => ?_)).symm
  rw [List.count_eq_zero.2 (fun h => hv (List.mem_toFinset.2 h)), Nat.zero_mul]

/-- A completed encode writes as many bits as R176 says (44_host_procedures.md R176). -/
theorem length_encodeBits {table : List (BitVec 8 × List Bool)} {text : List (BitVec 8)} {bits : List Bool}
    (h : encodeBits table text = some bits) : bits.length = bitCount table text := by
  rw [bitCount, sum_frequency text (fun sym => ((codeFor table sym).getD []).length)]
  induction text generalizing bits with
  | nil => cases h; rfl
  | cons sym rest ih =>
    cases hc : codeFor table sym with
    | none => simp [encodeBits, hc] at h
    | some code =>
      cases hr : encodeBits table rest with
      | none => simp [encodeBits, hc, hr] at h
      | some more =>
        simp only [encodeBits, hc, hr, Option.some.injEq] at h
        simp [← h, hc, ih hr]

/-- Row 1 of 44_host_procedures.md R182. -/
theorem huffmanRoundTripProperty (law : Obligations.HuffmanRoundTrip) (session : Obligations.PackerSessionLength)
    (trees : Obligations.AdmissibleTreesEncodeTheirText) : HuffmanRoundTripProperty := by
  refine fun text ne => ⟨roundTrips law session trees ne, fun s tree ready ok hadm fits => ?_⟩
  obtain ⟨-, ⟨bits, hb⟩, -⟩ := trees text tree hadm
  rw [← length_encodeBits hb] at fits ⊢
  obtain ⟨rs, h⟩ := hufEncode_fits session ready ok hb fits
  exact ⟨{ bytes := packBits bits, tree := tree, symbolCount := text.length }, _, ⟨hadm, h, rfl⟩, rfl,
    session.2.2.2 bits⟩

/-! ### One symbol -/

theorem filterMap_single {α β : Type} [DecidableEq α] (g : α → β) (a : α) (l : List α) (h : l.Nodup) :
    l.filterMap (fun x => if x = a then some (g x) else none) = if a ∈ l then [g a] else [] := by
  induction l with
  | nil => rfl
  | cons x rest ih =>
    rw [List.nodup_cons] at h
    by_cases e : x = a
    · subst e; simp [ih h.2, h.1]
    · simp [e, ih h.2, Ne.symm e]

theorem frequency_replicate (sym : BitVec 8) (n : Nat) (pos : 1 ≤ n) :
    frequency (List.replicate n sym) = [(sym, n)] := by
  have e : (fun v : BitVec 8 => if (List.replicate n sym).count v = 0 then none
      else some (v, (List.replicate n sym).count v)) = fun v => if v = sym then some (v, n) else none := by
    funext v
    by_cases h : v = sym
    · have : n ≠ 0 := by omega
      simp [h, this]
    · simp [List.count_replicate, h, Ne.symm h]
  rw [frequency, e, filterMap_single (fun v => (v, n)) sym _ symbols_nodup, if_pos (mem_symbols sym)]

/-- From one node there is nothing to merge (44_host_procedures.md R172). -/
theorem builds_single {x t : HuffTree} (h : Builds [x] t) : t = x := by
  cases h with
  | done => rfl
  | merge p rest a b z t split => simpa using split.length_eq

theorem encodeBits_replicate (sym : BitVec 8) (n : Nat) :
    encodeBits [(sym, [false])] (List.replicate n sym) = some (List.replicate n false) := by
  induction n with
  | zero => rfl
  | succ k ih => simp [List.replicate_succ, encodeBits, codeFor, ih]

/-- Row 3 of 44_host_procedures.md R182. -/
theorem singleSymbolProperty (law : Obligations.HuffmanRoundTrip) (session : Obligations.PackerSessionLength)
    (trees : Obligations.AdmissibleTreesEncodeTheirText) : SingleSymbolProperty := by
  refine fun sym n pos => ⟨fun tree h => ?_, roundTrips law session trees (by simp; omega)⟩
  rw [Admissible, frequency_replicate sym n pos] at h
  rw [builds_single h]
  exact ⟨rfl, encodeBits_replicate sym n⟩

/-! ## Row 4: no tree -/

/-- Row 4 of 44_host_procedures.md R182. -/
theorem emptyInputProperty : EmptyInputProperty := by
  refine ⟨fun tree h => ?_, fun s bytes root count ready room => ?_⟩
  · have e : leaves (frequency []) = [] := by simp [frequency, leaves]
    rw [Admissible, e] at h
    cases h with
    | merge p rest a b z t split => simpa using split.length_eq
  · obtain ⟨rs, hl⟩ := runInstrs_hufDecode bytes root [] (BitVec.ofNat 32 count) s ready room (by simp) (by simp)
      (.inl rfl)
    have hx (u : State) (hf : u.fault = 0#8) (hn : u.treeN = 0#10) : exec (.htdDecode (BitVec.ofNat 32 count)) u =
        .next (takeFault ⟨.noTree, 0#32⟩ 0x40#8 u) := by simp [exec, execHtdDecode, runRule, halted, hf, hn]
    exact ⟨_, issue_halted (hl.trans (runInstrs_cons (hx _ ready rfl))) (takeFault_halted _ _ _)⟩

/-! ## Row 5: the padded last byte -/

theorem flatMap_range_eight {α : Type} (f : Nat → α) (m : Nat) :
    (List.range m).flatMap (fun j => (List.range 8).map (fun i => f (8 * j + i))) = (List.range (8 * m)).map f := by
  induction m with
  | zero => rfl
  | succ k ih =>
    rw [List.range_succ (n := k), List.flatMap_append, ih, Nat.mul_succ, List.range_add, List.map_append]
    simp

/-- A packed byte holds its eight bits, the first at the top (20_memory.md R46, R47). -/
theorem bitsOfByte_packedByte (bits : List Bool) (j : Nat) :
    bitsOfByte (packedByte bits j) = (List.range 8).map (fun i => bits.getD (8 * j + i) false) := by
  have all : ∀ b0 b1 b2 b3 b4 b5 b6 b7 : Bool,
      bitsOfByte (BitVec.ofNat 8 ([if b0 then 2 ^ 7 else 0, if b1 then 2 ^ 6 else 0, if b2 then 2 ^ 5 else 0,
        if b3 then 2 ^ 4 else 0, if b4 then 2 ^ 3 else 0, if b5 then 2 ^ 2 else 0, if b6 then 2 ^ 1 else 0,
        if b7 then 2 ^ 0 else 0]).sum) = [b0, b1, b2, b3, b4, b5, b6, b7] := by decide
  exact all _ _ _ _ _ _ _ _

/-- The bits of a packed sequence: its bits, then zeros up to the byte (20_memory.md R46, R47). -/
theorem bitsOf_packBits (bits : List Bool) :
    bitsOf (packBits bits) = bits ++ List.replicate (8 * ((bits.length + 7) / 8) - bits.length) false := by
  rw [bitsOf, packBits, List.flatMap_map]
  simp only [bitsOfByte_packedByte]
  rw [flatMap_range_eight (fun i => bits.getD i false)]
  refine List.ext_getElem (by simp; omega) (fun i h1 h2 => ?_)
  simp only [List.getElem_map, List.getElem_range, List.getElem_append, List.getElem_replicate, List.getD_eq_getElem?_getD]
  split
  · rename_i h; simp [h]
  · rename_i h; simp [Nat.not_lt.1 h]

/-- Row 5 of 44_host_procedures.md R182. -/
theorem bitPackingProperty (law : Obligations.HuffmanRoundTrip) (session : Obligations.PackerSessionLength)
    (trees : Obligations.AdmissibleTreesEncodeTheirText) : BitPackingProperty := by
  intro text tree bits s ready ok hb hodd fits
  obtain ⟨rs, h⟩ := hufEncode_fits session ready ok hb fits
  refine ⟨⟨packBits bits, _, h, ?_⟩, roundTrips law session trees ?_⟩
  · rw [bitsOf_packBits]
    congr 2
    omega
  · rintro rfl
    cases hb
    simp at hodd

/-! ## Row 7: an odd number of bytes -/

/-- Row 7 of 44_host_procedures.md R182. -/
theorem fixedWidthProperty : FixedWidthProperty := by
  intro bytes s ready odd room
  obtain ⟨rs, hl⟩ := runInstrs_ibLoad bytes s ready room
  have hx (u : State) (hf : u.fault = 0#8) (hb : u.ib = bytes) : exec .cupUnpack u =
      .next (takeFault ⟨.malformedBuffer, BitVec.ofNat 32 bytes.length⟩ 0x53#8 u) := by
    simp [exec, execCupUnpack, runRule, halted, hf, hb, odd, ibLen]
  have hr := (runInstrs_append (js := [.cupUnpack]) hl).trans (runInstrs_cons (hx _ ready rfl))
  exact ⟨_, issue_halted hr (takeFault_halted _ _ _), rfl, rfl⟩


/-! ## Row 2: LZW -/

/-- The encode loop writes `CB` and the encode engine only, and `CB` still fits (43_lzw.md R142). -/
theorem encLoop_frame {text : List (BitVec 8)} {s t : State} (h : encLoop text s = .ok t)
    (room : s.cb.length ≤ s.cfg.cbCap) :
    t = { s with cb := t.cb, eDict := t.eDict, eW := t.eW } ∧ t.cb.length ≤ s.cfg.cbCap := by
  induction text generalizing s with
  | nil => cases h; exact ⟨rfl, room⟩
  | cons c rest ih =>
    simp only [encLoop] at h
    rcases encStep_cases c s with ⟨_, e⟩ | ⟨_, _, e⟩ | ⟨_, hne, e⟩ <;> rw [e] at h
    · exact ih (s := { s with eW := s.eW ++ [c] }) h room
    · cases h
    · exact ih (s := { s with
        cb := s.cb ++ [codeOf s.eDict s.eW]
        eDict := if s.eDict.length < s.eMax.toNat then s.eDict ++ [s.eW ++ [c]] else s.eDict
        eW := [c] }) h (by simp; omega)

/-- An `LZE.ENCODE` that leaves the block READY ran its loop and its last code to the end (43_lzw.md R142). -/
theorem lzeEncode_inv {m : BitVec 32} {s t : State} (h : exec (.lzeEncode m) s = .next t) (after : t.fault = 0#8) :
    s.fault = 0#8 ∧ ∃ u v, encLoop s.ib (openEncode m s) = .ok u ∧ encFinish u = .ok v ∧
      t = respond .ok (cbLen v) v := by
  simp only [exec, execLzeEncode] at h
  rcases runRule_cases h with ⟨hf, rfl⟩ | ⟨hf, r, hr, rfl⟩ | ⟨_, r, _, rfl⟩
  · exact absurd after hf
  · split at hr
    · cases hr
    · cases he : encLoop s.ib (openEncode m s) with
      | error e => simp [he] at hr
      | ok u =>
        cases hv : encFinish u with
        | error e => simp [he, hv] at hr
        | ok v =>
          simp only [he, hv] at hr
          cases hr
          exact ⟨hf, u, v, rfl, hv, rfl⟩
  · exact absurd after (takeFault_halted _ _ _)

/-- It wrote `CB`, within its capacity, and the encode engine only. -/
theorem lzeEncode_frame {m : BitVec 32} {s t : State} (h : exec (.lzeEncode m) s = .next t) (after : t.fault = 0#8) :
    t.cb.length ≤ s.cfg.cbCap ∧
      t = { s with cb := t.cb, eDict := t.eDict, eMax := t.eMax, eW := t.eW, rsps := t.rsps } := by
  obtain ⟨-, u, v, he, hv, rfl⟩ := lzeEncode_inv h after
  obtain ⟨hu, hc⟩ := encLoop_frame he (by simp [openEncode])
  have hcfg : u.cfg = s.cfg := by rw [hu]; rfl
  simp only [openEncode] at hu hc
  simp only [encFinish] at hv
  split at hv
  · cases hv
    exact ⟨hc, by rw [hu]; rfl⟩
  · rcases appendCb_cases (codeOf u.eDict u.eW) u with ⟨_, e⟩ | ⟨hne, e⟩ <;> rw [e] at hv <;> cases hv
    exact ⟨by simp [respond]; rw [hcfg] at hne; omega, by rw [hu]; rfl⟩

theorem appendObString_rsps {bytes : List (BitVec 8)} {s t : State} (rs : List (BitVec 40))
    (h : appendObString bytes s = .ok t) : appendObString bytes { s with rsps := rs } = .ok { t with rsps := rs } := by
  induction bytes generalizing s with
  | nil => cases h; rfl
  | cons v rest ih =>
    simp only [appendObString] at h ⊢
    rcases appendOb_cases v s with ⟨_, e⟩ | ⟨hne, e⟩ <;> rw [e] at h
    · cases h
    · rw [show appendOb v { s with rsps := rs } = .ok { s with ob := s.ob ++ [v], rsps := rs } by simp [appendOb, hne]]
      exact ih h

theorem decStep_rsps {k : BitVec 32} {s t : State} (rs : List (BitVec 40)) (h : decStep k s = .ok t) :
    decStep k { s with rsps := rs } = .ok { t with rsps := rs } := by
  have e : decResolve k { s with rsps := rs } = decResolve k s := rfl
  simp only [decStep, e] at h ⊢
  cases hr : decResolve k s with
  | error r => simp [hr] at h
  | ok entry =>
    cases ha : appendObString entry s with
    | error r => simp [hr, ha] at h
    | ok u =>
      simp only [hr, ha, Except.ok.injEq] at h
      simp only [appendObString_rsps rs ha, ← h]

theorem decLoop_rsps {codes : List (BitVec 32)} {s t : State} (rs : List (BitVec 40)) (h : decLoop codes s = .ok t) :
    decLoop codes { s with rsps := rs } = .ok { t with rsps := rs } := by
  induction codes generalizing s with
  | nil => cases h; rfl
  | cons k rest ih =>
    simp only [decLoop] at h ⊢
    cases hr : decStep k s with
    | error r => simp [hr] at h
    | ok u =>
      simp only [hr] at h
      simp only [decStep_rsps rs hr]
      exact ih h

/-- What `LZD.DECODE` does is independent of the responses given before it (30_encoding.md R63). -/
theorem lzdDecode_rsps {m : BitVec 32} {s t : State} (rs : List (BitVec 40)) (h : exec (.lzdDecode m) s = .next t)
    (after : t.fault = 0#8) :
    ∃ rs', exec (.lzdDecode m) { s with rsps := rs } = .next { t with rsps := rs' } := by
  simp only [exec, execLzdDecode] at h ⊢
  rcases runRule_cases h with ⟨hf, rfl⟩ | ⟨hf, r, hr, rfl⟩ | ⟨_, r, _, rfl⟩
  · exact absurd after hf
  · cases hm : badMax m s with
    | true => simp [hm] at hr
    | false =>
      have hm' (u : State) (hc : u.cfg = s.cfg) : badMax m u = false := by simpa [badMax, hc] using hm
      simp only [hm, Bool.false_eq_true, if_false] at hr
      cases hc : s.cb with
      | nil =>
        simp only [hc] at hr
        cases hr
        exact ⟨_, by simp [runRule, halted, hf, hm', okReply, respond, openDecodeLzw, openSinkOb, hc]; rfl⟩
      | cons k0 rest =>
        simp only [hc] at hr
        cases hd : decFirst k0 (openDecodeLzw m s) with
        | error e => simp [hd] at hr
        | ok u =>
          cases hl : decLoop rest u with
          | error e => simp [hd, hl] at hr
          | ok v =>
            simp only [hd, hl] at hr
            cases hr
            have hd' : decFirst k0 (openDecodeLzw m { s with rsps := rs }) = .ok { u with rsps := rs } := by
              simp only [decFirst] at hd ⊢
              split at hd
              · cases hd
              · rename_i entry he
                rw [show (openDecodeLzw m { s with rsps := rs }).dDict[k0.toNat]? = some entry from he]
                exact appendObString_rsps rs hd
            simp only [hf, hc] at hd'
            exact ⟨_, by simp [runRule, halted, hf, hm', okReply, respond, hd', decLoop_rsps rs hl]; rfl⟩
  · exact absurd after (takeFault_halted _ _ _)

/-- The host's encode is the loaded text encoded and `CB` read out (44_host_procedures.md R180). -/
theorem lzwEncodeText_inv {text : List (BitVec 8)} {m : BitVec 32} {codes : List (BitVec 32)} {s t : State}
    (ready : s.fault = 0#8) (ok : s.cfg.Ok) (room : text.length ≤ s.cfg.ibCap)
    (h : lzwEncodeText text m s = .next (.codes codes, t)) :
    ∃ rs rs' u, u.fault = 0#8 ∧ u.cb = codes ∧ t = { u with rsps := rs' } ∧ codes.length ≤ s.cfg.cbCap ∧
      exec (.lzeEncode m) { s with ib := text, ibPtr := 0#32, bitbuf := 0#8, bitcnt := 0#4, rsps := rs } = .next u := by
  obtain ⟨u, hu, hf, ho⟩ := issue_inv h (by simp)
  obtain ⟨rs, hl⟩ := runInstrs_ibLoad text s ready room
  rw [lzwEncode, runInstrs_append hl] at hu
  cases hx : exec (.lzeEncode m) { s with ib := text, ibPtr := 0#32, bitbuf := 0#8, bitcnt := 0#4, rsps := rs } with
  | next v =>
    simp only [runInstrs, hx, Host.Outcome.next.injEq] at hu
    subst hu
    obtain ⟨hc, -⟩ := lzeEncode_frame hx hf
    obtain ⟨rs', hr⟩ := readCb_ready v hf (hc.trans ok.2.2.1.2)
    cases hr.symm.trans ho
    exact ⟨rs, rs', v, hf, rfl, rfl, hc, hx⟩
  | fault r => simp [runInstrs, hx] at hu
  | refused r => simp [runInstrs, hx] at hu

/-- Row 2 of 44_host_procedures.md R182. -/
theorem lzwRoundTripProperty (law : Obligations.LzwRoundTrip) (encodes : Obligations.LzeEncodeCompletes) :
    LzwRoundTripProperty := by
  intro text m s ready ok lo hi roomIb roomOb
  refine ⟨fun roomCb => ?_, fun codes t h => ?_⟩
  · obtain ⟨rs, hl⟩ := runInstrs_ibLoad text s ready roomIb
    obtain ⟨cb, dict, w, hx, -, hlen, -⟩ := encodes
      { s with ib := text, ibPtr := 0#32, bitbuf := 0#8, bitcnt := 0#4, rsps := rs } m ready lo hi roomCb
    obtain ⟨rs', hr⟩ := readCb_ready (Claims.answered (BitVec.ofNat 32 cb.length)
      { s with ib := text, ibPtr := 0#32, bitbuf := 0#8, bitcnt := 0#4, rsps := rs
               cb := cb, eDict := dict, eMax := m, eW := w }) ready (hlen.trans (roomCb.trans ok.2.2.1.2))
    exact ⟨cb, _, (issue_ready ((runInstrs_append hl).trans (runInstrs_cons hx)) (by exact ready)).trans hr⟩
  · obtain ⟨rs, rs', u, hf, rfl, rfl, hc, hx⟩ := lzwEncodeText_inv ready ok roomIb h
    obtain ⟨-, frame⟩ := lzeEncode_frame hx hf
    have hcfg : u.cfg = s.cfg := by rw [frame]
    obtain ⟨v, hd, hvf, hvo, -⟩ := law _ u m (by exact ready) hx hf roomOb
    obtain ⟨rs2, hl⟩ := runInstrs_cbLoad u.cb { u with rsps := rs' } hf (by simp only [hcfg]; exact hc)
    obtain ⟨rs3, hd'⟩ := lzdDecode_rsps rs2 hd hvf
    obtain ⟨rs4, hr⟩ := readOb_ready { v with rsps := rs3 } hvf (by simp only [hvo]; exact roomOb.trans ok.2.1.2)
    have hr' : readOb { v with rsps := rs3 } = .next (.bytes text, { v with rsps := rs4 }) := by
      rw [hr, ← show v.ob = text from hvo]
    exact ⟨_, (issue_ready ((runInstrs_append hl).trans (runInstrs_cons hd')) (by exact hvf)).trans hr'⟩

/-! ## Row 6: one symbol over and over -/

/-- The dictionary of a text of one symbol after `c` codes: the seed and its runs of 2, 3, .. symbols, up to the cap
(43_lzw.md R143). -/
def runs (sym : BitVec 8) (cap c : Nat) : List (List (BitVec 8)) :=
  seedDict ++ (List.range (min c (cap - 256))).map (fun i => List.replicate (i + 2) sym)

/-- How many symbols the first `c` codes of such a text stand for. -/
def covered (cap c : Nat) : Nat := ((List.range c).map (fun i => min (i + 1) (cap - 255))).sum

theorem covered_succ (cap c : Nat) : covered cap (c + 1) = covered cap c + min (c + 1) (cap - 255) := by
  simp [covered, List.range_succ]

theorem covered_mono {cap larger c d : Nat} (h : cap ≤ larger) (hc : c ≤ d) : covered cap c ≤ covered larger d := by
  induction d generalizing c with
  | zero => simp [Nat.le_zero.1 hc, covered]
  | succ k ih =>
    rcases Nat.lt_or_ge c (k + 1) with hlt | hge
    · exact (ih (by omega)).trans (by rw [covered_succ]; omega)
    · have e : c = k + 1 := by omega
      subst e
      have := ih (le_refl k)
      rw [covered_succ, covered_succ]
      omega

/-- A run is in the dictionary when it is not too long. -/
theorem replicate_mem_runs (sym : BitVec 8) (cap c r : Nat) (hr : 1 ≤ r) :
    List.replicate r sym ∈ runs sym cap c ↔ r ≤ min c (cap - 256) + 1 := by
  rw [runs, List.mem_append]
  constructor
  · rintro (h | h)
    · obtain ⟨j, -, e⟩ := List.mem_map.1 h
      have := congrArg List.length e
      simp at this
      omega
    · obtain ⟨i, hi, e⟩ := List.mem_map.1 h
      have := congrArg List.length e
      rw [List.mem_range] at hi
      simp at this
      omega
  · intro h
    by_cases h1 : r = 1
    · refine .inl (List.mem_map.2 ⟨sym.toNat, List.mem_range.2 sym.isLt, ?_⟩)
      simp [h1]
    · refine .inr (List.mem_map.2 ⟨r - 2, List.mem_range.2 (by omega), ?_⟩)
      congr 1
      omega

/-- Encoding a text of one symbol, from a working string of `r` of them, when it ends without a fault. -/
theorem encLoop_replicate {sym : BitVec 8} {n c r : Nat} {s t : State} (hm : 256 ≤ s.eMax.toNat)
    (h : encLoop (List.replicate n sym) s = .ok t) (hc : s.cb.length = c) (hd : s.eDict = runs sym s.eMax.toNat c)
    (hw : s.eW = List.replicate r sym) (pos : 1 ≤ n + r) (small : r ≤ min (c + 1) (s.eMax.toNat - 255)) :
    ∃ r', t.eW = List.replicate r' sym ∧ t.eDict = runs sym s.eMax.toNat t.cb.length ∧ 1 ≤ r' ∧
      r' ≤ min (t.cb.length + 1) (s.eMax.toNat - 255) ∧
      covered s.eMax.toNat t.cb.length + r' = covered s.eMax.toNat c + r + n := by
  induction n generalizing s c r with
  | zero =>
    cases h
    subst hc
    exact ⟨r, hw, hd, by omega, small, rfl⟩
  | succ k ih =>
    rw [List.replicate_succ, encLoop] at h
    have hwc : s.eW ++ [sym] = List.replicate (r + 1) sym := by rw [hw, ← List.replicate_succ']
    have hin := replicate_mem_runs sym s.eMax.toNat c (r + 1) (by omega)
    rcases encStep_cases sym s with ⟨hmem, e⟩ | ⟨hmem, -, e⟩ | ⟨hmem, -, e⟩ <;> rw [e] at h <;>
      rw [hwc, hd, hin] at hmem
    · obtain ⟨r', h1, h2, h3, h4, h5⟩ := ih (s := { s with eW := s.eW ++ [sym] }) hm h hc hd hwc (by omega)
        (by simp only; omega)
      exact ⟨r', h1, h2, h3, h4, by simp only at h5; omega⟩
    · cases h
    · have hr : r = min (c + 1) (s.eMax.toNat - 255) := by omega
      have hlen : s.eDict.length = 256 + min c (s.eMax.toNat - 256) := by simp [hd, runs]
      obtain ⟨r', h1, h2, h3, h4, h5⟩ := ih (c := c + 1) (r := 1) (s := { s with
          cb := s.cb ++ [codeOf s.eDict s.eW]
          eDict := if s.eDict.length < s.eMax.toNat then s.eDict ++ [s.eW ++ [sym]] else s.eDict
          eW := [sym] }) hm h (by simp [hc]) (by
            simp only [hlen, hwc]
            split
            · rename_i hlt
              have e1 : min c (s.eMax.toNat - 256) = c := by omega
              have e2 : min (c + 1) (s.eMax.toNat - 256) = c + 1 := by omega
              have e3 : r + 1 = c + 2 := by omega
              simp [hd, runs, e1, e2, e3, List.range_succ]
            · rename_i hge
              have e1 : min (c + 1) (s.eMax.toNat - 256) = min c (s.eMax.toNat - 256) := by omega
              simp [hd, runs, e1]) rfl (by omega) (by simp only; omega)
      refine ⟨r', h1, h2, h3, h4, ?_⟩
      simp only at h5
      rw [covered_succ] at h5
      omega

/-- The empty text has no codes (43_lzw.md R142). -/
theorem lzwEncodeText_nil {m : BitVec 32} {codes : List (BitVec 32)} {s t : State} (ready : s.fault = 0#8)
    (ok : s.cfg.Ok) (h : lzwEncodeText [] m s = .next (.codes codes, t)) : codes = [] ∧ t.eDict = seedDict := by
  obtain ⟨rs, rs', u, hf, rfl, rfl, -, hx⟩ := lzwEncodeText_inv ready ok (by simp) h
  obtain ⟨-, v, x, he, hv, rfl⟩ := lzeEncode_inv hx hf
  cases he
  cases hv
  exact ⟨rfl, rfl⟩

/-- What the host's encode of a non-empty text of one symbol leaves: one code more than the `c` that stand for the
symbols before the last run. -/
theorem lzwEncodeText_replicate {sym : BitVec 8} {n : Nat} {m : BitVec 32} {codes : List (BitVec 32)} {s t : State}
    (ready : s.fault = 0#8) (ok : s.cfg.Ok) (room : n ≤ s.cfg.ibCap) (pos : 1 ≤ n) (lo : 256 ≤ m.toNat)
    (h : lzwEncodeText (List.replicate n sym) m s = .next (.codes codes, t)) :
    ∃ c r, codes.length = c + 1 ∧ t.eDict = runs sym m.toNat c ∧ 1 ≤ r ∧ r ≤ min (c + 1) (m.toNat - 255) ∧
      covered m.toNat c + r = n := by
  obtain ⟨rs, rs', u, hf, rfl, rfl, -, hx⟩ := lzwEncodeText_inv ready ok (by simpa using room) h
  obtain ⟨-, v, x, he, hv, rfl⟩ := lzeEncode_inv hx hf
  obtain ⟨r, hw, hd, h1, h2, h3⟩ := encLoop_replicate (c := 0) (r := 0) lo he rfl (by simp [openEncode, runs]) rfl
    (by omega) (by omega)
  simp only [encFinish, hw, show List.replicate r sym ≠ [] by simp; omega, if_false] at hv
  rcases appendCb_cases (codeOf v.eDict (List.replicate r sym)) v with ⟨_, e⟩ | ⟨_, e⟩ <;> rw [e] at hv <;> cases hv
  exact ⟨v.cb.length, r, by simp [respond], hd, h1, h2, by simpa [openEncode, covered] using h3⟩

/-- Row 6 of 44_host_procedures.md R182. -/
theorem dictionaryCapProperty (law : Obligations.LzwRoundTrip) (encodes : Obligations.LzeEncodeCompletes) :
    DictionaryCapProperty := by
  intro sym n s ready ok cap roomIb roomOb roomCb
  obtain ⟨run, back⟩ := lzwRoundTripProperty law encodes (List.replicate n sym) 260#32 s ready ok (by decide) cap
    (by simpa using roomIb) (by simpa using roomOb)
  obtain ⟨codes, t, h⟩ := run (by simpa using roomCb)
  refine ⟨codes, t, h, ?_⟩
  rcases Nat.eq_zero_or_pos n with rfl | pos
  · obtain ⟨rfl, hd⟩ := lzwEncodeText_nil ready ok h
    refine ⟨by simp [hd], by omega, back [] t h, fun m more u _ _ h' => ?_⟩
    rw [(lzwEncodeText_nil ready ok h').1]
  · obtain ⟨c, r, hc, hd, h1, h2, h3⟩ := lzwEncodeText_replicate ready ok roomIb pos (by decide) h
    rw [show (260#32).toNat = 260 from rfl] at h2 h3
    have hlen : t.eDict.length = 256 + min c 4 := by simp [hd, runs]
    refine ⟨by omega, fun h11 => ?_, back codes t h, fun m more u lo hi h' => ?_⟩
    · by_contra hne
      have := covered_mono (le_refl 260) (show c ≤ 3 by omega)
      have e : covered 260 3 = 6 := rfl
      omega
    · obtain ⟨c', r', hc', -, g1, g2, g3⟩ := lzwEncodeText_replicate ready ok roomIb pos (by omega) h'
      by_contra hgt
      have := covered_mono lo (show c + 1 ≤ c' by omega)
      rw [covered_succ] at this
      omega

/-! ## Row 8: the concrete scenario -/

/-- Two encoders in the same state go the same way where the first does not overflow and the second has no less
room (43_lzw.md R146). -/
theorem encLoop_transfer {text : List (BitVec 8)} {s u v : State} (h : encLoop text u = .ok v)
    (hd : s.eDict = u.eDict) (hw : s.eW = u.eW) (hm : s.eMax = u.eMax) (hc : s.cb = u.cb)
    (room : u.cb.length ≤ u.cfg.cbCap) (more : u.cfg.cbCap ≤ s.cfg.cbCap) :
    encLoop text s = .ok { s with cb := v.cb, eDict := v.eDict, eW := v.eW } := by
  induction text generalizing s u with
  | nil => cases h; rw [← hd, ← hw, ← hc]; rfl
  | cons c rest ih =>
    simp only [encLoop] at h ⊢
    rcases encStep_cases c u with ⟨hin, e⟩ | ⟨_, _, e⟩ | ⟨hin, hne, e⟩ <;> rw [e] at h
    · rw [show encStep c s = .ok { s with eW := s.eW ++ [c] } by simp [encStep, hd, hw, hin]]
      exact ih (s := { s with eW := s.eW ++ [c] }) (u := { u with eW := u.eW ++ [c] }) h hd (by simp only [hw]) hm hc
        room more
    · cases h
    · have hs : s.cb.length ≠ s.cfg.cbCap := by rw [hc]; omega
      rcases encStep_cases c s with ⟨h', _⟩ | ⟨_, h', _⟩ | ⟨_, _, e'⟩
      · rw [hd, hw] at h'; exact absurd h' hin
      · exact absurd h' hs
      · rw [e']
        exact ih (s := { s with
            cb := s.cb ++ [codeOf s.eDict s.eW]
            eDict := if s.eDict.length < s.eMax.toNat then s.eDict ++ [s.eW ++ [c]] else s.eDict
            eW := [c] })
          (u := { u with
            cb := u.cb ++ [codeOf u.eDict u.eW]
            eDict := if u.eDict.length < u.eMax.toNat then u.eDict ++ [u.eW ++ [c]] else u.eDict
            eW := [c] }) h (by simp only [hd, hw, hm]) rfl hm (by simp only [hc, hd, hw])
          (by simp; omega) more

/-- The entries the encode of "aabbbcccc" adds (43_lzw.md R142). -/
def scenarioEntries : List (List (BitVec 8)) :=
  [[97#8, 97#8], [97#8, 98#8], [98#8, 98#8], [98#8, 98#8, 99#8], [99#8, 99#8], [99#8, 99#8, 99#8]]

theorem encLoop_scenario :
    encLoop scenarioText (openEncode 300#32 { State.reset with cfg := { Config.resetInstance with cbCap := 7 } }) =
      .ok { openEncode 300#32 { State.reset with cfg := { Config.resetInstance with cbCap := 7 } } with
        cb := [97#32, 97#32, 98#32, 258#32, 99#32, 260#32], eDict := seedDict ++ scenarioEntries, eW := [99#8] } := by
  decide +kernel

theorem frequency_scenario : frequency scenarioText = [(97#8, 2), (98#8, 3), (99#8, 4)] := by decide +kernel

/-- `LZE.ENCODE` of "aabbbcccc" with `maxDictSize = 300`. -/
theorem lzeEncode_scenario {s : State} (ready : s.fault = 0#8) (hi : 300 ≤ s.cfg.dictCap) (room : 7 ≤ s.cfg.cbCap)
    (hib : s.ib = scenarioText) :
    ∃ t, exec (.lzeEncode 300#32) s = .next t ∧ t.fault = 0#8 ∧
      t.cb = [97#32, 97#32, 98#32, 258#32, 99#32, 260#32, 99#32] ∧ t.eDict = seedDict ++ scenarioEntries := by
  have he : encLoop scenarioText (openEncode 300#32 s) = .ok { openEncode 300#32 s with
      cb := [97#32, 97#32, 98#32, 258#32, 99#32, 260#32], eDict := seedDict ++ scenarioEntries, eW := [99#8] } :=
    encLoop_transfer encLoop_scenario rfl rfl rfl rfl (by decide) room
  have hm : badMax 300#32 s = false := (badMax_eq_false_iff _ _).2 ⟨by decide, hi⟩
  have hcode : codeOf (seedDict ++ scenarioEntries) [99#8] = 99#32 := by decide +kernel
  have hne : 6 ≠ s.cfg.cbCap := by omega
  simp only [exec, execLzeEncode, runRule, halted, ready, hm, hib, he, bne_self_eq_false, Bool.false_eq_true, if_false]
  simp [encFinish, hcode, appendCb, openEncode, hne, okReply, ready]

/-- Row 8 of 44_host_procedures.md R182. -/
theorem concreteScenarioProperty (huffman : Obligations.HuffmanRoundTrip) (session : Obligations.PackerSessionLength)
    (trees : Obligations.AdmissibleTreesEncodeTheirText) (law : Obligations.LzwRoundTrip)
    (encodes : Obligations.LzeEncodeCompletes) : ConcreteScenarioProperty := by
  refine ⟨frequency_scenario, fun tree h => (trees _ tree h).2.2, roundTrips huffman session trees (by decide), ?_⟩
  intro s ready ok hi roomIb roomOb roomCb
  obtain ⟨rs, hl⟩ := runInstrs_ibLoad scenarioText s ready roomIb
  obtain ⟨u, hx, hf, hc, hd⟩ := lzeEncode_scenario
    (s := { s with ib := scenarioText, ibPtr := 0#32, bitbuf := 0#8, bitcnt := 0#4, rsps := rs }) ready hi roomCb rfl
  obtain ⟨rs', hr⟩ := readCb_ready u hf (by rw [hc]; decide)
  rw [hc] at hr
  have h : lzwEncodeText scenarioText 300#32 s = _ :=
    (issue_ready ((runInstrs_append hl).trans (runInstrs_cons hx)) hf).trans hr
  exact ⟨_, h, by rw [show State.eDict _ = _ from hd]; decide +kernel,
    (lzwRoundTripProperty law encodes scenarioText 300#32 s ready ok (by decide) hi roomIb roomOb).2 _ _ h⟩

end Sys2Proof.Procedures
end

