-- ==== Sys2Proof/Tests/Slice0.lean ====
section
/-!
SUPPORT. Tests of the model, each on one command, the expected results from 95_test_vectors.md (the vector is named
beside the test) or from the rule named; and one witness for the hypotheses of every statement that has some.
-/
namespace Sys2Proof.Tests

open Sys2Proof.Machine Sys2Proof.Procedures Sys2Proof.Claims

/-- The reset state of an instance with four bytes, four bytes, four codes and 300 dictionary entries. -/
def fresh : State := { State.reset with cfg := ⟨4, 4, 4, 300⟩ }

/-- The reset state of an instance with room for the vectors. -/
def roomy : State := { State.reset with cfg := ⟨64, 64, 64, 4096⟩ }

/-- A HALTED core: the start of the vectors F1 to F7. -/
def stuck : State := { fresh with fault := 0x02#8, finfo := 2#32, fopc := 0x31#8 }

/-- The tree T3 of 95_test_vectors.md section 2.4, the bytes of its first vector and the room for the text. -/
def withT3 : State :=
  { roomy with
    tree := [(0, 0x80000061#32), (1, 0x80000062#32), (2, 0x80000063#32), (3, 0x00000100#32), (4, 0x00040300#32)]
    treeN := 5#10, treeRoot := 4#9, ib := [0xAF#8, 0xC0#8] }

/-- The tree T1 of 95_test_vectors.md section 2.4. -/
def withT1 : State := { fresh with tree := [(0, 0x80000061#32)], treeN := 1#10, treeRoot := 0#9 }

/-- The next state, when there is one. -/
def next? (o : Host.Outcome State Fault Refusal) : Option State :=
  match o with
  | .next s => some s
  | _ => none

/-- The last response of a next state. -/
def answer (o : Host.Outcome State Fault Refusal) : Option (BitVec 40) := (next? o).bind (fun s => s.rsps.getLast?)

/-- The fault latch of a next state. -/
def latched (o : Host.Outcome State Fault Refusal) : Option (BitVec 8 × BitVec 32 × BitVec 8) :=
  (next? o).map (fun s => (s.fault, s.finfo, s.fopc))

/-! ## Well-formedness -/

/-- The one check: a node word with reserved bit 26 set (30_encoding.md R65). -/
theorem test_wellFormed_refuses_reserved_node_bit : (Instr.treeWr 0#9 0x04000000#32).wellFormed = false := by decide

/-- The same check at reserved bit 30. -/
theorem test_wellFormed_refuses_top_reserved_node_bit : (Instr.treeWr 0#9 0x40000000#32).wellFormed = false := by
  decide

/-- All other bits of a node word set (vector E19). -/
theorem test_wellFormed_accepts_full_node : (Instr.treeWr 0#9 0x83FFFFFF#32).wellFormed = true := by decide

/-! ## Decoding and encoding: words written out from 30_encoding.md R60 to R62 -/

theorem test_decode_nop : decode 0x0100000000000000#64 = .ok .nop := by decide
theorem test_decode_rst : decode 0x0200000000000000#64 = .ok .rst := by decide
theorem test_decode_csrr : decode 0x0300001300000000#64 = .ok (.csrr 0x13#8) := by decide
theorem test_decode_ibClr : decode 0x1000000000000000#64 = .ok .ibClr := by decide
theorem test_decode_ibPush : decode 0x11000000000000AF#64 = .ok (.ibPush 0xAF#8) := by decide
theorem test_decode_ibRd : decode 0x12FFFFFF00000000#64 = .ok (.ibRd 0xFFFFFF#24) := by decide
theorem test_decode_obRd : decode 0x1400000D00000000#64 = .ok (.obRd 13#24) := by decide
theorem test_decode_cbClr : decode 0x1500000000000000#64 = .ok .cbClr := by decide
theorem test_decode_cbPush : decode 0x1600000000000102#64 = .ok (.cbPush 258#32) := by decide
theorem test_decode_cbRd : decode 0x1700000300000000#64 = .ok (.cbRd 3#24) := by decide
theorem test_decode_treeWr : decode 0x2000000400040300#64 = .ok (.treeWr 4#9 (nodeWord 2#9 3#9)) := by decide
theorem test_decode_treeWr_leaf : decode 0x2000000080000061#64 = .ok (.treeWr 0#9 (leafWord 0x61#8)) := by decide
theorem test_decode_treeRd : decode 0x2100000400000000#64 = .ok (.treeRd 4#9) := by decide
theorem test_decode_treeCfg : decode 0x220001FF00000200#64 = .ok (.treeCfg 511#9 512#10) := by decide
theorem test_decode_treeClr : decode 0x2300000000000000#64 = .ok .treeClr := by decide
theorem test_decode_bspOpen : decode 0x3000000000000000#64 = .ok .bspOpen := by decide
theorem test_decode_bspWbit : decode 0x31000000FFFFFFFF#64 = .ok (.bspWbit 0xFFFFFFFF#32) := by decide
theorem test_decode_bspFlush : decode 0x3200000000000000#64 = .ok .bspFlush := by decide
theorem test_decode_bsuOpen : decode 0x3400000000000000#64 = .ok .bsuOpen := by decide
theorem test_decode_bsuRbit : decode 0x3500000000000000#64 = .ok .bsuRbit := by decide
theorem test_decode_htdDecode : decode 0x4000000000000009#64 = .ok (.htdDecode 9#32) := by decide
theorem test_decode_lzeEncode : decode 0x500000000000012C#64 = .ok (.lzeEncode 300#32) := by decide
theorem test_decode_lzdDecode : decode 0x510000000000012C#64 = .ok (.lzdDecode 300#32) := by decide
theorem test_decode_cpkPack : decode 0x5200000000000000#64 = .ok .cpkPack := by decide
theorem test_decode_cupUnpack : decode 0x5300000000000000#64 = .ok .cupUnpack := by decide

/-- The illegal words X1 to X10. -/
theorem test_decode_illegal :
    ([0x0000000000000000#64, 0xFFFFFFFFFFFFFFFF#64, 0x1300000000000000#64, 0x0100000000000001#64,
      0x0300010000000000#64, 0x1100000000000100#64, 0x2000020000000000#64, 0x2000000004000000#64,
      0x3100000100000001#64, 0x2200000000000400#64].map decode) =
    [.error .undefinedOpcode, .error .undefinedOpcode, .error .undefinedOpcode, .error .reservedBit,
      .error .reservedBit, .error .reservedBit, .error .reservedBit, .error .reservedBit, .error .reservedBit,
      .error .reservedBit] := by decide

theorem test_encode_treeCfg : encode (.treeCfg 4#9 5#10) = 0x2200000400000005#64 := by decide
theorem test_encode_treeWr : encode (.treeWr 0#9 0x83FFFFFF#32) = 0x2000000083FFFFFF#64 := by decide
theorem test_encode_csrr : encode (.csrr 0x13#8) = 0x0300001300000000#64 := by decide
theorem test_encode_obRd : encode (.obRd 13#24) = 0x1400000D00000000#64 := by decide
theorem test_encode_bspWbit : encode (.bspWbit 1#32) = 0x3100000000000001#64 := by decide
theorem test_encode_ibPush : encode (.ibPush 0xAF#8) = 0x11000000000000AF#64 := by decide

/-- A row of the table as the host numbers its bits. -/
theorem test_decodeTableWord : decodeTableWord 64 0x220001FF00000200 = some (.treeCfg 511#9 512#10) := by decide

/-- `step` runs the word the host presents. -/
theorem test_withFetchWord :
    answer (step (State.reset.withFetchWord 64 0x11000000000000AF)) = some 0x0000000001#40 := by decide

/-! ## System commands -/

/-- A1. -/
theorem test_nop : answer (exec .nop fresh) = some 0x0000000000#40 := by decide

/-- F1. -/
theorem test_nop_halted : exec .nop stuck = .next { stuck with rsps := [0x0300000002#40] } := by rfl

/-- F7. -/
theorem test_rst : exec .rst { stuck with ob := [0xAF#8] } = .next { fresh with rsps := [0x0000000000#40] } := by rfl

/-- F6. -/
theorem test_rst_malformed_halted :
    acceptCommand 0x0200000000000001#64 stuck = .next { stuck with rsps := [0x0300000002#40] } := by rfl

/-- F4. -/
theorem test_csrr_halted : answer (exec (.csrr 0x02#8) stuck) = some 0x0000000031#40 := by decide

/-- A3. -/
theorem test_csrr_undefined : latched (exec (.csrr 0x7F#8) fresh) = some (0x08#8, 0x7F#32, 0x03#8) := by decide

/-! ## Buffer commands -/

/-- A5. -/
theorem test_ibClr : exec .ibClr { fresh with ib := [1#8, 2#8], ibPtr := 1#32, bitcnt := 3#4, bitbuf := 1#8 } =
    .next { fresh with rsps := [0x0000000000#40] } := by rfl

/-- A4. -/
theorem test_ibPush : exec (.ibPush 0xAF#8) fresh = .next { fresh with ib := [0xAF#8], rsps := [0x0000000001#40] } := by
  rfl

/-- A9, at the capacity. -/
theorem test_ibPush_full :
    latched (exec (.ibPush 3#8) { fresh with ib := [1#8, 2#8, 3#8, 4#8] }) = some (0x09#8, 0#32, 0x11#8) := by decide

/-- A4. -/
theorem test_ibRd : answer (exec (.ibRd 0#24) { fresh with ib := [0xAF#8] }) = some 0x00000000AF#40 := by decide
theorem test_ibRd_beyond :
    latched (exec (.ibRd 1#24) { fresh with ib := [0xAF#8] }) = some (0x08#8, 1#32, 0x12#8) := by decide

/-- The example of 40_system_and_buffers.md R86. -/
theorem test_obRd : answer (exec (.obRd 0#24) { fresh with ob := [0xAF#8] }) = some 0x00000000AF#40 := by decide

/-- A8. -/
theorem test_obRd_pending :
    latched (exec (.obRd 0#24) { fresh with acc := 5#8, nacc := 3#3 }) = some (0x08#8, 0#32, 0x14#8) := by decide

/-- A7. -/
theorem test_cbClr : exec .cbClr { fresh with cb := [7#32] } = .next { fresh with rsps := [0x0000000000#40] } := by rfl

/-- A6. -/
theorem test_cbPush : answer (exec (.cbPush 258#32) { fresh with cb := [97#32, 97#32, 98#32] }) = some 0x0000000004#40 := by
  decide
theorem test_cbRd : answer (exec (.cbRd 3#24) { fresh with cb := [97#32, 97#32, 98#32, 258#32] }) =
    some 0x0000000102#40 := by decide
theorem test_cbRd_beyond : latched (exec (.cbRd 4#24) { fresh with cb := [97#32, 97#32, 98#32, 258#32] }) =
    some (0x08#8, 4#32, 0x17#8) := by decide

/-! ## Tree commands -/

/-- The example of 42_huffman_decoder.md R120; an entry written out of order lands in its place. -/
theorem test_treeWr : (next? (exec (.treeWr 0#9 0x80000061#32) { fresh with tree := [(4, 0x00040300#32)] })).map (·.tree) =
    some [(0, 0x80000061#32), (4, 0x00040300#32)] := by decide

/-- Rewriting replaces (42_huffman_decoder.md R120). -/
theorem test_treeWr_again : (next? (exec (.treeWr 4#9 0x80000061#32) { fresh with tree := [(4, 0x00040300#32)] })).map
    (·.tree) = some [(4, 0x80000061#32)] := by decide

/-- T5v. -/
theorem test_treeRd : answer (exec (.treeRd 4#9) withT3) = some 0x0000040300#40 := by decide
theorem test_treeRd_unwritten : latched (exec (.treeRd 5#9) withT3) = some (0x08#8, 5#32, 0x21#8) := by decide

/-- T1v, T4v. -/
theorem test_treeCfg_root : latched (exec (.treeCfg 5#9 5#10) fresh) = some (0x0A#8, 5#32, 0x22#8) := by decide
theorem test_treeCfg_largest : (next? (exec (.treeCfg 511#9 512#10) fresh)).map (fun s => (s.treeN, s.treeRoot)) =
    some (512#10, 511#9) := by decide

/-- T6v. -/
theorem test_treeClr : exec .treeClr { withT1 with htdExp := 3#32, htdCur := 1#9 } =
    .next { fresh with htdExp := 3#32, rsps := [0x0000000000#40] } := by rfl

/-! ## Bit stream -/

/-- B8. -/
theorem test_bspOpen : exec .bspOpen { fresh with ob := [1#8, 2#8], acc := 3#8, nacc := 6#3 } =
    .next { fresh with rsps := [0x0000000000#40] } := by rfl

/-- B2, the eighth bit. -/
theorem test_bspWbit_eighth : exec (.bspWbit 1#32) { fresh with acc := 0x57#8, nacc := 7#3 } =
    .next { fresh with ob := [0xAF#8], rsps := [0x0000000001#40] } := by rfl

/-- F8. -/
theorem test_bspWbit_bad_value_first :
    latched (exec (.bspWbit 2#32) { fresh with ob := [1#8, 2#8, 3#8, 4#8], nacc := 7#3 }) = some (0x02#8, 2#32, 0x31#8) := by
  decide

/-- B3. -/
theorem test_bspFlush : exec .bspFlush { fresh with ob := [0xAF#8], acc := 0x30#8, nacc := 6#3 } =
    .next { fresh with ob := [0xAF#8, 0xC0#8], rsps := [0x0000000002#40] } := by rfl

/-- B12. -/
theorem test_bspFlush_full : latched (exec .bspFlush { fresh with ob := [1#8, 2#8, 3#8, 4#8], acc := 1#8, nacc := 1#3 }) =
    some (0x09#8, 1#32, 0x32#8) := by decide

/-- The example of 41_bitstream.md R106. -/
theorem test_bsuOpen : exec .bsuOpen { fresh with ib := [0x40#8, 0x80#8], ibPtr := 2#32, bitcnt := 5#4 } =
    .next { fresh with ib := [0x40#8, 0x80#8], rsps := [0x0000000000#40] } := by rfl

/-- B13, the first read. -/
theorem test_bsuRbit_refill : exec .bsuRbit { fresh with ib := [0x40#8] } =
    .next { fresh with ib := [0x40#8], ibPtr := 1#32, bitbuf := 0x40#8, bitcnt := 7#4, rsps := [0x0000000000#40] } := by
  rfl

/-- B16. -/
theorem test_bsuRbit_eos : exec .bsuRbit fresh = .next { fresh with rsps := [0x0100000000#40] } := by rfl

/-! ## The tree-walk decoder -/

/-- H1: `OB` = "aabbbcccc". -/
theorem test_htdDecode : (next? (exec (.htdDecode 9#32) withT3)).map
    (fun s => (s.ob.map (·.toNat), s.ibPtr.toNat, s.bitcnt.toNat, s.htdCur.toNat)) =
    some ([97, 97, 98, 98, 98, 99, 99, 99, 99], 2, 2, 4) := by decide

/-- H5: the padding decodes as two more symbols, then end of stream. -/
theorem test_htdDecode_eos : answer (exec (.htdDecode 100#32) withT3) = some 0x010000000B#40 := by decide

/-! ## LZW -/

/-- L9: the codes of "aaa". -/
theorem test_lzeEncode : (next? (exec (.lzeEncode 300#32) { fresh with ib := [97#8, 97#8, 97#8] })).map
    (fun s => (s.cb, s.eW, s.eDict.length)) = some ([97#32, 256#32], [97#8, 97#8], 257) := by decide +kernel

/-- The encode-side fault of 95_test_vectors.md section 2.5. -/
theorem test_lzeEncode_bad_max : latched (exec (.lzeEncode 255#32) { fresh with ib := [97#8] }) =
    some (0x0A#8, 255#32, 0x50#8) := by decide

/-- D2v: the special branch with a full dictionary. -/
theorem test_lzdDecode_special : (next? (exec (.lzdDecode 256#32) { fresh with cb := [97#32, 256#32] })).map
    (fun s => (s.ob, s.dW, s.dDict.length)) = some ([97#8, 97#8, 97#8], [97#8, 97#8], 256) := by decide +kernel

/-- D7v. -/
theorem test_lzdDecode_first_code : latched (exec (.lzdDecode 300#32) { fresh with cb := [256#32] }) =
    some (0x04#8, 256#32, 0x51#8) := by decide +kernel

/-- K3, two of its codes. -/
theorem test_cpkPack : (next? (exec .cpkPack { fresh with cb := [131073#32, 0x12345678#32] })).map (·.ob) =
    some [0x00#8, 0x01#8, 0x56#8, 0x78#8] := by decide

/-- The overflow of 43_lzw.md R155. -/
theorem test_cpkPack_overflow : latched (exec .cpkPack { fresh with cb := [1#32, 2#32, 3#32] }) =
    some (0x09#8, 1#32, 0x52#8) := by decide

/-- K6. -/
theorem test_cupUnpack : (next? (exec .cupUnpack { fresh with ib := [0x01#8, 0x02#8, 0x00#8, 0x63#8] })).map (·.cb) =
    some [258#32, 99#32] := by decide

/-- F9: the odd length is found before the overflow. -/
theorem test_cupUnpack_odd : latched (exec .cupUnpack { fresh with ib := [0x01#8, 0x02#8, 0x00#8], cfg := ⟨4, 4, 1, 256⟩ }) =
    some (0x05#8, 3#32, 0x53#8) := by decide

/-! ## Host procedures -/

/-- 95_test_vectors.md section 2.4: the reference tree of "aabbbcccc" is T3, root last. -/
theorem test_referenceTree : (referenceTree [97#8, 97#8, 98#8, 98#8, 98#8, 99#8, 99#8, 99#8, 99#8]).map (arenaWords 0) =
    some [0x80000063#32, 0x80000061#32, 0x80000062#32, 0x00020200#32, 0x00000300#32] := by rfl

/-- The tree of 95_test_vectors.md T3 as the host holds it. -/
def treeT3 : HuffTree := .node (.leaf 99#8 4) (.node (.leaf 97#8 2) (.leaf 98#8 3))

/-- T3's first vector, by the whole host session (44_host_procedures.md R176). -/
theorem test_hufEncode_bytes :
    (match hufEncode scenarioText (buildCodes treeT3) roomy with
      | .next r => some (r.1, r.2.rsps.length)
      | _ => none) = some (.bytes [0xAF#8, 0xC0#8], 19) := by decide +kernel

/-- 44_host_procedures.md R176: the bit of "a" is written, then the host fails on "b": no flush, `OB` unread. -/
theorem test_hufEncode_unknownSymbol :
    (match hufEncode [97#8, 98#8, 97#8] [(97#8, [true])] roomy with
      | .next r => some (r.1, r.2.acc, r.2.nacc, r.2.ob, r.2.rsps.length)
      | _ => none) = some (.unknownSymbol 98#8, 1#8, 1#3, [], 2) := by decide

/-- 44_host_procedures.md R176: 2 * 2 + 3 * 2 + 4 * 1 bits for "aabbbcccc". -/
theorem test_bitCount : bitCount (buildCodes treeT3) scenarioText = 14 := by decide +kernel

/-- The 14 bits of "aabbbcccc" pack to `AF C0`. -/
theorem test_packBits : packBits [true, false, true, false, true, true, true, true, true, true, false, false, false, false] =
    [0xAF#8, 0xC0#8] := by decide

/-! ## Witnesses: a state and operands that meet the hypotheses of each statement, clause by clause -/

theorem witness_DecodeOfEncodeIsTheCommand : (Instr.treeWr 511#9 0x83FFFFFF#32).wellFormed = true := by decide

theorem witness_EncodeOfDecodeIsTheWord : decode 0x2000000083FFFFFF#64 = .ok (.treeWr 0#9 0x83FFFFFF#32) := by decide

/-- Clauses 2, 4 and 6 (clauses 1, 3 and 5 have no hypothesis a word must meet); the last opcode of each range. -/
theorem witness_IllegalWordsMatchNoRow :
    (∃ r ∈ opcodeMap, 0x5300000000000000#64 &&& r.mask = r.pattern ∧ decode 0x5300000000000000#64 = .ok .cupUnpack) ∧
    (State.reset.fault = 0#8 ∧ ∀ r ∈ opcodeMap, 0x0100000000000001#64 &&& r.mask ≠ r.pattern) ∧
    ([0x00, 0x0F, 0x13, 0x1F, 0x2F, 0x33, 0x3F, 0x4F, 0x54].map (fun o => (opcOf (BitVec.ofNat 64 (o * 2 ^ 56))).toNat)) =
      [0x00, 0x0F, 0x13, 0x1F, 0x2F, 0x33, 0x3F, 0x4F, 0x54] := by
  refine ⟨⟨⟨0xFFFFFFFFFFFFFFFF#64, 0x5300000000000000#64⟩, ?_, ?_, ?_⟩, ⟨rfl, ?_⟩, ?_⟩ <;> decide

theorem witness_StepRunsTheDecodedCommand :
    ({ fresh with input := [.command 0x31000000FFFFFFFF#64, .hardwareReset] } : State).input =
      .command 0x31000000FFFFFFFF#64 :: [.hardwareReset] ∧
    decode 0x31000000FFFFFFFF#64 = .ok (.bspWbit 0xFFFFFFFF#32) := by decide

theorem witness_IllegalCommandRecordsTheWord :
    ({ fresh with input := [.command 0xFFFFFFFFFFFFFFFF#64] } : State).input = .command 0xFFFFFFFFFFFFFFFF#64 :: [] ∧
    ({ fresh with input := [.command 0xFFFFFFFFFFFFFFFF#64] } : State).fault = 0#8 ∧
    decode 0xFFFFFFFFFFFFFFFF#64 = .error .undefinedOpcode := by decide

theorem witness_StepOnResetAndIdle :
    ({ stuck with input := [.hardwareReset] } : State).input = .hardwareReset :: [] ∧ State.reset.input = [] := by decide

/-- A HALTED state; the first and the last register; a word that is neither. -/
theorem witness_HaltedRefusesAllButRstAndCsrr :
    stuck.fault ≠ 0#8 ∧ (0x00#8, 2#32) ∈ registers stuck ∧ (0x33#8, 0#32) ∈ registers stuck ∧
    0x0300003400000000#64 ≠ 0x0200000000000000#64 ∧
    (∀ p ∈ registers stuck, 0x0300003400000000#64 ≠ word 0x03#8 (p.1.setWidth 24) 0#32) := by
  refine ⟨by decide, ?_, ?_, by decide, ?_⟩ <;> simp [registers, stuck, fresh, State.reset, word]

theorem witness_FaultsArePrecise :
    (∃ t, fresh.fault = 0#8 ∧ exec (.treeRd 511#9) fresh = .next t ∧ t.fault ≠ 0#8) ∧
    (∃ t, fresh.fault = 0#8 ∧ acceptCommand 0#64 fresh = .next t ∧ t.fault ≠ 0#8) :=
  ⟨⟨_, rfl, rfl, by decide⟩, ⟨_, rfl, rfl, by decide⟩⟩

theorem witness_UnknownSymbolIsNeverRaised :
    ∃ t, ({ fresh with input := [.command 0#64] } : State).fault ≠ 0x03#8 ∧
      step { fresh with input := [.command 0#64] } = .next t := ⟨_, by decide, rfl⟩

theorem witness_OneResponsePerCommand :
    ∃ t, ({ stuck with input := [.command 0#64] } : State).input = .command 0#64 :: [] ∧
      step { stuck with input := [.command 0#64] } = .next t := ⟨_, rfl, rfl⟩

theorem witness_ParametersNeverChange : ∃ t, step { stuck with input := [.hardwareReset] } = .next t := ⟨_, rfl⟩

theorem witness_RunIsTheFoldOfTheCommands :
    ({ fresh with input := [.command 0#64, .command 0x0200000000000000#64] } : State).input =
      [0#64, 0x0200000000000000#64].map .command := by decide

/-- A state with a pending bit, a full packer buffer and a declared tree meets the invariant and makes a step. -/
theorem witness_EveryStepKeepsTheInvariant :
    ∃ t, StateInv { withT1 with ob := [1#8, 2#8, 3#8, 4#8], acc := 0x7F#8, nacc := 7#3 } ∧
      step { withT1 with ob := [1#8, 2#8, 3#8, 4#8], acc := 0x7F#8, nacc := 7#3 } = .next t := by
  refine ⟨_, ⟨by decide, ?_, ?_, ?_, ?_, ?_, ⟨?_, by decide, ?_⟩, ?_⟩, rfl⟩
  · exact ⟨by decide, by decide, fun _ => ⟨rfl, rfl⟩⟩
  · exact ⟨by decide, by decide, by decide⟩
  · exact ⟨by decide, by decide⟩
  · exact ⟨by decide, by decide⟩
  · exact ⟨by decide, .inr (by decide), ⟨by decide, by decide⟩⟩
  · exact .inl ⟨rfl, rfl⟩
  · exact .inl rfl
  · exact .inl ⟨rfl, rfl⟩

/-- One command outside every list of writers of 10_state.md R23, so each clause is met. -/
theorem witness_OnlyTheNamedCommandsWriteEachState :
    ∃ t, exec (.obRd 0#24) fresh = .next t ∧ Instr.obRd 0#24 ≠ .rst ∧ Instr.obRd 0#24 ≠ .ibClr ∧
      (∀ b, Instr.obRd 0#24 ≠ .ibPush b) ∧ Instr.obRd 0#24 ≠ .bsuOpen ∧ Instr.obRd 0#24 ≠ .bsuRbit ∧
      (∀ n, Instr.obRd 0#24 ≠ .htdDecode n) ∧ Instr.obRd 0#24 ≠ .bspOpen ∧ (∀ v, Instr.obRd 0#24 ≠ .bspWbit v) ∧
      Instr.obRd 0#24 ≠ .bspFlush ∧ (∀ m, Instr.obRd 0#24 ≠ .lzdDecode m) ∧ Instr.obRd 0#24 ≠ .cpkPack ∧
      Instr.obRd 0#24 ≠ .cbClr ∧ (∀ k, Instr.obRd 0#24 ≠ .cbPush k) ∧ (∀ m, Instr.obRd 0#24 ≠ .lzeEncode m) ∧
      Instr.obRd 0#24 ≠ .cupUnpack ∧ Instr.obRd 0#24 ≠ .treeClr ∧ (∀ j w, Instr.obRd 0#24 ≠ .treeWr j w) ∧
      (∀ r n, Instr.obRd 0#24 ≠ .treeCfg r n) := by
  refine ⟨_, rfl, ?_⟩
  simp

theorem witness_HiddenStringsInfluenceNothing :
    ∃ t, SameButHidden { fresh with eDict := [[1#8]], eW := [1#8] } { fresh with eDict := [[2#8]], eW := [] } ∧
      step { fresh with eDict := [[1#8]], eW := [1#8] } = .next t := ⟨_, ⟨rfl, rfl, rfl⟩, rfl⟩

/-- The hypothesis every command's own clauses share: a READY core; and a HALTED one; and a word of the opcode with a
reserved bit set, for each opcode that has reserved bits. -/
theorem witness_ready_and_halted : fresh.fault = 0#8 ∧ stuck.fault ≠ 0#8 := by decide

/-- The hypotheses of `IllegalUnless` for the opcodes whose operands are zero. -/
theorem witness_IllegalUnless_bare :
    ∀ o ∈ [0x01#8, 0x02#8, 0x10#8, 0x15#8, 0x23#8, 0x30#8, 0x32#8, 0x34#8, 0x35#8, 0x52#8, 0x53#8],
      opcOf (word o 0#24 1#32) = o ∧ ¬ (aOf (word o 0#24 1#32) = 0#24 ∧ bOf (word o 0#24 1#32) = 0#32) := by decide

/-- The hypotheses of `IllegalUnless` for the other opcodes, each at its lowest reserved bit. -/
theorem witness_IllegalUnless_fields :
    (opcOf 0x0300010000000000#64 = 0x03#8 ∧ ¬ ((aOf 0x0300010000000000#64).extractLsb' 8 16 = 0#16 ∧
      bOf 0x0300010000000000#64 = 0#32)) ∧
    (opcOf 0x1100000000000100#64 = 0x11#8 ∧ ¬ (aOf 0x1100000000000100#64 = 0#24 ∧ (bOf 0x1100000000000100#64).toNat ≤ 255)) ∧
    (∀ o ∈ [0x12#8, 0x14#8, 0x17#8], opcOf (word o 0#24 1#32) = o ∧ ¬ bOf (word o 0#24 1#32) = 0#32) ∧
    (∀ o ∈ [0x16#8, 0x31#8, 0x40#8, 0x50#8, 0x51#8], opcOf (word o 1#24 0#32) = o ∧ ¬ aOf (word o 1#24 0#32) = 0#24) ∧
    (opcOf 0x2000000004000000#64 = 0x20#8 ∧ ¬ ((aOf 0x2000000004000000#64).toNat ≤ 511 ∧
      (bOf 0x2000000004000000#64).extractLsb' 26 5 = 0#5)) ∧
    (opcOf 0x2100020000000000#64 = 0x21#8 ∧ ¬ ((aOf 0x2100020000000000#64).toNat ≤ 511 ∧ bOf 0x2100020000000000#64 = 0#32)) ∧
    (opcOf 0x2200000000000400#64 = 0x22#8 ∧ ¬ ((aOf 0x2200000000000400#64).toNat ≤ 511 ∧
      (bOf 0x2200000000000400#64).toNat ≤ 1023)) := by decide

/-- A HALTED core and a malformed `RST`. -/
theorem witness_RstResetsTheBlock : stuck.fault ≠ 0#8 ∧ opcOf 0x0200000000000001#64 = 0x02#8 ∧
    ¬ (aOf 0x0200000000000001#64 = 0#24 ∧ bOf 0x0200000000000001#64 = 0#32) := by decide

/-- The first and the last register; an undefined address in both modes; a malformed `CSRR` of a HALTED core. -/
theorem witness_CsrrReadsOneRegister : (0x00#8, 2#32) ∈ registers stuck ∧ (0x33#8, 0#32) ∈ registers fresh ∧
    ((∀ p ∈ registers fresh, p.1 ≠ 0x34#8) ∧ fresh.fault = 0#8) ∧
    ((∀ p ∈ registers stuck, p.1 ≠ 0x03#8) ∧ stuck.fault ≠ 0#8) ∧
    (opcOf 0x0300010000000000#64 = 0x03#8 ∧ ¬ ((aOf 0x0300010000000000#64).extractLsb' 8 16 = 0#16 ∧
      bOf 0x0300010000000000#64 = 0#32)) := by
  refine ⟨?_, ?_, ⟨?_, by decide⟩, ⟨?_, by decide⟩, by decide⟩ <;> simp [registers, stuck, fresh, State.reset]

/-- Room for the last byte; none; a source at its end. -/
theorem witness_IbPushAppendsOneByte :
    ({ fresh with ib := [1#8, 2#8, 3#8] } : State).ib.length ≠ fresh.cfg.ibCap ∧
    ({ fresh with ib := [1#8, 2#8, 3#8, 4#8] } : State).ib.length = fresh.cfg.ibCap ∧
    (∃ t, fresh.bitcnt = 0#4 ∧ fresh.ibPtr.toNat = fresh.ib.length ∧ exec (.ibPush 0x80#8) fresh = .next t) :=
  ⟨by decide, by decide, _, by decide, by decide, rfl⟩

/-- The last element; the index just past it; any index of an empty buffer. -/
theorem witness_IbRdReadsOneByte : ([1#8, 2#8] : List (BitVec 8))[(1#24).toNat]? = some 2#8 ∧
    ([1#8, 2#8] : List (BitVec 8)).length ≤ (2#24).toNat ∧ fresh.ib.length ≤ (0#24).toNat := by decide

theorem witness_ObRdReadsOneByte :
    ({ fresh with ob := [1#8, 2#8] } : State).ob[(1#24).toNat]? = some 2#8 ∧
    ({ fresh with ob := [1#8, 2#8] } : State).ob.length ≤ (2#24).toNat ∧ stuck.fault ≠ 0#8 := by decide

theorem witness_CbPushAppendsOneCode :
    ({ fresh with cb := [1#32, 2#32, 3#32] } : State).cb.length ≠ fresh.cfg.cbCap ∧
    ({ fresh with cb := [1#32, 2#32, 3#32, 4#32] } : State).cb.length = fresh.cfg.cbCap := by decide

theorem witness_CbRdReadsOneCode :
    ({ fresh with cb := [1#32, 2#32] } : State).cb[(1#24).toNat]? = some 2#32 ∧
    ({ fresh with cb := [1#32, 2#32] } : State).cb.length ≤ (2#24).toNat := by decide

/-- A legal node word with every bit set that may be; the canonical form of an arena. -/
theorem witness_TreeWrWritesOneNode : (0x83FFFFFF#32).extractLsb' 26 5 = 0#5 ∧ Memory.wf withT3.tree := by
  refine ⟨by decide, by decide, by decide⟩

theorem witness_TreeRdReadsOneNode : treeRead withT3.tree (4#9).toNat = some 0x00040300#32 ∧
    treeRead withT3.tree (5#9).toNat = none := by decide

/-- The largest tree; no tree with any root; one node too many; a root equal to the count. -/
theorem witness_TreeCfgDeclaresTheTree :
    ((512#10).toNat ≤ 512 ∧ (511#9).toNat < (512#10).toNat) ∧ ((0#10).toNat = 0) ∧ (512 < (513#10).toNat) ∧
    ((5#10).toNat ≤ 512 ∧ 0 < (5#10).toNat ∧ (5#10).toNat ≤ (5#9).toNat) := by decide

/-- The value just past the two legal ones; six and seven pending bits; a sink with and without room. -/
theorem witness_BspWbitPacksOneBit : (2#32 ≠ 0#32 ∧ 2#32 ≠ 1#32) ∧
    (({ fresh with nacc := 6#3 } : State).nacc.toNat < 7) ∧
    (({ fresh with nacc := 7#3, ob := [1#8, 2#8, 3#8] } : State).nacc.toNat = 7 ∧
      ({ fresh with nacc := 7#3, ob := [1#8, 2#8, 3#8] } : State).ob.length ≠ fresh.cfg.obCap) ∧
    (({ fresh with nacc := 7#3, ob := [1#8, 2#8, 3#8, 4#8] } : State).ob.length = fresh.cfg.obCap) := by decide

theorem witness_BspFlushPadsTheLastByte : fresh.nacc = 0#3 ∧
    (({ fresh with nacc := 7#3, ob := [1#8, 2#8, 3#8] } : State).nacc ≠ 0#3 ∧
      ({ fresh with nacc := 7#3, ob := [1#8, 2#8, 3#8] } : State).ob.length ≠ fresh.cfg.obCap) ∧
    (({ fresh with nacc := 1#3, ob := [1#8, 2#8, 3#8, 4#8] } : State).nacc ≠ 0#3 ∧
      ({ fresh with nacc := 1#3, ob := [1#8, 2#8, 3#8, 4#8] } : State).ob.length = fresh.cfg.obCap) := by decide

/-- As many bits as the sink holds; eight bits without a flush. -/
theorem witness_PackerSessionLength :
    ((List.replicate 32 true).length + 7) / 8 ≤ fresh.cfg.obCap ∧
    (fresh.ob = [] ∧ fresh.acc = 0#8 ∧ fresh.nacc = 0#3) ∧
    (∃ t, (List.replicate 8 true).length / 8 ≤ fresh.cfg.obCap ∧ (List.replicate 8 true).length % 8 = 0 ∧
      runInstrs (bspWbits (List.replicate 8 true)) fresh = .next t) :=
  ⟨by decide, by decide, _, by decide, by decide, rfl⟩

/-- A source at its end; one before its last byte; the last and the first bit of a buffered byte. -/
theorem witness_BsuRbitReadsOneBit :
    (fresh.bitcnt = 0#4 ∧ fresh.ibPtr.toNat = fresh.ib.length) ∧
    (({ fresh with ib := [1#8, 2#8], ibPtr := 1#32 } : State).ib[(1#32).toNat]? = some 2#8) ∧
    ((1#4).toNat = 0 + 1 ∧ (0 : Nat) < 8) ∧ ((8#4).toNat = 7 + 1 ∧ (7 : Nat) < 8) := by decide

theorem witness_EndOfStreamIsNotLatched : fresh.fault = 0#8 ∧ fresh.ibPtr.toNat ≤ fresh.ib.length ∧
    fresh.bitcnt = 0#4 ∧ fresh.ibPtr.toNat = fresh.ib.length ∧ fresh.ib.length ≠ fresh.cfg.ibCap := by decide

theorem witness_UnpackingReturnsThePackedBits :
    ({ fresh with ib := [0x80#8] } : State).ib = packBits [true] ∧ ([0x80#8] : List (BitVec 8)).length ≤ 2 ^ 24 ∧
    fresh.ibPtr = 0#32 ∧ fresh.bitcnt = 0#4 ∧ fresh.fault = 0#8 := by decide

theorem witness_DecodeWithoutATreeFaults : fresh.fault = 0#8 ∧ fresh.treeN = 0#10 := by decide

/-- The largest count the sink holds and the one above it. -/
theorem witness_SingletonModeIgnoresTheBits :
    withT1.fault = 0#8 ∧ withT1.treeRoot.toNat < withT1.treeN.toNat ∧
    treeRead withT1.tree withT1.treeRoot.toNat = some 0x80000061#32 ∧ (0x80000061#32).getLsbD 31 = true ∧
    (4#32).toNat ≤ withT1.cfg.obCap ∧ withT1.cfg.obCap < (5#32).toNat := by decide

/-- An undeclared root; an unwritten root; the root of T3. -/
theorem witness_DecodeIsThePrefixAutomaton :
    (({ withT1 with treeRoot := 1#9 } : State).treeN ≠ 0#10 ∧
      nodeOf { withT1 with treeRoot := 1#9 } 1#9 = none) ∧
    nodeOf { withT1 with treeN := 2#10, treeRoot := 1#9 } 1#9 = none ∧
    (withT3.fault = 0#8 ∧ withT3.treeN ≠ 0#10 ∧ withT3.ib.length ≤ 2 ^ 24 ∧
      nodeOf withT3 withT3.treeRoot = some 0x00040300#32 ∧ (0x00040300#32).getLsbD 31 = false) := by decide

theorem withT3_holds : HoldsAt withT3.tree withT3.treeN.toNat treeT3 withT3.treeRoot := by
  refine ⟨by decide, 0x00040300#32, by decide, by decide, ?_, ?_⟩
  · exact ⟨by decide, 0x80000063#32, by decide, by decide, by decide⟩
  · refine ⟨by decide, 0x00000100#32, by decide, by decide, ?_, ?_⟩
    · exact ⟨by decide, 0x80000061#32, by decide, by decide, by decide⟩
    · exact ⟨by decide, 0x80000062#32, by decide, by decide, by decide⟩

/-- "aabbbcccc" with the tree and the bytes of vector H1. -/
theorem witness_HuffmanRoundTrip :
    withT3.fault = 0#8 ∧ HoldsAt withT3.tree withT3.treeN.toNat treeT3 withT3.treeRoot ∧
    (∃ bits, encodeBits (buildCodes treeT3) [97#8, 97#8, 98#8, 98#8, 98#8, 99#8, 99#8, 99#8, 99#8] = some bits ∧
      withT3.ib = packBits bits) ∧
    withT3.ib.length ≤ withT3.cfg.ibCap ∧ 9 ≤ withT3.cfg.obCap ∧ withT3.cfg.Ok :=
  ⟨rfl, withT3_holds, ⟨_, rfl, by decide⟩, by decide, by decide, by decide⟩

/-- Two images of one leaf: one at entry 0, one at entry 7 with its unused fields set. -/
theorem witness_DecodeDependsOnTheShapeOnly :
    ({ withT1 with tree := [(7, 0x83FFFF61#32)], treeN := 8#10, treeRoot := 7#9 } : State) =
      { withT1 with tree := [(7, 0x83FFFF61#32)], treeN := 8#10, treeRoot := 7#9, htdCur := withT1.htdCur } ∧
    withT1.fault = 0#8 ∧ HoldsAt withT1.tree withT1.treeN.toNat (.leaf 0x61#8 1) withT1.treeRoot ∧
    HoldsAt [(7, 0x83FFFF61#32)] (8#10).toNat (.leaf 0x61#8 1) 7#9 :=
  ⟨rfl, rfl, ⟨by decide, _, rfl, by decide, by decide⟩, ⟨by decide, _, rfl, by decide, by decide⟩⟩

/-- A text of two symbols, its two leaves merged in the order that swaps them. -/
theorem witness_AdmissibleTreesEncodeTheirText :
    Admissible [98#8, 97#8, 98#8] (.node (.leaf 98#8 2) (.leaf 97#8 1)) := by
  have hl : leaves (frequency [98#8, 97#8, 98#8]) = [.leaf 97#8 1, .leaf 98#8 2] := by decide +kernel
  unfold Admissible
  rw [hl]
  exact .merge _ [] (.leaf 97#8 1) (.leaf 98#8 2) _ _ (List.Perm.refl _) (by decide) (by decide) (.inr rfl) (.done _)

/-- Both bounds of `M` and both values just outside them. -/
theorem witness_MaxDictSizeIsChecked : fresh.fault = 0#8 ∧ (255#32).toNat < 256 ∧ fresh.cfg.dictCap < (301#32).toNat ∧
    256 ≤ (256#32).toNat ∧ (300#32).toNat ≤ fresh.cfg.dictCap ∧ (256#32).toNat ≤ fresh.cfg.dictCap ∧
    256 ≤ (300#32).toNat := by decide

/-- A text that fills the room for codes, with the largest and the smallest `M`. -/
theorem witness_LzeEncodeCompletes :
    ({ fresh with ib := [1#8, 2#8, 3#8, 4#8] } : State).ib.length ≤ fresh.cfg.cbCap ∧ fresh.fault = 0#8 ∧
    256 ≤ (300#32).toNat ∧ (300#32).toNat ≤ fresh.cfg.dictCap ∧ (256#32).toNat ≤ fresh.cfg.dictCap := by decide

theorem witness_LzeEncodeWithAFullDictionary : fresh.fault = 0#8 ∧ 256 ≤ fresh.cfg.dictCap ∧
    ({ fresh with ib := [1#8, 1#8, 1#8, 1#8] } : State).ib.length ≤ fresh.cfg.cbCap := by decide

/-- One text, two states that differ in everything the earlier sessions left. -/
theorem witness_LzeEncodeDependsOnTextAndMax :
    ∃ s' u', ({ fresh with ib := [97#8] } : State).ib = ({ stuck with fault := 0#8, ib := [97#8], eW := [5#8] } : State).ib ∧
      exec (.lzeEncode 300#32) { fresh with ib := [97#8] } = .next s' ∧
      exec (.lzeEncode 300#32) { stuck with fault := 0#8, ib := [97#8], eW := [5#8] } = .next u' ∧ fresh.cfg = stuck.cfg :=
  ⟨_, _, rfl, rfl, rfl, rfl⟩

theorem witness_LzdDecodeOfTheEmptyCodeList : fresh.fault = 0#8 ∧ 256 ≤ (300#32).toNat ∧
    (300#32).toNat ≤ fresh.cfg.dictCap ∧ fresh.cb = [] := by decide

/-- The first code that is no seed code, and the largest. -/
theorem witness_LzdFirstCodeMustBeASeed :
    ({ fresh with cb := [256#32] } : State).cb = 256#32 :: [] ∧ 256 ≤ (256#32).toNat ∧ 256 ≤ (0xFFFFFFFF#32).toNat ∧
    (300#32).toNat ≤ fresh.cfg.dictCap ∧ 256 ≤ (300#32).toNat ∧ fresh.fault = 0#8 := by decide

/-- A session's state with a two-entry dictionary: a known code, the next code, the code after it, no room. -/
theorem witness_LzdStepResolvesOneCode :
    (∃ s : State, s.dW = 7#8 :: [] ∧ s.dDict = [[5#8], [7#8]] ∧
      (s.dDict[(1#32).toNat]? = some (7#8 :: []) ∧ s.ob.length + (0 + 1) ≤ s.cfg.obCap) ∧
      ((2#32).toNat = s.dDict.length ∧ s.ob.length + (1 + 1) ≤ s.cfg.obCap) ∧ s.dDict.length < (3#32).toNat) ∧
    (∃ s : State, s.dDict = [[5#8], [7#8]] ∧ s.dDict[(1#32).toNat]? = some [7#8] ∧ s.ob.length ≤ s.cfg.obCap ∧
      s.cfg.obCap < s.ob.length + [7#8].length) :=
  ⟨⟨{ fresh with dW := [7#8], dDict := [[5#8], [7#8]] }, by decide⟩,
   ⟨{ fresh with dDict := [[5#8], [7#8]], ob := [1#8, 2#8, 3#8, 4#8] }, by decide⟩⟩

/-- D2v and its room to the byte; the code list of one code. -/
theorem witness_LzdSpecialBranchWhenFull :
    ({ fresh with cb := [97#32, 256#32], cfg := ⟨4, 3, 4, 256⟩ } : State).cb =
      (97#8).setWidth 32 :: List.replicate 1 256#32 ∧
    (1 + 1) * (1 + 2) / 2 ≤ ({ fresh with cfg := ⟨4, 3, 4, 256⟩ } : State).cfg.obCap ∧
    256 ≤ ({ fresh with cfg := ⟨4, 3, 4, 256⟩ } : State).cfg.dictCap ∧
    [97#32] = (97#8).setWidth 32 :: List.replicate 0 256#32 := by decide

theorem witness_LzdDecodeOfSeedCodes :
    ({ fresh with cb := [0#32, 255#32] } : State).cb = [0#8, 255#8].map (fun v => v.setWidth 32) ∧
    [0#8, 255#8].length ≤ fresh.cfg.obCap ∧ 256 ≤ (256#32).toNat ∧ (256#32).toNat ≤ fresh.cfg.dictCap ∧
    fresh.fault = 0#8 := by decide

/-- L9: an encode without fault that uses a code of its own. -/
theorem witness_LzwRoundTrip :
    ((next? (exec (.lzeEncode 300#32) { fresh with ib := [97#8, 97#8, 97#8] })).map (fun t => (t.fault, t.cb))) =
      some (0#8, [97#32, 256#32]) ∧
    fresh.fault = 0#8 ∧ ({ fresh with ib := [97#8, 97#8, 97#8] } : State).ib.length ≤ fresh.cfg.obCap := by
  decide +kernel

/-- Two codes fill the sink; three do not fit. -/
theorem witness_CpkPackSerialisesTheCodes :
    2 * ({ fresh with cb := [1#32, 65536#32] } : State).cb.length ≤ fresh.cfg.obCap ∧
    fresh.cfg.obCap < 2 * ({ fresh with cb := [1#32, 2#32, 3#32] } : State).cb.length := by decide

/-- An odd length; an even one that fits, and one that does not. -/
theorem witness_CupUnpackReadsTheFields :
    ({ fresh with ib := [1#8] } : State).ib.length % 2 = 1 ∧
    (({ fresh with ib := [1#8, 2#8] } : State).ib.length % 2 = 0 ∧
      ({ fresh with ib := [1#8, 2#8] } : State).ib.length / 2 ≤ fresh.cfg.cbCap) ∧
    (({ fresh with ib := [1#8, 2#8, 3#8, 4#8], cfg := ⟨4, 4, 1, 300⟩ } : State).ib.length % 2 = 0 ∧
      ({ fresh with cfg := ⟨4, 4, 1, 300⟩ } : State).cfg.cbCap <
        ({ fresh with ib := [1#8, 2#8, 3#8, 4#8], cfg := ⟨4, 4, 1, 300⟩ } : State).ib.length / 2) := by decide

/-- The largest code that survives, and a byte sequence of even length that fills its room. -/
theorem witness_PackThenUnpackRestoresTheCodes :
    (∀ k ∈ ({ fresh with cb := [65535#32, 0#32] } : State).cb, k.toNat < 65536) ∧
    2 * ({ fresh with cb := [65535#32, 0#32] } : State).cb.length ≤ fresh.cfg.obCap ∧
    ({ fresh with ib := [1#8, 2#8, 3#8, 4#8] } : State).ib.length % 2 = 0 ∧
    ({ fresh with ib := [1#8, 2#8, 3#8, 4#8] } : State).ib.length / 2 ≤ fresh.cfg.cbCap ∧
    ({ fresh with ib := [1#8, 2#8, 3#8, 4#8] } : State).ib.length ≤ fresh.cfg.obCap := by
  refine ⟨by simp, by decide, by decide, by decide, by decide⟩

end Sys2Proof.Tests
end

/-! Proofs: the state and its reset values (10_state.md) -/
section

namespace Sys2Proof.Machine

/-- An arena without written entries has no valid index (10_state.md R27, the row `TREE_V`). -/
@[simp] theorem treeRead_nil (i : Nat) : treeRead [] i = none := rfl

/-- After reset the core is READY: the fault latch is 0 (10_state.md R27, first row). -/
@[simp] theorem halted_reset : halted State.reset = false := (halted_eq_false_iff State.reset).2 rfl

end Sys2Proof.Machine

open Sys2Proof.Machine

/-- Settles O15, group by group as the obligation lists them: a stored field is read off `State.reset`; the arena's valid
entries and the mode are derived from the stored fields. -/
theorem resetValues : Obligations.ResetValues := by
  unfold Obligations.ResetValues
  exact ⟨⟨rfl, rfl, rfl⟩, ⟨rfl, rfl, rfl⟩, ⟨rfl, rfl, rfl⟩, ⟨rfl, rfl⟩, ⟨treeRead_nil, rfl, rfl⟩, ⟨rfl, rfl⟩,
    ⟨rfl, rfl, rfl⟩, ⟨rfl, rfl, rfl⟩, halted_reset⟩

end

/-! Proofs: the fields of a command word under a mask (30_encoding.md R60) -/
section

namespace Sys2Proof

@[simp] theorem opcOf_and (x y : BitVec 64) : opcOf (x &&& y) = opcOf x &&& opcOf y := BitVec.extractLsb'_and

@[simp] theorem aOf_and (x y : BitVec 64) : aOf (x &&& y) = aOf x &&& aOf y := BitVec.extractLsb'_and

@[simp] theorem bOf_and (x y : BitVec 64) : bOf (x &&& y) = bOf x &&& bOf y := BitVec.extractLsb'_and

theorem word_eq_iff (x y : BitVec 64) : x = y ↔ opcOf x = opcOf y ∧ aOf x = aOf y ∧ bOf x = bOf y := by
  constructor
  · rintro rfl
    exact ⟨rfl, rfl, rfl⟩
  · rintro ⟨hopc, ha, hb⟩
    rw [← cmdWord_fields x, hopc, ha, hb, cmdWord_fields]

/-- A mask of ones at the bits of one field tests that field. -/
theorem and_field_eq_zero_iff {w : Nat} (x : BitVec w) (start len : Nat) (fits : start + len ≤ w) :
    x &&& ((BitVec.allOnes len).setWidth w <<< start) = 0#w ↔ x.extractLsb' start len = 0#len := by
  constructor
  · intro h
    ext i hi
    have bit := congrArg (·.getLsbD (start + i)) h
    simpa [hi, show start + i < w by omega, show i < w by omega] using bit
  · intro h
    ext i hi
    have bit := congrArg (·.getLsbD (i - start)) h
    simp only [BitVec.getLsbD_extractLsb', BitVec.getLsbD_zero] at bit
    by_cases below : i < start
    · simp [below]
    · grind

end Sys2Proof
end

/-! Proofs: the decoder against the opcode map (30_encoding.md R61, R62, R66) -/
section

namespace Sys2Proof

/-- The opcode of a row of the opcode map (30_encoding.md R62). -/
def OpcodeRow.opcode (r : OpcodeRow) : BitVec 8 := opcOf r.pattern

theorem whenClear_eq_ok_iff (clear : Bool) (i j : Instr) : whenClear clear i = .ok j ↔ clear = true ∧ i = j := by
  cases clear <;> simp [whenClear]

/-- A legal word carries the opcode of its command. -/
theorem opcode_of_decode {w : BitVec 64} {i : Instr} (h : decode w = .ok i) : i.opcode = opcOf w := by
  unfold decode at h
  split at h
  case h_25 => cases h
  all_goals
    obtain ⟨-, rfl⟩ := (whenClear_eq_ok_iff _ _ _).1 h
    exact Eq.symm ‹opcOf w = _›

/-- Every command has a row. -/
theorem opcode_mem_opcodeMap (i : Instr) : i.opcode ∈ opcodeMap.map OpcodeRow.opcode := by
  cases i <;> simp [Instr.opcode, opcodeMap, OpcodeRow.opcode, opcOf]

/-- A row's mask tests the whole opcode, and its pattern is zero outside the opcode. -/
theorem row_shape : ∀ r ∈ opcodeMap, opcOf r.mask = BitVec.allOnes 8 ∧ aOf r.pattern = 0#24 ∧ bOf r.pattern = 0#32 := by
  decide

/-- A word matches a row when it has the row's opcode and zeros at the bits reserved for it. -/
theorem matches_row_iff {r : OpcodeRow} (hr : r ∈ opcodeMap) (w : BitVec 64) : w &&& r.mask = r.pattern ↔
    opcOf w = r.opcode ∧ aOf w &&& aOf r.mask = 0#24 ∧ bOf w &&& bOf r.mask = 0#32 := by
  obtain ⟨hmask, ha, hb⟩ := row_shape r hr
  rw [word_eq_iff, opcOf_and, aOf_and, bOf_and, hmask, ha, hb, BitVec.and_allOnes, OpcodeRow.opcode]

/-- The decoder of a row's opcode tests exactly the bits that the row's mask reserves (30_encoding.md R61): all or
none of a field, or the bits above the operand. -/
theorem decode_legal_iff_reserved_clear {r : OpcodeRow} (hr : r ∈ opcodeMap) {w : BitVec 64} (hopc : opcOf w = r.opcode) :
    (∃ i, decode w = .ok i) ↔ aOf w &&& aOf r.mask = 0#24 ∧ bOf w &&& bOf r.mask = 0#32 := by
  have wholeA (a : BitVec 24) : a &&& 0xFFFFFF#24 = a := BitVec.and_allOnes
  have wholeB (b : BitVec 32) : b &&& 0xFFFFFFFF#32 = b := BitVec.and_allOnes
  have aboveAddr (a : BitVec 24) : a &&& 0xFFFF00#24 = 0#24 ↔ a.extractLsb' 8 16 = 0#16 :=
    and_field_eq_zero_iff a 8 16 (by decide)
  have aboveNode (a : BitVec 24) : a &&& 0xFFFE00#24 = 0#24 ↔ a.extractLsb' 9 15 = 0#15 :=
    and_field_eq_zero_iff a 9 15 (by decide)
  have aboveByte (b : BitVec 32) : b &&& 0xFFFFFF00#32 = 0#32 ↔ b.extractLsb' 8 24 = 0#24 :=
    and_field_eq_zero_iff b 8 24 (by decide)
  have aboveCount (b : BitVec 32) : b &&& 0xFFFFFC00#32 = 0#32 ↔ b.extractLsb' 10 22 = 0#22 :=
    and_field_eq_zero_iff b 10 22 (by decide)
  have nodeBits (b : BitVec 32) : b &&& 0x7C000000#32 = 0#32 ↔ reservedNodeBits b = 0#5 :=
    and_field_eq_zero_iff b 26 5 (by decide)
  unfold decode
  rw [hopc]
  generalize aOf w = a, bOf w = b
  fin_cases hr
  all_goals simp [OpcodeRow.opcode, opcOf, aOf, bOf, whenClear_eq_ok_iff, wholeA, wholeB, aboveAddr, aboveNode, aboveByte,
    aboveCount, nodeBits]

/-- 30_encoding.md R66: the legal words are those that match a row. -/
theorem decode_legal_iff (w : BitVec 64) : (∃ i, decode w = .ok i) ↔ ∃ r ∈ opcodeMap, w &&& r.mask = r.pattern := by
  constructor
  · rintro ⟨i, hi⟩
    obtain ⟨r, hr, hopc⟩ := List.mem_map.1 (opcode_mem_opcodeMap i)
    have hw : opcOf w = r.opcode := by rw [hopc, opcode_of_decode hi]
    exact ⟨r, hr, (matches_row_iff hr w).2 ⟨hw, (decode_legal_iff_reserved_clear hr hw).1 ⟨i, hi⟩⟩⟩
  · rintro ⟨r, hr, hmatch⟩
    obtain ⟨hw, hclear⟩ := (matches_row_iff hr w).1 hmatch
    exact (decode_legal_iff_reserved_clear hr hw).2 hclear

theorem opcode_of_matches_row {r : OpcodeRow} (hr : r ∈ opcodeMap) {w : BitVec 64} (h : w &&& r.mask = r.pattern) :
    opcOf w = r.opcode := ((matches_row_iff hr w).1 h).1

/-- No word matches two rows, for no two rows have one opcode. -/
theorem rows_disjoint : opcodeMap.Pairwise
    (fun a b => ∀ w : BitVec 64, ¬ (w &&& a.mask = a.pattern ∧ w &&& b.mask = b.pattern)) := by
  have distinct : opcodeMap.Pairwise (fun a b => a.opcode ≠ b.opcode) := by decide
  refine distinct.imp_of_mem fun ha hb hne w hw => hne ?_
  rw [← opcode_of_matches_row ha hw.1, ← opcode_of_matches_row hb hw.2]

theorem opcOf_mem_of_decode {w : BitVec 64} {i : Instr} (h : decode w = .ok i) :
    opcOf w ∈ opcodeMap.map OpcodeRow.opcode := opcode_of_decode h ▸ opcode_mem_opcodeMap i

end Sys2Proof

namespace Sys2Proof.Machine

open Sys2Proof.Claims

/-- A taken fault in the statements' form. -/
theorem takeFault_eq_faulted (r : Raise) (opc : BitVec 8) (s : State) :
    takeFault r opc s = faulted (faultCode r.kind) r.info opc s := rfl

/-- In READY an illegal word raises `IllegalCommand` and does nothing else (60_exceptions.md R204). -/
theorem acceptCommand_illegal_ready {w : BitVec 64} {s : State} (illegal : ∀ i, decode w ≠ .ok i) (ready : s.fault = 0#8) :
    acceptCommand w s = .next (faulted 0x01#8 (bOf w) (opcOf w) s) := by
  have running := (halted_eq_false_iff s).2 ready
  cases hw : decode w with
  | ok i => exact absurd hw (illegal i)
  | error e => simp [acceptCommand, hw, runIllegal, running, takeFault_eq_faulted, faultCode]

end Sys2Proof.Machine

open Sys2Proof Sys2Proof.Machine

/-- Settles O3: the decoder agrees with the opcode map row by row, rows are told apart by their opcodes, and a word that
matches none is illegal. -/
theorem illegalWordsMatchNoRow : Obligations.IllegalWordsMatchNoRow := by
  unfold Obligations.IllegalWordsMatchNoRow
  refine ⟨decode_legal_iff, ?opcode, rows_disjoint, ?illegal, ?named, ?undefined⟩
  case opcode => exact fun w i r hr hmatch hi => (opcode_of_decode hi).trans (opcode_of_matches_row hr hmatch)
  case illegal =>
    intro w s ready hnone
    refine acceptCommand_illegal_ready (fun i hi => ?_) ready
    obtain ⟨r, hr, hmatch⟩ := (decode_legal_iff w).1 ⟨i, hi⟩
    exact hnone r hr hmatch
  case named => decide
  case undefined =>
    intro w hrange i hi
    have mem := opcOf_mem_of_decode hi
    revert hrange mem
    generalize opcOf w = o
    revert o
    decide

end

/-! Proofs: the words of an opcode with a reserved bit set, in READY and in HALTED (30_encoding.md R61, R66;
60_exceptions.md R202) -/
section

namespace Sys2Proof

/-- A word whose bits from `start` on are zero is below `2 ^ start`. -/
theorem toNat_lt_of_extractLsb'_eq_zero {w : Nat} (x : BitVec w) (start len : Nat) (whole : w ≤ start + len)
    (h : x.extractLsb' start len = 0#len) : x.toNat < 2 ^ start := by
  have fits : x.toNat < 2 ^ start * 2 ^ len :=
    Nat.pow_add 2 start len ▸ x.isLt.trans_le (Nat.pow_le_pow_right (by decide) whole)
  have high : x.toNat / 2 ^ start = 0 := by
    have mod := congrArg BitVec.toNat h
    rw [BitVec.extractLsb'_toNat, Nat.shiftRight_eq_div_pow, Nat.mod_eq_of_lt (Nat.div_lt_of_lt_mul fits)] at mod
    simpa using mod
  exact (Nat.div_eq_zero_iff.1 high).resolve_left (by simp)

/-- The legal words of an opcode all have fields of this form (30_encoding.md R61). -/
def LegalOnlyWith (opc : BitVec 8) (fields : BitVec 24 → BitVec 32 → Prop) : Prop :=
  ∀ (w : BitVec 64) (i : Instr), opcOf w = opc → decode w = .ok i → fields (aOf w) (bOf w)

/-- The opcode's row says which bits of the two fields are reserved. -/
theorem legalOnlyWith_of_row {opc : BitVec 8} {fields : BitVec 24 → BitVec 32 → Prop} (maskA : BitVec 24)
    (maskB : BitVec 32) (hrow : ⟨cmdWord (BitVec.allOnes 8) maskA maskB, cmdWord opc 0#24 0#32⟩ ∈ opcodeMap)
    (reserved : ∀ a b, a &&& maskA = 0#24 → b &&& maskB = 0#32 → fields a b) : LegalOnlyWith opc fields := by
  intro w i hopc hi
  obtain ⟨ha, hb⟩ := (decode_legal_iff_reserved_clear hrow (hopc.trans (opcOf_cmdWord _ _ _).symm)).1 ⟨i, hi⟩
  rw [aOf_cmdWord] at ha
  rw [bOf_cmdWord] at hb
  exact reserved _ _ ha hb

/-- A command without operands. -/
theorem legalOnlyWith_bare {opc : BitVec 8}
    (hrow : ⟨cmdWord (BitVec.allOnes 8) (BitVec.allOnes 24) (BitVec.allOnes 32), cmdWord opc 0#24 0#32⟩ ∈ opcodeMap) :
    LegalOnlyWith opc (fun a b => a = 0#24 ∧ b = 0#32) :=
  legalOnlyWith_of_row _ _ hrow fun a b ha hb => ⟨BitVec.and_allOnes (x := a) ▸ ha, BitVec.and_allOnes (x := b) ▸ hb⟩

/-- A command whose operand is the whole `A` field. -/
theorem legalOnlyWith_operandA {opc : BitVec 8}
    (hrow : ⟨cmdWord (BitVec.allOnes 8) 0#24 (BitVec.allOnes 32), cmdWord opc 0#24 0#32⟩ ∈ opcodeMap) :
    LegalOnlyWith opc (fun _ b => b = 0#32) :=
  legalOnlyWith_of_row _ _ hrow fun _ b _ hb => BitVec.and_allOnes (x := b) ▸ hb

/-- A command whose operand is the whole `B` field. -/
theorem legalOnlyWith_operandB {opc : BitVec 8}
    (hrow : ⟨cmdWord (BitVec.allOnes 8) (BitVec.allOnes 24) 0#32, cmdWord opc 0#24 0#32⟩ ∈ opcodeMap) :
    LegalOnlyWith opc (fun a _ => a = 0#24) :=
  legalOnlyWith_of_row _ _ hrow fun a _ ha _ => BitVec.and_allOnes (x := a) ▸ ha

/-- `CSRR`: the operand is the low byte of `A`. -/
theorem legalOnlyWith_csrr : LegalOnlyWith 0x03#8 (fun a b => a.extractLsb' 8 16 = 0#16 ∧ b = 0#32) :=
  legalOnlyWith_of_row 0xFFFF00#24 (BitVec.allOnes 32) (by decide) fun a b ha hb =>
    ⟨(and_field_eq_zero_iff a 8 16 (by decide)).1 ha, BitVec.and_allOnes (x := b) ▸ hb⟩

/-- `IB.PUSH`: the operand is the low byte of `B`. -/
theorem legalOnlyWith_ibPush : LegalOnlyWith 0x11#8 (fun a b => a = 0#24 ∧ b.toNat ≤ 255) :=
  legalOnlyWith_of_row (BitVec.allOnes 24) 0xFFFFFF00#32 (by decide) fun a b ha hb =>
    have high : b.extractLsb' 8 24 = 0#24 := (and_field_eq_zero_iff b 8 24 (by decide)).1 hb
    ⟨BitVec.and_allOnes (x := a) ▸ ha, Nat.le_of_lt_succ (toNat_lt_of_extractLsb'_eq_zero b 8 24 (by decide) high)⟩

end Sys2Proof

namespace Sys2Proof.Machine

open Sys2Proof.Claims

/-- In HALTED an illegal word is refused (60_exceptions.md R202). -/
theorem acceptCommand_illegal_halted {w : BitVec 64} {s : State} (illegal : ∀ i, decode w ≠ .ok i)
    (stopped : s.fault ≠ 0#8) : acceptCommand w s = .next (refused s) := by
  have hhalted := (halted_eq_true_iff s).2 stopped
  cases hw : decode w with
  | ok i => exact absurd hw (illegal i)
  | error e => simp only [acceptCommand, hw, runIllegal, hhalted, if_true]; rfl

/-- In READY a word with other fields raises `IllegalCommand`. -/
theorem illegalUnless_of_legalOnlyWith {opc : BitVec 8} {fields : BitVec 24 → BitVec 32 → Prop}
    (legal : LegalOnlyWith opc fields) : IllegalUnless opc fields := by
  intro w s ready hopc malformed
  rw [acceptCommand_illegal_ready (fun i hi => malformed (legal w i hopc hi)) ready, hopc]

/-- In HALTED a word with other fields is refused, a malformed `RST` or `CSRR` included. -/
theorem malformed_refused {opc : BitVec 8} {fields : BitVec 24 → BitVec 32 → Prop} (legal : LegalOnlyWith opc fields)
    (w : BitVec 64) (s : State) (stopped : s.fault ≠ 0#8) (hopc : opcOf w = opc) (malformed : ¬ fields (aOf w) (bOf w)) :
    acceptCommand w s = .next (refused s) :=
  acceptCommand_illegal_halted (fun i hi => malformed (legal w i hopc hi)) stopped

end Sys2Proof.Machine
end

/-! Proofs: what the common path and the guarded operations answer, in the statements' form (60_exceptions.md R200,
20_memory.md R41, R43) -/
section

namespace Sys2Proof.Machine

open Sys2Proof.Claims

/-- In READY a rule that completes with `OK` answers its value on its working copy. -/
theorem runRule_answered {opc : BitVec 8} {rule : State → Except Raise Reply} {s t : State} {val : BitVec 32}
    (ready : s.fault = 0#8) (h : rule s = okReply val t) : runRule opc rule s = .next (answered val t) :=
  runRule_ok ready h

/-- In READY a rule that raises leaves the state faulted. -/
theorem runRule_faulted {opc : BitVec 8} {rule : State → Except Raise Reply} {s : State} {info : BitVec 32}
    (k : FaultKind) (ready : s.fault = 0#8) (h : rule s = .error ⟨k, info⟩) :
    runRule opc rule s = .next (faulted (faultCode k) info opc s) := runRule_raise ready h

/-- In HALTED a rule is refused. -/
theorem runRule_refused {opc : BitVec 8} {rule : State → Except Raise Reply} {s : State} (stopped : s.fault ≠ 0#8) :
    runRule opc rule s = .next (refused s) := runRule_halted stopped

theorem readElement_inside {w : Nat} {elements : List (BitVec w)} {idx : BitVec 24} {v : BitVec w}
    (h : elements[idx.toNat]? = some v) : readElement elements idx = .ok v := by
  simp [readElement, h]

theorem readElement_beyond {w : Nat} {elements : List (BitVec w)} {idx : BitVec 24} (h : elements.length ≤ idx.toNat) :
    readElement elements idx = .error ⟨.badIndex, idx.setWidth 32⟩ := by
  simp [readElement, List.getElem?_eq_none h]

theorem appendIb_room {s : State} (v : BitVec 8) (h : s.ib.length ≠ s.cfg.ibCap) :
    appendIb v s = .ok { s with ib := s.ib ++ [v] } := ((appendIb_cases v s).resolve_left fun full => h full.1).2

theorem appendIb_full {s : State} (v : BitVec 8) (h : s.ib.length = s.cfg.ibCap) :
    appendIb v s = .error ⟨.overflow, 0#32⟩ := ((appendIb_cases v s).resolve_right fun room => room.1 h).2

theorem appendCb_room {s : State} (k : BitVec 32) (h : s.cb.length ≠ s.cfg.cbCap) :
    appendCb k s = .ok { s with cb := s.cb ++ [k] } := ((appendCb_cases k s).resolve_left fun full => h full.1).2

theorem appendCb_full {s : State} (k : BitVec 32) (h : s.cb.length = s.cfg.cbCap) :
    appendCb k s = .error ⟨.overflow, 2#32⟩ := ((appendCb_cases k s).resolve_right fun room => room.1 h).2

@[simp] theorem ibLen_push (s : State) (v : BitVec 8) :
    ibLen { s with ib := s.ib ++ [v] } = BitVec.ofNat 32 (s.ib.length + 1) := by simp [ibLen]

@[simp] theorem cbLen_push (s : State) (k : BitVec 32) :
    cbLen { s with cb := s.cb ++ [k] } = BitVec.ofNat 32 (s.cb.length + 1) := by simp [cbLen]

/-- With no bit left in the buffer the next bit is bit 7 of the byte at `IB_PTR` (41_bitstream.md R107). -/
theorem readBit_refill {s : State} {byte : BitVec 8} (empty : s.bitcnt = 0#4) (h : s.ib[s.ibPtr.toNat]? = some byte) :
    readBit s = some (byte.getLsbD 7, { s with bitbuf := byte, ibPtr := s.ibPtr + 1#32, bitcnt := 7#4 }) := by
  simp [readBit, empty, h, bitAt]

/-- `BSU.RBIT` answers the bit that `readbit()` delivers (41_bitstream.md R108). -/
theorem exec_bsuRbit_of_readBit {s t : State} {b : Bool} (ready : s.fault = 0#8) (h : readBit s = some (b, t)) :
    exec .bsuRbit s = .next (answered (bitValue b) t) := by
  simp only [exec, execBsuRbit]
  exact runRule_answered ready (by simp [h])

/-- The `CSRR` decoder of addresses is the table of 10_state.md R23. -/
theorem registerAt_eq_some_iff (addr : BitVec 8) (s : State) (v : BitVec 32) :
    registerAt addr s = some v ↔ (addr, v) ∈ registers s := by
  constructor
  · intro h
    unfold registerAt at h
    split at h
    case h_20 => cases h
    all_goals
      cases h
      simp [registers, ibLen, obLen, cbLen, eSize, dSize]
  · intro h
    simp only [registers, List.cons_append, List.nil_append, List.mem_cons, List.not_mem_nil, or_false, Prod.mk.injEq] at h
    rcases h with h | h | h | h | h | h | h | h | h | h | h | h | h | h | h | h | h | h | h
    all_goals
      obtain ⟨rfl, rfl⟩ := h
      rfl

theorem registerAt_eq_none {addr : BitVec 8} {s : State} (undefined : ∀ p ∈ registers s, p.1 ≠ addr) :
    registerAt addr s = none :=
  Option.eq_none_iff_forall_ne_some.2 fun v hv => undefined _ ((registerAt_eq_some_iff addr s v).1 hv) rfl

/-- A defined address is read in both modes. -/
theorem exec_csrr_defined {addr : BitVec 8} {s : State} {v : BitVec 32} (h : registerAt addr s = some v) :
    exec (.csrr addr) s = .next (answered v s) := by
  simp only [exec, execCsrr, h]
  rfl

/-- An undefined address takes the common path. -/
theorem exec_csrr_undefined {addr : BitVec 8} {s : State} (h : registerAt addr s = none) :
    exec (.csrr addr) s = runRule 0x03#8 (fun _ => .error ⟨.badIndex, addr.setWidth 32⟩) s := by
  simp only [exec, execCsrr, h]

end Sys2Proof.Machine
end

/-! Proofs: the system commands (40_system_and_buffers.md section 1) -/
section

open Sys2Proof Sys2Proof.Machine

/-- Settles O20: the rule of `NOP` completes at once, on the common path. -/
theorem nopDoesNothing : Obligations.NopDoesNothing := by
  unfold Obligations.NopDoesNothing
  simp only [exec, execNop]
  refine ⟨by decide, ?ready, ?halted, illegalUnless_of_legalOnlyWith (legalOnlyWith_bare (by decide))⟩
  case ready => exact fun s ready => runRule_answered ready rfl
  case halted => exact fun s stopped => runRule_refused stopped

/-- Settles O21: `RST` asks nothing of the state, and only a malformed word depends on the mode. -/
theorem rstResetsTheBlock : Obligations.RstResetsTheBlock := by
  unfold Obligations.RstResetsTheBlock
  have bare := legalOnlyWith_bare (opc := 0x02#8) (by decide)
  exact ⟨by decide, fun s => rfl, illegalUnless_of_legalOnlyWith bare, malformed_refused bare⟩

/-- Settles O22: the address decoder is the table of registers, in both directions. -/
theorem csrrReadsOneRegister : Obligations.CsrrReadsOneRegister := by
  unfold Obligations.CsrrReadsOneRegister
  refine ⟨fun a => rfl, ?defined, ?undefined, illegalUnless_of_legalOnlyWith legalOnlyWith_csrr,
    malformed_refused legalOnlyWith_csrr⟩
  case defined => exact fun s p hp => exec_csrr_defined ((registerAt_eq_some_iff p.1 s p.2).2 hp)
  case undefined =>
    intro s a undefined
    rw [exec_csrr_undefined (registerAt_eq_none undefined)]
    exact ⟨fun ready => runRule_faulted .badIndex ready rfl, runRule_refused⟩

end

/-! Proofs: the commands of the input, output and code buffers (40_system_and_buffers.md sections 2 to 4) -/
section

namespace Sys2Proof.Machine

open Sys2Proof.Claims

/-- `IB.PUSH` with room (40_system_and_buffers.md R84). -/
theorem exec_ibPush_room {s : State} (v : BitVec 8) (ready : s.fault = 0#8) (room : s.ib.length ≠ s.cfg.ibCap) :
    exec (.ibPush v) s = .next (answered (BitVec.ofNat 32 (s.ib.length + 1)) { s with ib := s.ib ++ [v] }) := by
  simp only [exec, execIbPush]
  exact runRule_answered ready (by simp [appendIb_room v room])

/-- `IB.PUSH` at `IB_CAP` (40_system_and_buffers.md R84). -/
theorem exec_ibPush_full {s : State} (v : BitVec 8) (ready : s.fault = 0#8) (full : s.ib.length = s.cfg.ibCap) :
    exec (.ibPush v) s = .next (faulted 0x09#8 0#32 0x11#8 s) := by
  simp only [exec, execIbPush]
  exact runRule_faulted .overflow ready (by simp [appendIb_full v full])

end Sys2Proof.Machine

open Sys2Proof Sys2Proof.Machine

/-- Settles O23: emptying `IB` and opening the source is the whole rule, and nothing in it raises. -/
theorem ibClrEmptiesAndRewinds : Obligations.IbClrEmptiesAndRewinds := by
  unfold Obligations.IbClrEmptiesAndRewinds
  simp only [exec, execIbClr]
  exact ⟨by decide, fun s ready => runRule_answered ready rfl,
    illegalUnless_of_legalOnlyWith (legalOnlyWith_bare (by decide))⟩

/-- Settles O24. In its corner case the pushed byte stands at `IB_PTR`, so the next read refills the bit buffer from it. -/
theorem ibPushAppendsOneByte : Obligations.IbPushAppendsOneByte := by
  unfold Obligations.IbPushAppendsOneByte
  refine ⟨fun v => rfl, fun s v => exec_ibPush_room v, fun s v => exec_ibPush_full v,
    illegalUnless_of_legalOnlyWith legalOnlyWith_ibPush, ?corner⟩
  intro s t v ready room empty atEnd hpush
  obtain rfl := Host.Outcome.next.inj ((exec_ibPush_room v ready room).symm.trans hpush)
  have pushed : (s.ib ++ [v])[s.ibPtr.toNat]? = some v := by simp [atEnd]
  exact exec_bsuRbit_of_readBit ready (readBit_refill empty pushed)

/-- Settles O25, below `IB_LEN` and from `IB_LEN` on. -/
theorem ibRdReadsOneByte : Obligations.IbRdReadsOneByte := by
  unfold Obligations.IbRdReadsOneByte
  simp only [exec, execIbRd]
  refine ⟨fun a => rfl, ?inside, ?beyond, illegalUnless_of_legalOnlyWith (legalOnlyWith_operandA (by decide))⟩
  case inside => exact fun s a v ready hv => runRule_answered ready (by simp [readElement_inside hv])
  case beyond => exact fun s a ready ha => runRule_faulted .badIndex ready (by simp [readElement_beyond ha])

/-- Settles O26, below `OB_LEN`, from `OB_LEN` on and in HALTED. -/
theorem obRdReadsOneByte : Obligations.ObRdReadsOneByte := by
  unfold Obligations.ObRdReadsOneByte
  simp only [exec, execObRd]
  refine ⟨fun a => rfl, ?inside, ?beyond, ?halted, illegalUnless_of_legalOnlyWith (legalOnlyWith_operandA (by decide))⟩
  case inside => exact fun s a v ready hv => runRule_answered ready (by simp [readElement_inside hv])
  case beyond => exact fun s a ready ha => runRule_faulted .badIndex ready (by simp [readElement_beyond ha])
  case halted => exact fun s a stopped => runRule_refused stopped

/-- Settles O27: emptying `CB` is the whole rule, and nothing in it raises. -/
theorem cbClrEmptiesTheCodes : Obligations.CbClrEmptiesTheCodes := by
  unfold Obligations.CbClrEmptiesTheCodes
  simp only [exec, execCbClr]
  exact ⟨by decide, fun s ready => runRule_answered ready rfl,
    illegalUnless_of_legalOnlyWith (legalOnlyWith_bare (by decide))⟩

/-- Settles O28, below and at `CB_CAP`. -/
theorem cbPushAppendsOneCode : Obligations.CbPushAppendsOneCode := by
  unfold Obligations.CbPushAppendsOneCode
  simp only [exec, execCbPush]
  refine ⟨fun k => rfl, ?room, ?full, illegalUnless_of_legalOnlyWith (legalOnlyWith_operandB (by decide))⟩
  case room => exact fun s k ready room => runRule_answered ready (by simp [appendCb_room k room])
  case full => exact fun s k ready full => runRule_faulted .overflow ready (by simp [appendCb_full k full])

/-- Settles O29, below `CB_LEN` and from `CB_LEN` on. -/
theorem cbRdReadsOneCode : Obligations.CbRdReadsOneCode := by
  unfold Obligations.CbRdReadsOneCode
  simp only [exec, execCbRd]
  refine ⟨fun a => rfl, ?inside, ?beyond, illegalUnless_of_legalOnlyWith (legalOnlyWith_operandA (by decide))⟩
  case inside => exact fun s a k ready hk => runRule_answered ready (by simp [readElement_inside hk])
  case beyond => exact fun s a ready ha => runRule_faulted .badIndex ready (by simp [readElement_beyond ha])

end

/-! Proofs: the commands of the packer and of the unpacker, one lemma per case (41_bitstream.md) -/
section

namespace Sys2Proof.Machine

open Sys2Proof.Claims

theorem appendOb_room {s : State} (v : BitVec 8) (h : s.ob.length ≠ s.cfg.obCap) :
    appendOb v s = .ok { s with ob := s.ob ++ [v] } := ((appendOb_cases v s).resolve_left fun full => h full.1).2

theorem appendOb_full {s : State} (v : BitVec 8) (h : s.ob.length = s.cfg.obCap) :
    appendOb v s = .error ⟨.overflow, 1#32⟩ := ((appendOb_cases v s).resolve_right fun room => room.1 h).2

@[simp] theorem obLen_push (s : State) (v : BitVec 8) :
    obLen { s with ob := s.ob ++ [v] } = BitVec.ofNat 32 (s.ob.length + 1) := by simp [obLen]

/-- The values that `BSP.WBIT` accepts (41_bitstream.md R101). -/
def IsBit (v : BitVec 32) : Prop := v = 0#32 ∨ v = 1#32

theorem IsBit.passes_check {v : BitVec 32} (bit : IsBit v) : ¬ (v ≠ 0#32 ∧ v ≠ 1#32) :=
  fun ⟨h0, h1⟩ => bit.elim h0 h1

/-- Shifting a bit in doubles the accumulator and adds the bit, modulo 256: the low end is free for it. -/
theorem shiftIn_eq_ofNat (acc : BitVec 8) {v : BitVec 32} (bit : IsBit v) :
    shiftIn acc v = BitVec.ofNat 8 (2 * acc.toNat + v.toNat) := by
  have doubled : BitVec.ofNat 8 (2 * acc.toNat) = acc <<< 1 := by
    apply BitVec.eq_of_toNat_eq
    simp [Nat.shiftLeft_eq, Nat.mul_comm]
  have lowFree : acc <<< 1 &&& 1#8 = 0#8 := by
    ext i hi
    cases i <;> simp
  rw [BitVec.ofNat_add, doubled]
  rcases bit with rfl | rfl
  · simp [shiftIn]
  · exact (BitVec.add_eq_or_of_and_eq_zero _ _ lowFree).symm

/-- Padding multiplies by a power of two, modulo 256. -/
theorem padded_eq_ofNat (acc : BitVec 8) (n : BitVec 3) :
    padded acc n = BitVec.ofNat 8 (acc.toNat * 2 ^ (8 - n.toNat)) := by
  apply BitVec.eq_of_toNat_eq
  simp [padded, Nat.shiftLeft_eq]

/-- `BSP.WBIT` with a value that is no bit (41_bitstream.md R101). -/
theorem exec_bspWbit_invalid {s : State} {v : BitVec 32} (ready : s.fault = 0#8) (h0 : v ≠ 0#32) (h1 : v ≠ 1#32) :
    exec (.bspWbit v) s = .next (faulted 0x02#8 v 0x31#8 s) := by
  simp only [exec, execBspWbit]
  exact runRule_faulted .invalidBitValue ready (if_pos ⟨h0, h1⟩)

/-- `BSP.WBIT` below seven pending bits (41_bitstream.md R101). -/
theorem exec_bspWbit_pending {s : State} {v : BitVec 32} (ready : s.fault = 0#8) (bit : IsBit v)
    (pending : s.nacc.toNat < 7) :
    exec (.bspWbit v) s = .next (answered (BitVec.ofNat 32 s.ob.length)
      { s with acc := BitVec.ofNat 8 (2 * s.acc.toNat + v.toNat), nacc := BitVec.ofNat 3 (s.nacc.toNat + 1) }) := by
  have notEighth : ¬ s.nacc.toNat + 1 = 8 := by omega
  have counted : BitVec.ofNat 3 (s.nacc.toNat + 1) = s.nacc + 1#3 := by simp [BitVec.ofNat_add]
  simp only [exec, execBspWbit]
  refine runRule_answered ready ?_
  rw [if_neg bit.passes_check, if_neg notEighth, shiftIn_eq_ofNat _ bit, counted]
  rfl

/-- `BSP.WBIT` of the eighth bit with room in `OB` (41_bitstream.md R101). -/
theorem exec_bspWbit_eighth_room {s : State} {v : BitVec 32} (ready : s.fault = 0#8) (bit : IsBit v)
    (eighth : s.nacc.toNat = 7) (room : s.ob.length ≠ s.cfg.obCap) :
    exec (.bspWbit v) s = .next (answered (BitVec.ofNat 32 (s.ob.length + 1))
      { s with ob := s.ob ++ [BitVec.ofNat 8 (2 * s.acc.toNat + v.toNat)], acc := 0#8, nacc := 0#3 }) := by
  simp only [exec, execBspWbit]
  refine runRule_answered ready ?_
  rw [if_neg bit.passes_check, if_pos (congrArg (· + 1) eighth), shiftIn_eq_ofNat _ bit, appendOb_room _ room]
  simp only [obLen_push]

/-- `BSP.WBIT` of the eighth bit at `OB_CAP` (41_bitstream.md R101). -/
theorem exec_bspWbit_eighth_full {s : State} {v : BitVec 32} (ready : s.fault = 0#8) (bit : IsBit v)
    (eighth : s.nacc.toNat = 7) (full : s.ob.length = s.cfg.obCap) :
    exec (.bspWbit v) s = .next (faulted 0x09#8 1#32 0x31#8 s) := by
  simp only [exec, execBspWbit]
  refine runRule_faulted .overflow ready ?_
  rw [if_neg bit.passes_check, if_pos (congrArg (· + 1) eighth), appendOb_full _ full]

/-- `BSP.FLUSH` with no bit pending (41_bitstream.md R104). -/
theorem exec_bspFlush_none {s : State} (ready : s.fault = 0#8) (nonePending : s.nacc = 0#3) :
    exec .bspFlush s = .next (answered (BitVec.ofNat 32 s.ob.length) s) := by
  simp only [exec, execBspFlush]
  exact runRule_answered ready (if_neg (by simp [nonePending]))

/-- `BSP.FLUSH` of pending bits with room in `OB` (41_bitstream.md R104). -/
theorem exec_bspFlush_room {s : State} (ready : s.fault = 0#8) (pending : s.nacc ≠ 0#3)
    (room : s.ob.length ≠ s.cfg.obCap) :
    exec .bspFlush s = .next (answered (BitVec.ofNat 32 (s.ob.length + 1))
      { s with ob := s.ob ++ [BitVec.ofNat 8 (s.acc.toNat * 2 ^ (8 - s.nacc.toNat))], acc := 0#8, nacc := 0#3 }) := by
  simp only [exec, execBspFlush]
  refine runRule_answered ready ?_
  rw [if_pos (BitVec.toNat_pos_of_ne_zero pending), padded_eq_ofNat, appendOb_room _ room]
  simp only [obLen_push]

/-- `BSP.FLUSH` of pending bits at `OB_CAP` (41_bitstream.md R104). -/
theorem exec_bspFlush_full {s : State} (ready : s.fault = 0#8) (pending : s.nacc ≠ 0#3)
    (full : s.ob.length = s.cfg.obCap) : exec .bspFlush s = .next (faulted 0x09#8 1#32 0x32#8 s) := by
  simp only [exec, execBspFlush]
  refine runRule_faulted .overflow ready ?_
  rw [if_pos (BitVec.toNat_pos_of_ne_zero pending), appendOb_full _ full]

/-- A buffered bit is delivered without a refill (41_bitstream.md R107). -/
theorem readBit_buffered {s : State} {n : Nat} (h : s.bitcnt.toNat = n + 1) :
    readBit s = some (s.bitbuf.getLsbD n, { s with bitcnt := BitVec.ofNat 4 n }) := by
  have buffered : s.bitcnt ≠ 0#4 := by
    intro empty
    simp [empty] at h
  have left : s.bitcnt - 1#4 = BitVec.ofNat 4 n := by bv_omega
  simp [readBit, buffered, bitAt, h, left]

/-- `readbit()` is `EOS` when the bit buffer is empty and no byte is left (41_bitstream.md R109). -/
theorem readBit_eq_none_iff (s : State) : readBit s = none ↔ s.bitcnt = 0#4 ∧ s.ib.length ≤ s.ibPtr.toNat := by
  rcases readBit_cases s with ⟨empty, atEnd, h⟩ | ⟨_, byte, hbyte, h⟩ | ⟨buffered, h⟩
  · simp [h, empty, atEnd]
  · have inside := (List.getElem?_eq_some_iff.1 hbyte).1
    simp [h, inside]
  · simp [h, buffered]

/-- `s` with the response `(EOS, 0)` given (41_bitstream.md R108). -/
def endedStream (s : State) : State := { s with rsps := s.rsps ++ [rsp 0x01#8 0#32] }

/-- `BSU.RBIT` at the end of the stream answers `EOS` and moves nothing (41_bitstream.md R108). -/
theorem exec_bsuRbit_eos {s : State} (ready : s.fault = 0#8) (h : readBit s = none) :
    exec .bsuRbit s = .next (endedStream s) := by
  simp only [exec, execBsuRbit]
  exact runRule_ok (r := ⟨s, .eos, 0#32⟩) ready (by simp [h])

theorem status_of_rsp (st : BitVec 8) (val : BitVec 32) : (rsp st val).extractLsb' 32 8 = st :=
  BitVec.extractLsb'_append_eq_left

/-- A delivered bit is no `EOS` response: the source writes no response, and the statuses differ. -/
theorem answered_rsps_ne_eos {s t : State} {b : Bool} (h : readBit s = some (b, t)) (val : BitVec 32) :
    (answered val t).rsps ≠ s.rsps ++ [rsp 0x01#8 0#32] := by
  have kept : t.rsps = s.rsps := by rw [readBit_frame h]
  intro same
  have sameRsp : rsp 0x00#8 val = rsp 0x01#8 0#32 := by simpa [answered, kept] using same
  have sameStatus := congrArg (·.extractLsb' 32 8) sameRsp
  simp only [status_of_rsp] at sameStatus
  exact absurd sameStatus (by decide)

/-- `BSU.RBIT` reports `EOS` exactly when `readbit()` does. -/
theorem exec_bsuRbit_reports_eos_iff {s : State} (ready : s.fault = 0#8) :
    (∃ t, exec .bsuRbit s = .next t ∧ t.rsps = s.rsps ++ [rsp 0x01#8 0#32]) ↔ readBit s = none := by
  constructor
  · rintro ⟨t, hexec, heos⟩
    cases h : readBit s with
    | none => rfl
    | some p =>
      obtain rfl := Host.Outcome.next.inj ((exec_bsuRbit_of_readBit ready h).symm.trans hexec)
      exact absurd heos (answered_rsps_ne_eos h _)
  · exact fun h => ⟨_, exec_bsuRbit_eos ready h, rfl⟩

end Sys2Proof.Machine

open Sys2Proof Sys2Proof.Machine Sys2Proof.Claims

/-- Settles O34: opening the sink is the whole rule, and nothing in it raises. -/
theorem bspOpenStartsAnEmptySink : Obligations.BspOpenStartsAnEmptySink := by
  unfold Obligations.BspOpenStartsAnEmptySink
  simp only [exec, execBspOpen]
  exact ⟨by decide, fun s ready => runRule_answered ready rfl,
    illegalUnless_of_legalOnlyWith (legalOnlyWith_bare (by decide))⟩

/-- Settles O35: the value check, then the pending bits below the eighth and at it. -/
theorem bspWbitPacksOneBit : Obligations.BspWbitPacksOneBit := by
  unfold Obligations.BspWbitPacksOneBit
  exact ⟨fun v => rfl, fun s v => exec_bspWbit_invalid, fun s v => exec_bspWbit_pending,
    fun s v => exec_bspWbit_eighth_room, fun s v => exec_bspWbit_eighth_full,
    illegalUnless_of_legalOnlyWith (legalOnlyWith_operandB (by decide))⟩

/-- Settles O36, with no bit pending and with some, below and at `OB_CAP`. -/
theorem bspFlushPadsTheLastByte : Obligations.BspFlushPadsTheLastByte := by
  unfold Obligations.BspFlushPadsTheLastByte
  exact ⟨by decide, fun s => exec_bspFlush_none, fun s => exec_bspFlush_room, fun s => exec_bspFlush_full,
    illegalUnless_of_legalOnlyWith (legalOnlyWith_bare (by decide))⟩

/-- Settles O38: opening the source is the whole rule, and nothing in it raises. -/
theorem bsuOpenRewindsTheSource : Obligations.BsuOpenRewindsTheSource := by
  unfold Obligations.BsuOpenRewindsTheSource
  simp only [exec, execBsuOpen]
  exact ⟨by decide, fun s ready => runRule_answered ready rfl,
    illegalUnless_of_legalOnlyWith (legalOnlyWith_bare (by decide))⟩

/-- Settles O39, case by case of `readbit()`. -/
theorem bsuRbitReadsOneBit : Obligations.BsuRbitReadsOneBit := by
  unfold Obligations.BsuRbitReadsOneBit
  refine ⟨by decide, ?atEnd, ?refill, ?buffered, illegalUnless_of_legalOnlyWith (legalOnlyWith_bare (by decide))⟩
  case atEnd =>
    exact fun s ready empty atEnd => exec_bsuRbit_eos ready ((readBit_eq_none_iff s).2 ⟨empty, atEnd.ge⟩)
  case refill => exact fun s v ready empty hv => exec_bsuRbit_of_readBit ready (readBit_refill empty hv)
  case buffered => exact fun s n ready hn _ => exec_bsuRbit_of_readBit ready (readBit_buffered hn)

/-- Settles O40: `EOS` is what `readbit()` finds at the moment of the read. Reporting it moves no register, so it repeats,
and a byte pushed after it stands at `IB_PTR` for the next read. -/
theorem endOfStreamIsNotLatched : Obligations.EndOfStreamIsNotLatched := by
  unfold Obligations.EndOfStreamIsNotLatched
  intro s ready inside
  have eos {u : State} (empty : u.bitcnt = 0#4) (atEnd : u.ibPtr.toNat = u.ib.length) : readBit u = none :=
    (readBit_eq_none_iff u).2 ⟨empty, atEnd.ge⟩
  refine ⟨?reported, ?repeated, ?pushed⟩
  case reported =>
    rw [exec_bsuRbit_reports_eos_iff ready, readBit_eq_none_iff, inside.ge_iff_eq]
  case repeated =>
    intro empty atEnd
    have first := exec_bsuRbit_eos ready (eos empty atEnd)
    have second := exec_bsuRbit_eos (s := endedStream s) ready (eos empty atEnd)
    rw [runInstrs_cons first, runInstrs_cons second]
    simp [runInstrs, endedStream]
  case pushed =>
    intro v empty atEnd room
    have first := exec_bsuRbit_eos ready (eos empty atEnd)
    have push := exec_ibPush_room (s := endedStream s) v ready room
    obtain ⟨-, -, -, -, readAfterPush⟩ := ibPushAppendsOneByte
    have second := readAfterPush (endedStream s) _ v ready room empty atEnd push
    exact ⟨_, (runInstrs_cons first).trans ((runInstrs_cons push).trans (runInstrs_cons second)), by
      simp [answered, endedStream]⟩

end

/-! Proofs: reading back, declaring and forgetting the tree, and a decode without one (42_huffman_decoder.md
sections 1 and 2) -/
section

namespace Sys2Proof

/-- An `A` field that is zero above a node index is at most 511 (30_encoding.md R61). -/
theorem nodeIndex_le_of_reserved_clear {a : BitVec 24} (clear : a &&& 0xFFFE00#24 = 0#24) : a.toNat ≤ 511 :=
  have high : a.extractLsb' 9 15 = 0#15 := (and_field_eq_zero_iff a 9 15 (by decide)).1 clear
  Nat.le_of_lt_succ (toNat_lt_of_extractLsb'_eq_zero a 9 15 (by decide) high)

/-- `TREE.RD`: the operand is the low nine bits of `A`. -/
theorem legalOnlyWith_treeRd : LegalOnlyWith 0x21#8 (fun a b => a.toNat ≤ 511 ∧ b = 0#32) :=
  legalOnlyWith_of_row 0xFFFE00#24 (BitVec.allOnes 32) (by decide) fun _ b ha hb =>
    ⟨nodeIndex_le_of_reserved_clear ha, BitVec.and_allOnes (x := b) ▸ hb⟩

/-- `TREE.CFG`: the operands are the low nine bits of `A` and the low ten bits of `B`. -/
theorem legalOnlyWith_treeCfg : LegalOnlyWith 0x22#8 (fun a b => a.toNat ≤ 511 ∧ b.toNat ≤ 1023) :=
  legalOnlyWith_of_row 0xFFFE00#24 0xFFFFFC00#32 (by decide) fun _ b ha hb =>
    have high : b.extractLsb' 10 22 = 0#22 := (and_field_eq_zero_iff b 10 22 (by decide)).1 hb
    ⟨nodeIndex_le_of_reserved_clear ha,
      Nat.le_of_lt_succ (toNat_lt_of_extractLsb'_eq_zero b 10 22 (by decide) high)⟩

end Sys2Proof

namespace Sys2Proof.Machine

open Sys2Proof.Claims

/-- `TREE.RD` of a written entry, declared or not (42_huffman_decoder.md R121). -/
theorem exec_treeRd_written {s : State} {j : BitVec 9} {w : BitVec 32} (ready : s.fault = 0#8)
    (written : treeRead s.tree j.toNat = some w) : exec (.treeRd j) s = .next (answered w s) := by
  simp only [exec, execTreeRd]
  exact runRule_answered ready (by simp only [written])

/-- `TREE.RD` of an unwritten entry (42_huffman_decoder.md R121). -/
theorem exec_treeRd_unwritten {s : State} {j : BitVec 9} (ready : s.fault = 0#8)
    (unwritten : treeRead s.tree j.toNat = none) :
    exec (.treeRd j) s = .next (faulted 0x08#8 (j.setWidth 32) 0x21#8 s) := by
  simp only [exec, execTreeRd]
  exact runRule_faulted .badIndex ready (by simp only [unwritten])

/-- `TREE.CFG` with a count the arena cannot hold, whatever the root (42_huffman_decoder.md R122). -/
theorem exec_treeCfg_badCount {s : State} (r : BitVec 9) {n : BitVec 10} (ready : s.fault = 0#8)
    (tooMany : 512 < n.toNat) : exec (.treeCfg r n) s = .next (faulted 0x0A#8 (n.setWidth 32) 0x22#8 s) := by
  simp only [exec, execTreeCfg]
  exact runRule_faulted .badConfig ready (if_pos tooMany)

/-- `TREE.CFG` with a root outside a tree of a fitting count (42_huffman_decoder.md R122). -/
theorem exec_treeCfg_badRoot {s : State} {r : BitVec 9} {n : BitVec 10} (ready : s.fault = 0#8)
    (fits : n.toNat ≤ 512) (nonempty : 0 < n.toNat) (beyond : n.toNat ≤ r.toNat) :
    exec (.treeCfg r n) s = .next (faulted 0x0A#8 (r.setWidth 32) 0x22#8 s) := by
  simp only [exec, execTreeCfg]
  refine runRule_faulted .badConfig ready ?_
  rw [if_neg fits.not_gt, if_pos ⟨nonempty, beyond⟩]

/-- `TREE.CFG` with a fitting count that is zero or above the root (42_huffman_decoder.md R122). -/
theorem exec_treeCfg_declared {s : State} {r : BitVec 9} {n : BitVec 10} (ready : s.fault = 0#8)
    (fits : n.toNat ≤ 512) (inside : n.toNat = 0 ∨ r.toNat < n.toNat) :
    exec (.treeCfg r n) s = .next (answered 0#32 { s with treeN := n, treeRoot := r }) := by
  have notOutside : ¬ (0 < n.toNat ∧ n.toNat ≤ r.toNat) := by omega
  simp only [exec, execTreeCfg]
  refine runRule_answered ready ?_
  rw [if_neg fits.not_gt, if_neg notOutside]

/-- `TREE.CLR` (42_huffman_decoder.md R123). -/
theorem exec_treeClr_ready {s : State} (ready : s.fault = 0#8) : exec .treeClr s =
    .next (answered 0#32 { s with tree := [], treeN := 0#10, treeRoot := 0#9, htdCur := 0#9 }) := by
  simp only [exec, execTreeClr]
  exact runRule_answered ready rfl

/-- `HTD.DECODE` with no tree declared, whatever the count (42_huffman_decoder.md R133). -/
theorem exec_htdDecode_noTree {s : State} (e : BitVec 32) (ready : s.fault = 0#8) (noTree : s.treeN = 0#10) :
    exec (.htdDecode e) s = .next (faulted 0x06#8 0#32 0x40#8 s) := by
  simp only [exec, execHtdDecode]
  exact runRule_faulted .noTree ready (if_pos noTree)

end Sys2Proof.Machine

open Sys2Proof Sys2Proof.Machine

/-- Settles O31, for a written and an unwritten entry; `TREE_N` is not looked at. -/
theorem treeRdReadsOneNode : Obligations.TreeRdReadsOneNode := by
  unfold Obligations.TreeRdReadsOneNode
  exact ⟨fun j => rfl, fun s j w => exec_treeRd_written, fun s j => exec_treeRd_unwritten,
    illegalUnless_of_legalOnlyWith legalOnlyWith_treeRd⟩

/-- Settles O32, in the order of the checks: the count, then the root. -/
theorem treeCfgDeclaresTheTree : Obligations.TreeCfgDeclaresTheTree := by
  unfold Obligations.TreeCfgDeclaresTheTree
  exact ⟨fun r n => rfl, fun s r n => exec_treeCfg_declared, fun s r n => exec_treeCfg_badCount r,
    fun s r n => exec_treeCfg_badRoot, illegalUnless_of_legalOnlyWith legalOnlyWith_treeCfg⟩

/-- Settles O33: the arena left behind is the empty list, which has no entry to read. -/
theorem treeClrForgetsTheTree : Obligations.TreeClrForgetsTheTree := by
  unfold Obligations.TreeClrForgetsTheTree
  exact ⟨by decide, fun s ready => ⟨[], treeRead_nil, exec_treeClr_ready ready⟩,
    illegalUnless_of_legalOnlyWith (legalOnlyWith_bare (by decide))⟩

/-- Settles O42: the check for a tree is the first of the rule, so the count plays no part. -/
theorem decodeWithoutATreeFaults : Obligations.DecodeWithoutATreeFaults := by
  unfold Obligations.DecodeWithoutATreeFaults
  exact fun s e => exec_htdDecode_noTree e

end

/-! Proofs: the two LZW engines and the code packer and unpacker, each a computation on a working copy that then answers
the length of the buffer it wrote (43_lzw.md, 60_exceptions.md R200) -/
section

namespace Sys2Proof.Machine

open Sys2Proof.Claims

theorem encLoop_cons (c : BitVec 8) (rest : List (BitVec 8)) (s : State) :
    encLoop (c :: rest) s = (encStep c s).bind (encLoop rest) := by
  simp only [encLoop]
  cases encStep c s <;> rfl

theorem decLoop_cons (k : BitVec 32) (rest : List (BitVec 32)) (s : State) :
    decLoop (k :: rest) s = (decStep k s).bind (decLoop rest) := by
  simp only [decLoop]
  cases decStep k s <;> rfl

theorem packLoop_cons (k : BitVec 32) (rest : List (BitVec 32)) (s : State) :
    packLoop (k :: rest) s = (appendObString [codeHigh k, codeLow k] s).bind (packLoop rest) := by
  simp only [packLoop]
  cases appendObString [codeHigh k, codeLow k] s <;> rfl

theorem unpackLoop_cons_cons (h l : BitVec 8) (rest : List (BitVec 8)) (s : State) :
    unpackLoop (h :: l :: rest) s = (appendCb (codeOfBytes h l) s).bind (unpackLoop rest) := by
  simp only [unpackLoop]
  cases appendCb (codeOfBytes h l) s <;> rfl

/-- `IB` encoded under a legal `M` (43_lzw.md R142). -/
def encodeText (m : BitVec 32) (s : State) : Except Raise State := (encLoop s.ib (openEncode m s)).bind encFinish

/-- `CB` decoded under a legal `M` (43_lzw.md R148, R152). -/
def decodeCodes (m : BitVec 32) (s : State) : Except Raise State :=
  match s.cb with
  | [] => .ok (openDecodeLzw m s)
  | k0 :: rest => (decFirst k0 (openDecodeLzw m s)).bind (decLoop rest)

/-- The state after a command whose work on `s` gave `work`: it answers the length of the buffer it wrote, or it raised
and `s` is faulted. -/
def concluded (opc : BitVec 8) (len : State → BitVec 32) (s : State) (work : Except Raise State) : State :=
  match work with
  | .ok v => answered (len v) v
  | .error r => faulted (faultCode r.kind) r.info opc s

theorem runRule_concluded {opc : BitVec 8} {rule : State → Except Raise Reply} {s : State} {len : State → BitVec 32}
    {work : Except Raise State} (ready : s.fault = 0#8) (h : rule s = work.bind fun v => okReply (len v) v) :
    runRule opc rule s = .next (concluded opc len s work) := by
  cases work with
  | ok v => exact runRule_answered ready h
  | error r => exact runRule_faulted r.kind ready h

theorem exec_lzeEncode_badMax {s : State} {m : BitVec 32} (ready : s.fault = 0#8) (bad : badMax m s = true) :
    exec (.lzeEncode m) s = .next (faulted 0x0A#8 m 0x50#8 s) := by
  simp only [exec, execLzeEncode]
  exact runRule_faulted .badConfig ready (if_pos bad)

theorem exec_lzdDecode_badMax {s : State} {m : BitVec 32} (ready : s.fault = 0#8) (bad : badMax m s = true) :
    exec (.lzdDecode m) s = .next (faulted 0x0A#8 m 0x51#8 s) := by
  simp only [exec, execLzdDecode]
  exact runRule_faulted .badConfig ready (if_pos bad)

theorem exec_lzeEncode_legalMax {s : State} {m : BitVec 32} (ready : s.fault = 0#8) (legal : badMax m s = false) :
    exec (.lzeEncode m) s = .next (concluded 0x50#8 cbLen s (encodeText m s)) := by
  simp only [exec, execLzeEncode]
  refine runRule_concluded ready ?_
  simp only [legal, encodeText]
  cases hloop : encLoop s.ib (openEncode m s) with
  | error r => simp [Except.bind]
  | ok u => cases hfinish : encFinish u <;> simp [hfinish, Except.bind]

theorem exec_lzdDecode_legalMax {s : State} {m : BitVec 32} (ready : s.fault = 0#8) (legal : badMax m s = false) :
    exec (.lzdDecode m) s = .next (concluded 0x51#8 obLen s (decodeCodes m s)) := by
  simp only [exec, execLzdDecode]
  refine runRule_concluded ready ?_
  simp only [legal, decodeCodes]
  cases s.cb with
  | nil => rfl
  | cons k0 rest =>
    cases hfirst : decFirst k0 (openDecodeLzw m s) with
    | error r => simp [hfirst, Except.bind]
    | ok u => cases hloop : decLoop rest u <;> simp [hfirst, hloop, Except.bind]

theorem exec_cpkPack_ready {s : State} (ready : s.fault = 0#8) :
    exec .cpkPack s = .next (concluded 0x52#8 obLen s (packLoop s.cb (openSinkOb s))) := by
  simp only [exec, execCpkPack]
  refine runRule_concluded ready ?_
  cases packLoop s.cb (openSinkOb s) <;> rfl

theorem exec_cupUnpack_odd {s : State} (ready : s.fault = 0#8) (odd : s.ib.length % 2 = 1) :
    exec .cupUnpack s = .next (faulted 0x05#8 (BitVec.ofNat 32 s.ib.length) 0x53#8 s) := by
  simp only [exec, execCupUnpack]
  exact runRule_faulted .malformedBuffer ready (if_pos odd)

theorem exec_cupUnpack_even {s : State} (ready : s.fault = 0#8) (even : s.ib.length % 2 = 0) :
    exec .cupUnpack s = .next (concluded 0x53#8 cbLen s (unpackLoop s.ib { s with cb := [] })) := by
  have notOdd : ¬ s.ib.length % 2 = 1 := by omega
  simp only [exec, execCupUnpack]
  refine runRule_concluded ready ?_
  rw [if_neg notOdd]
  cases unpackLoop s.ib { s with cb := [] } <;> rfl

end Sys2Proof.Machine
end

/-! Proofs: one step of each LZW engine, one lemma per case of its rule (43_lzw.md R142, R143, R148, R149) -/
section

namespace Sys2Proof.Machine

theorem encStep_known {c : BitVec 8} {s : State} (known : s.eW ++ [c] ∈ s.eDict) :
    encStep c s = .ok { s with eW := s.eW ++ [c] } := if_pos known

/-- A string outside the dictionary emits the code of `w`, is inserted below the cap, and `w` restarts with `c`. -/
theorem encStep_new {c : BitVec 8} {s : State} (new : s.eW ++ [c] ∉ s.eDict) :
    encStep c s = (appendCb (codeOf s.eDict s.eW) s).bind fun t => .ok { t with
      eDict := if s.eDict.length < s.eMax.toNat then s.eDict ++ [s.eW ++ [c]] else s.eDict
      eW := [c] } := by
  simp only [encStep, if_neg new]
  cases appendCb (codeOf s.eDict s.eW) s <;> rfl

theorem encFinish_nil {s : State} (nothing : s.eW = []) : encFinish s = .ok s := if_pos nothing

theorem encFinish_pending {s : State} (pending : s.eW ≠ []) : encFinish s = appendCb (codeOf s.eDict s.eW) s :=
  if_neg pending

theorem decResolve_assigned {k : BitVec 32} {s : State} {entry : List (BitVec 8)} (h : s.dDict[k.toNat]? = some entry) :
    decResolve k s = .ok entry := by
  simp only [decResolve, h]

theorem decResolve_next {k : BitVec 32} {s : State} (h : k.toNat = s.dDict.length) :
    decResolve k s = .ok (s.dW ++ firstByte s.dW) := by
  simp [decResolve, h]

theorem decResolve_beyond {k : BitVec 32} {s : State} (h : s.dDict.length < k.toNat) :
    decResolve k s = .error ⟨.unknownCode, k⟩ := by
  simp [decResolve, List.getElem?_eq_none h.le, h.ne']

/-- The resolved entry is appended; then the old `D_W` with the entry's first byte is inserted below the cap, and `D_W`
is the entry. -/
theorem decStep_resolved {k : BitVec 32} {s : State} {entry : List (BitVec 8)} (h : decResolve k s = .ok entry) :
    decStep k s = (appendObString entry s).bind fun t => .ok { t with
      dDict := if s.dDict.length < s.dMax.toNat then s.dDict ++ [s.dW ++ firstByte entry] else s.dDict
      dW := entry } := by
  simp only [decStep, h]
  cases appendObString entry s <;> rfl

theorem decStep_unresolved {k : BitVec 32} {s : State} {r : Raise} (h : decResolve k s = .error r) :
    decStep k s = .error r := by
  simp only [decStep, h]

theorem decStep_room {k : BitVec 32} {s : State} {entry : List (BitVec 8)} (h : decResolve k s = .ok entry)
    (room : s.ob.length + entry.length ≤ s.cfg.obCap) :
    decStep k s = .ok { s with
      ob := s.ob ++ entry, dW := entry
      dDict := if s.dDict.length < s.dMax.toNat then s.dDict ++ [s.dW ++ firstByte entry] else s.dDict } := by
  rw [decStep_resolved h, appendObString_fits entry s room]
  rfl

theorem decStep_full {k : BitVec 32} {s : State} {entry : List (BitVec 8)} (h : decResolve k s = .ok entry)
    (fits : s.ob.length ≤ s.cfg.obCap) (full : s.cfg.obCap < s.ob.length + entry.length) :
    decStep k s = .error ⟨.overflow, 1#32⟩ := by
  rw [decStep_resolved h, appendObString_overflows entry s fits full]
  rfl

theorem decFirst_beyond {k : BitVec 32} {s : State} (h : s.dDict.length ≤ k.toNat) :
    decFirst k s = .error ⟨.unknownCode, k⟩ := by
  simp only [decFirst, List.getElem?_eq_none h]

end Sys2Proof.Machine
end

/-! Proofs: the check of `M` is the only source of `BadConfig` in the two engines (43_lzw.md R141) -/
section

namespace Sys2Proof.Machine

open Sys2Proof.Claims

/-- The work on `s` does not raise `BadConfig`, and when it ends it left `FAULT` alone. -/
def NoBadConfig (s : State) (work : Except Raise State) : Prop :=
  match work with
  | .ok v => v.fault = s.fault
  | .error r => r.kind ≠ .badConfig

theorem NoBadConfig.bind {s : State} {work : Except Raise State} {next : State → Except Raise State}
    (first : NoBadConfig s work) (after : ∀ u, NoBadConfig u (next u)) : NoBadConfig s (work.bind next) := by
  cases work with
  | error r => exact first
  | ok u =>
    have kept : u.fault = s.fault := first
    have second := after u
    change NoBadConfig s (next u)
    cases hnext : next u with
    | error r => rwa [hnext] at second
    | ok v =>
      rw [hnext] at second
      exact second.trans kept

theorem concluded_fault_ne_badConfig {opc : BitVec 8} {len : State → BitVec 32} {s : State} {work : Except Raise State}
    (ready : s.fault = 0#8) (h : NoBadConfig s work) : (concluded opc len s work).fault ≠ 0x0A#8 := by
  cases work with
  | ok v =>
    have kept : (concluded opc len s (.ok v)).fault = 0#8 := h.trans ready
    simp [kept]
  | error r =>
    obtain ⟨kind, info⟩ := r
    cases kind
    case badConfig => exact absurd rfl h
    all_goals simp [concluded, faulted, faultCode]

theorem appendCb_noBadConfig (k : BitVec 32) (s : State) : NoBadConfig s (appendCb k s) := by
  rcases appendCb_cases k s with ⟨_, h⟩ | ⟨_, h⟩ <;> simp [h, NoBadConfig]

theorem appendObString_noBadConfig (bytes : List (BitVec 8)) (s : State) : NoBadConfig s (appendObString bytes s) := by
  rcases appendObString_cases bytes s with h | h <;> simp [h, NoBadConfig]

theorem encStep_noBadConfig (c : BitVec 8) (s : State) : NoBadConfig s (encStep c s) := by
  by_cases known : s.eW ++ [c] ∈ s.eDict
  · exact encStep_known known ▸ rfl
  · exact encStep_new known ▸ (appendCb_noBadConfig _ s).bind fun _ => rfl

theorem encLoop_noBadConfig (text : List (BitVec 8)) (s : State) : NoBadConfig s (encLoop text s) := by
  induction text generalizing s with
  | nil => rfl
  | cons c rest ih => exact encLoop_cons c rest s ▸ (encStep_noBadConfig c s).bind ih

theorem encFinish_noBadConfig (s : State) : NoBadConfig s (encFinish s) := by
  by_cases nothing : s.eW = []
  · exact encFinish_nil nothing ▸ rfl
  · exact encFinish_pending nothing ▸ appendCb_noBadConfig _ s

theorem encodeText_noBadConfig (m : BitVec 32) (s : State) : NoBadConfig s (encodeText m s) :=
  NoBadConfig.bind (s := s) (encLoop_noBadConfig s.ib (openEncode m s)) encFinish_noBadConfig

theorem decStep_noBadConfig (k : BitVec 32) (s : State) : NoBadConfig s (decStep k s) := by
  have resolved {entry : List (BitVec 8)} (h : decResolve k s = .ok entry) : NoBadConfig s (decStep k s) :=
    decStep_resolved h ▸ (appendObString_noBadConfig entry s).bind fun _ => rfl
  rcases decResolve_cases k s with ⟨_, _, h⟩ | ⟨_, h⟩ | ⟨_, h⟩
  · exact resolved h
  · exact resolved h
  · simp [decStep_unresolved h, NoBadConfig]

theorem decLoop_noBadConfig (codes : List (BitVec 32)) (s : State) : NoBadConfig s (decLoop codes s) := by
  induction codes generalizing s with
  | nil => rfl
  | cons k rest ih => exact decLoop_cons k rest s ▸ (decStep_noBadConfig k s).bind ih

theorem decFirst_noBadConfig (k : BitVec 32) (s : State) : NoBadConfig s (decFirst k s) := by
  unfold decFirst
  split
  · simp [NoBadConfig]
  · exact appendObString_noBadConfig _ { s with dW := _ }

theorem decodeCodes_noBadConfig (m : BitVec 32) (s : State) : NoBadConfig s (decodeCodes m s) := by
  unfold decodeCodes
  split
  · rfl
  · exact NoBadConfig.bind (s := s) (decFirst_noBadConfig _ (openDecodeLzw m s)) (decLoop_noBadConfig _)

end Sys2Proof.Machine

open Sys2Proof Sys2Proof.Machine

/-- Settles O48: the check of `M` comes first in both engines, and what runs after it raises other faults only. -/
theorem maxDictSizeIsChecked : Obligations.MaxDictSizeIsChecked := by
  unfold Obligations.MaxDictSizeIsChecked
  refine fun s m ready => ⟨?outside, ?inside⟩
  case outside =>
    intro outside
    have bad : badMax m s = true := by simpa [badMax] using outside
    exact ⟨exec_lzeEncode_badMax ready bad, exec_lzdDecode_badMax ready bad⟩
  case inside =>
    intro low high t ht
    have legal := (badMax_eq_false_iff m s).2 ⟨low, high⟩
    rcases ht with encoded | decoded
    · obtain rfl := Host.Outcome.next.inj ((exec_lzeEncode_legalMax ready legal).symm.trans encoded)
      exact concluded_fault_ne_badConfig ready (encodeText_noBadConfig m s)
    · obtain rfl := Host.Outcome.next.inj ((exec_lzdDecode_legalMax ready legal).symm.trans decoded)
      exact concluded_fault_ne_badConfig ready (decodeCodes_noBadConfig m s)

end

/-! Proofs: the encode engine works alike on top of any other state (43_lzw.md R146) -/
section

namespace Sys2Proof.Machine

/-- `u` with the encode engine, the codes and the parameters of `v`: all that the engine's steps read or write. -/
def encodeOnto (u v : State) : State :=
  { u with cfg := v.cfg, cb := v.cb, eDict := v.eDict, eMax := v.eMax, eW := v.eW }

section
variable (u v : State)
@[simp] theorem encodeOnto_eDict : (encodeOnto u v).eDict = v.eDict := rfl
@[simp] theorem encodeOnto_eMax : (encodeOnto u v).eMax = v.eMax := rfl
@[simp] theorem encodeOnto_eW : (encodeOnto u v).eW = v.eW := rfl
end

theorem appendCb_encodeOnto (u : State) (k : BitVec 32) (s : State) :
    appendCb k (encodeOnto u s) = (appendCb k s).map (encodeOnto u) := by
  rcases appendCb_cases k s with ⟨full, h⟩ | ⟨room, h⟩
  · rw [h]
    exact appendCb_full (s := encodeOnto u s) k full
  · rw [h]
    exact appendCb_room (s := encodeOnto u s) k room

theorem encStep_encodeOnto (u : State) (c : BitVec 8) (s : State) :
    encStep c (encodeOnto u s) = (encStep c s).map (encodeOnto u) := by
  by_cases known : s.eW ++ [c] ∈ s.eDict
  · rw [encStep_known known, encStep_known (s := encodeOnto u s) known]
    rfl
  · rw [encStep_new known, encStep_new (s := encodeOnto u s) known, appendCb_encodeOnto]
    simp only [encodeOnto_eDict, encodeOnto_eMax, encodeOnto_eW]
    cases appendCb (codeOf s.eDict s.eW) s <;> rfl

theorem encLoop_encodeOnto (u : State) (text : List (BitVec 8)) (s : State) :
    encLoop text (encodeOnto u s) = (encLoop text s).map (encodeOnto u) := by
  induction text generalizing s with
  | nil => rfl
  | cons c rest ih =>
    rw [encLoop_cons, encLoop_cons, encStep_encodeOnto]
    cases encStep c s with
    | error r => rfl
    | ok t => exact ih t

theorem encFinish_encodeOnto (u s : State) : encFinish (encodeOnto u s) = (encFinish s).map (encodeOnto u) := by
  by_cases nothing : s.eW = []
  · rw [encFinish_nil nothing, encFinish_nil (s := encodeOnto u s) nothing]
    rfl
  · rw [encFinish_pending nothing, encFinish_pending (s := encodeOnto u s) nothing]
    exact appendCb_encodeOnto u _ s

/-- Two encodes of one text under the same parameters raise alike or end with the same codes and the same engine. -/
theorem encodeText_encodeOnto {s u : State} (m : BitVec 32) (sameText : s.ib = u.ib) (sameCfg : s.cfg = u.cfg) :
    encodeText m u = (encodeText m s).map (encodeOnto u) := by
  have opened : openEncode m u = encodeOnto u (openEncode m s) := by simp [encodeOnto, openEncode, sameCfg]
  rw [encodeText, encodeText, opened, encLoop_encodeOnto, sameText]
  cases encLoop u.ib (openEncode m s) with
  | error r => rfl
  | ok t => exact encFinish_encodeOnto u t

end Sys2Proof.Machine

open Sys2Proof Sys2Proof.Machine Sys2Proof.Procedures

/-- Settles O51: the check of `M` reads the parameters only, and the engine's work on `s` carries over to `u`. -/
theorem lzeEncodeDependsOnTextAndMax : Obligations.LzeEncodeDependsOnTextAndMax := by
  unfold Obligations.LzeEncodeDependsOnTextAndMax
  intro s u s' u' m readyS readyU sameText sameCfg hs hu
  have sameCheck : badMax m u = badMax m s := by simp only [badMax, sameCfg]
  cases check : badMax m s with
  | true =>
    obtain rfl := Host.Outcome.next.inj ((exec_lzeEncode_badMax readyS check).symm.trans hs)
    obtain rfl := Host.Outcome.next.inj ((exec_lzeEncode_badMax readyU (sameCheck.trans check)).symm.trans hu)
    exact ⟨rfl, fun noFault => absurd noFault (takeFault_halted ⟨.badConfig, m⟩ 0x50#8 s)⟩
  | false =>
    obtain rfl := Host.Outcome.next.inj ((exec_lzeEncode_legalMax readyS check).symm.trans hs)
    obtain rfl := Host.Outcome.next.inj ((exec_lzeEncode_legalMax readyU (sameCheck.trans check)).symm.trans hu)
    rw [encodeText_encodeOnto m sameText sameCfg]
    have latchKept := encodeText_noBadConfig m s
    cases work : encodeText m s with
    | error r => exact ⟨rfl, fun noFault => absurd noFault (takeFault_halted r 0x50#8 s)⟩
    | ok v =>
      rw [work] at latchKept
      exact ⟨latchKept.trans (readyS.trans readyU.symm), fun _ => ⟨rfl, rfl, rfl⟩⟩

end

/-! Proofs: the decode engine, code by code (43_lzw.md section 3) -/
section

namespace Sys2Proof.Machine

theorem decodeCodes_nil {m : BitVec 32} {s : State} (noCodes : s.cb = []) :
    decodeCodes m s = .ok (openDecodeLzw m s) := by
  simp only [decodeCodes, noCodes]

/-- Only the seed codes are assigned when the first code is looked up, and the special branch is not tried. -/
theorem decodeCodes_first_beyond {m k : BitVec 32} {s : State} {rest : List (BitVec 32)} (codes : s.cb = k :: rest)
    (beyond : 256 ≤ k.toNat) : decodeCodes m s = .error ⟨.unknownCode, k⟩ := by
  have noSeed : (openDecodeLzw m s).dDict.length ≤ k.toNat := by
    rwa [openDecodeLzw_dDict, seedDict_length]
  simp only [decodeCodes, codes, decFirst_beyond noSeed]
  rfl

end Sys2Proof.Machine

open Sys2Proof Sys2Proof.Machine Sys2Proof.Claims

/-- Settles O54: the dictionary and `D_W` decide how the code resolves, then the room in `OB` decides the append. -/
theorem lzdStepResolvesOneCode : Obligations.LzdStepResolvesOneCode := by
  unfold Obligations.LzdStepResolvesOneCode
  intro s k c tail hw
  have resolveNext (h : k.toNat = s.dDict.length) : decResolve k s = .ok (s.dW ++ [c]) := by
    rw [decResolve_next h, hw]
    rfl
  refine ⟨?assigned, ?next, ?beyond, ?full⟩
  case assigned => exact fun a more h room => decStep_room (decResolve_assigned h) room
  case next =>
    intro h room
    have startsWithC : firstByte (s.dW ++ [c]) = [c] := by
      rw [hw]
      rfl
    rw [decStep_room (resolveNext h) (by simpa using room), startsWithC]
  case beyond => exact fun h => decStep_unresolved (decResolve_beyond h)
  case full =>
    rintro entry (h | ⟨h, rfl⟩) fits full
    · exact decStep_full (decResolve_assigned h) fits full
    · exact decStep_full (resolveNext h) fits full

/-- Settles O52: with no code the decode is the opening of the engine and of the sink. -/
theorem lzdDecodeOfTheEmptyCodeList : Obligations.LzdDecodeOfTheEmptyCodeList := by
  unfold Obligations.LzdDecodeOfTheEmptyCodeList
  intro s m ready low high noCodes
  rw [exec_lzdDecode_legalMax ready ((badMax_eq_false_iff m s).2 ⟨low, high⟩), decodeCodes_nil noCodes]
  rfl

/-- Settles O53: the seeded dictionary has 256 entries, and the first code must name one of them. -/
theorem lzdFirstCodeMustBeASeed : Obligations.LzdFirstCodeMustBeASeed := by
  unfold Obligations.LzdFirstCodeMustBeASeed
  intro s m k rest ready low high codes beyond
  rw [exec_lzdDecode_legalMax ready ((badMax_eq_false_iff m s).2 ⟨low, high⟩), decodeCodes_first_beyond codes beyond]
  rfl

end

/-! Proofs: the code packer writes one string of bytes, and the code unpacker one code per pair of bytes (43_lzw.md
section 4) -/
section

namespace Sys2Proof.Machine

open Sys2Proof.Claims

theorem appendObString_append (a b : List (BitVec 8)) (s : State) :
    appendObString (a ++ b) s = (appendObString a s).bind (appendObString b) := by
  induction a generalizing s with
  | nil => rfl
  | cons v rest ih =>
    simp only [List.cons_append, appendObString]
    cases appendOb v s with
    | error r => rfl
    | ok t => exact ih t

/-- The two bytes of each code (20_memory.md R48). -/
def packedBytes (codes : List (BitVec 32)) : List (BitVec 8) := codes.flatMap fun k => [codeHigh k, codeLow k]

theorem packedBytes_length (codes : List (BitVec 32)) : (packedBytes codes).length = 2 * codes.length := by
  simp [packedBytes, Nat.mul_comm]

theorem packedBytes_cons (k : BitVec 32) (rest : List (BitVec 32)) :
    packedBytes (k :: rest) = [codeHigh k, codeLow k] ++ packedBytes rest := rfl

theorem packLoop_eq_appendObString (codes : List (BitVec 32)) (s : State) :
    packLoop codes s = appendObString (packedBytes codes) s := by
  induction codes generalizing s with
  | nil => rfl
  | cons k rest ih =>
    rw [packLoop_cons, packedBytes_cons, appendObString_append]
    exact congrArg _ (funext ih)

theorem codeHigh_eq_ofNat (k : BitVec 32) : codeHigh k = BitVec.ofNat 8 (k.toNat / 256) := by
  apply BitVec.eq_of_toNat_eq
  simp [codeHigh, Nat.shiftRight_eq_div_pow]

theorem codeLow_eq_ofNat (k : BitVec 32) : codeLow k = BitVec.ofNat 8 k.toNat := by
  apply BitVec.eq_of_toNat_eq
  simp [codeLow]

/-- `CPK.PACK` with room for two bytes per code (43_lzw.md R155). -/
theorem exec_cpkPack_room {s : State} (ready : s.fault = 0#8) (room : 2 * s.cb.length ≤ s.cfg.obCap) :
    exec .cpkPack s = .next (answered (BitVec.ofNat 32 (2 * s.cb.length))
      { s with ob := packedBytes s.cb, acc := 0#8, nacc := 0#3 }) := by
  have fits : (openSinkOb s).ob.length + (packedBytes s.cb).length ≤ (openSinkOb s).cfg.obCap := by
    simpa [packedBytes_length] using room
  rw [exec_cpkPack_ready ready, packLoop_eq_appendObString, appendObString_fits _ _ fits, ← packedBytes_length]
  rfl

/-- `CPK.PACK` without room (43_lzw.md R155). -/
theorem exec_cpkPack_full {s : State} (ready : s.fault = 0#8) (full : s.cfg.obCap < 2 * s.cb.length) :
    exec .cpkPack s = .next (faulted 0x09#8 1#32 0x52#8 s) := by
  have overflows : (openSinkOb s).cfg.obCap < (openSinkOb s).ob.length + (packedBytes s.cb).length := by
    simpa [packedBytes_length] using full
  rw [exec_cpkPack_ready ready, packLoop_eq_appendObString, appendObString_overflows _ _ (Nat.zero_le _) overflows]
  rfl

/-- The code at bytes `2 * i` and `2 * i + 1` (43_lzw.md R158). -/
def codeAt (bytes : List (BitVec 8)) (i : Nat) : BitVec 32 :=
  codeOfBytes (bytes.getD (2 * i) 0#8) (bytes.getD (2 * i + 1) 0#8)

/-- The codes of the whole pairs of bytes (43_lzw.md R158). -/
def unpackedCodes (bytes : List (BitVec 8)) : List (BitVec 32) := (List.range (bytes.length / 2)).map (codeAt bytes)

theorem unpackedCodes_length (bytes : List (BitVec 8)) : (unpackedCodes bytes).length = bytes.length / 2 := by
  simp [unpackedCodes]

theorem unpackedCodes_cons_cons (h l : BitVec 8) (rest : List (BitVec 8)) :
    unpackedCodes (h :: l :: rest) = codeOfBytes h l :: unpackedCodes rest := by
  have half : (h :: l :: rest).length / 2 = rest.length / 2 + 1 := by
    simp only [List.length_cons]
    omega
  have shift : codeAt (h :: l :: rest) ∘ Nat.succ = codeAt rest := rfl
  rw [unpackedCodes, half, List.range_succ_eq_map, List.map_cons, List.map_map, shift]
  rfl

theorem codeOfBytes_eq_ofNat (h l : BitVec 8) : codeOfBytes h l = BitVec.ofNat 32 (h.toNat * 256 + l.toNat) := by
  apply BitVec.eq_of_toNat_eq
  rw [codeOfBytes, BitVec.toNat_setWidth, BitVec.toNat_append, ← Nat.shiftLeft_add_eq_or_of_lt l.isLt, Nat.shiftLeft_eq,
    BitVec.toNat_ofNat]

theorem unpackLoop_room (bytes : List (BitVec 8)) (s : State) (room : s.cb.length + bytes.length / 2 ≤ s.cfg.cbCap) :
    unpackLoop bytes s = .ok { s with cb := s.cb ++ unpackedCodes bytes } := by
  match bytes with
  | [] | [_] => simp [unpackLoop, unpackedCodes]
  | h :: l :: rest =>
    simp only [List.length_cons] at room
    have notFull : s.cb.length ≠ s.cfg.cbCap := by omega
    have pushed : (s.cb ++ [codeOfBytes h l]).length = s.cb.length + 1 := List.length_append
    have roomLeft : (s.cb ++ [codeOfBytes h l]).length + rest.length / 2 ≤ s.cfg.cbCap := by omega
    rw [unpackLoop_cons_cons, appendCb_room _ notFull, unpackedCodes_cons_cons]
    simpa [Except.bind] using unpackLoop_room rest { s with cb := s.cb ++ [codeOfBytes h l] } roomLeft

theorem unpackLoop_full (bytes : List (BitVec 8)) (s : State) (fits : s.cb.length ≤ s.cfg.cbCap)
    (full : s.cfg.cbCap < s.cb.length + bytes.length / 2) : unpackLoop bytes s = .error ⟨.overflow, 2#32⟩ := by
  match bytes with
  | [] | [_] =>
    simp only [List.length_cons, List.length_nil] at full
    omega
  | h :: l :: rest =>
    simp only [List.length_cons] at full
    rw [unpackLoop_cons_cons]
    by_cases atCap : s.cb.length = s.cfg.cbCap
    · rw [appendCb_full _ atCap]
      rfl
    · have pushed : (s.cb ++ [codeOfBytes h l]).length = s.cb.length + 1 := List.length_append
      have fitsStill : (s.cb ++ [codeOfBytes h l]).length ≤ s.cfg.cbCap := by omega
      have fullLater : s.cfg.cbCap < (s.cb ++ [codeOfBytes h l]).length + rest.length / 2 := by omega
      rw [appendCb_room _ atCap]
      exact unpackLoop_full rest { s with cb := s.cb ++ [codeOfBytes h l] } fitsStill fullLater

/-- `CUP.UNPACK` of an even length with room for one code per two bytes (43_lzw.md R158). -/
theorem exec_cupUnpack_room {s : State} (ready : s.fault = 0#8) (even : s.ib.length % 2 = 0)
    (room : s.ib.length / 2 ≤ s.cfg.cbCap) : exec .cupUnpack s =
    .next (answered (BitVec.ofNat 32 (s.ib.length / 2)) { s with cb := unpackedCodes s.ib }) := by
  have fits : ({ s with cb := [] } : State).cb.length + s.ib.length / 2 ≤ s.cfg.cbCap := by simpa using room
  rw [exec_cupUnpack_even ready even, unpackLoop_room _ _ fits, ← unpackedCodes_length]
  rfl

/-- `CUP.UNPACK` of an even length without room (43_lzw.md R158). -/
theorem exec_cupUnpack_full {s : State} (ready : s.fault = 0#8) (even : s.ib.length % 2 = 0)
    (full : s.cfg.cbCap < s.ib.length / 2) : exec .cupUnpack s = .next (faulted 0x09#8 2#32 0x53#8 s) := by
  have overflows : s.cfg.cbCap < ({ s with cb := [] } : State).cb.length + s.ib.length / 2 := by simpa using full
  rw [exec_cupUnpack_even ready even, unpackLoop_full _ _ (Nat.zero_le _) overflows]
  rfl

end Sys2Proof.Machine

open Sys2Proof Sys2Proof.Machine

/-- Settles O58: the packed bytes are appended as one string, which fits `OB` whole or overflows it. -/
theorem cpkPackSerialisesTheCodes : Obligations.CpkPackSerialisesTheCodes := by
  unfold Obligations.CpkPackSerialisesTheCodes
  simp only [← codeHigh_eq_ofNat, ← codeLow_eq_ofNat]
  exact ⟨by decide, fun s => exec_cpkPack_room, fun s => exec_cpkPack_full,
    illegalUnless_of_legalOnlyWith (legalOnlyWith_bare (by decide))⟩

/-- Settles O59: the length check comes first, then each pair of bytes is one code, which finds room in `CB` or not. -/
theorem cupUnpackReadsTheFields : Obligations.CupUnpackReadsTheFields := by
  unfold Obligations.CupUnpackReadsTheFields
  simp only [← codeOfBytes_eq_ofNat]
  exact ⟨by decide, fun s => exec_cupUnpack_odd, fun s => exec_cupUnpack_room, fun s => exec_cupUnpack_full,
    illegalUnless_of_legalOnlyWith (legalOnlyWith_bare (by decide))⟩

end

/-! Proofs: a step on a presented word, and the words that `RST` and `CSRR` are (30_encoding.md R61, R62, R71) -/
section

namespace Sys2Proof

/-- A value whose bits from `w` on are zero is its low `w` bits, widened. -/
theorem setWidth_extractLsb'_low {v w n : Nat} (x : BitVec v) (whole : v ≤ w + n) (high : x.extractLsb' w n = 0#n) :
    (x.extractLsb' 0 w).setWidth v = x := by
  apply BitVec.eq_of_toNat_eq
  have small := toNat_lt_of_extractLsb'_eq_zero x w n whole high
  simp only [BitVec.toNat_setWidth, BitVec.extractLsb'_toNat, Nat.shiftRight_zero, Nat.mod_eq_of_lt small,
    Nat.mod_eq_of_lt x.isLt]

theorem decode_csrr {w : BitVec 64} (hopc : opcOf w = 0x03#8) : decode w =
    whenClear ((aOf w).extractLsb' 8 16 == 0#16 && bOf w == 0#32) (.csrr ((aOf w).extractLsb' 0 8)) := by
  simp only [decode, hopc]

theorem decode_treeWr {w : BitVec 64} (hopc : opcOf w = 0x20#8) : decode w =
    whenClear ((aOf w).extractLsb' 9 15 == 0#15 && reservedNodeBits (bOf w) == 0#5)
      (.treeWr ((aOf w).extractLsb' 0 9) (bOf w)) := by
  simp only [decode, hopc]

theorem decode_csrr_word (addr : BitVec 8) : decode (cmdWord 0x03#8 (addr.setWidth 24) 0#32) = .ok (.csrr addr) := by
  rw [decode_csrr (opcOf_cmdWord _ _ _), aOf_cmdWord, bOf_cmdWord, extractLsb'_setWidth_low addr (by decide),
    extractLsb'_setWidth_high addr (by decide)]
  rfl

theorem eq_csrr_word_of_decode {w : BitVec 64} {addr : BitVec 8} (h : decode w = .ok (.csrr addr)) :
    w = cmdWord 0x03#8 (addr.setWidth 24) 0#32 := by
  have hopc : opcOf w = 0x03#8 := (opcode_of_decode h).symm
  obtain ⟨high, hb⟩ := legalOnlyWith_csrr w _ hopc h
  rw [decode_csrr hopc, whenClear_eq_ok_iff] at h
  obtain ⟨-, haddr⟩ := h
  cases haddr
  rw [word_eq_iff, opcOf_cmdWord, aOf_cmdWord, bOf_cmdWord]
  exact ⟨hopc, (setWidth_extractLsb'_low (aOf w) (by decide) high).symm, hb⟩

theorem eq_rst_word_of_decode {w : BitVec 64} (h : decode w = .ok .rst) : w = 0x0200000000000000#64 := by
  have hopc : opcOf w = 0x02#8 := (opcode_of_decode h).symm
  obtain ⟨ha, hb⟩ := legalOnlyWith_bare (by decide) w .rst hopc h
  exact (word_eq_iff w 0x0200000000000000#64).2 ⟨hopc, ha, hb⟩

end Sys2Proof

namespace Sys2Proof.Machine

open Sys2Proof.Claims

theorem step_command {s : State} {w : BitVec 64} {rest : List HostEvent} (h : s.input = .command w :: rest) :
    step s = acceptCommand w { s with input := rest } := by
  simp only [step, takeEvent, h, acceptEvent]

theorem acceptCommand_legal {w : BitVec 64} {i : Instr} (h : decode w = .ok i) (s : State) :
    acceptCommand w s = exec i s := by
  simp only [acceptCommand, h]

/-- In HALTED every command takes the common path, which refuses it, but `RST` and `CSRR` (60_exceptions.md R202). -/
theorem exec_halted_refused {i : Instr} {s : State} (stopped : s.fault ≠ 0#8) (notRst : i ≠ .rst)
    (notCsrr : ∀ addr, i ≠ .csrr addr) : exec i s = .next (refused s) := by
  cases i
  case rst => exact absurd rfl notRst
  case csrr addr => exact absurd rfl (notCsrr addr)
  all_goals
    simp only [exec]
    exact runRule_refused stopped

end Sys2Proof.Machine

open Sys2Proof Sys2Proof.Machine Sys2Proof.Claims

/-- Settles O6: the step is the acceptance of the word, and each of the four examples breaks a rule of its row or has
no row. -/
theorem illegalCommandRecordsTheWord : Obligations.IllegalCommandRecordsTheWord := by
  unfold Obligations.IllegalCommandRecordsTheWord
  refine ⟨?step, by decide, by decide, ?treeWr, by decide⟩
  case step =>
    intro s w rest e presented ready illegal
    rw [step_command presented]
    exact acceptCommand_illegal_ready (by simp [illegal]) ready
  case treeWr =>
    intro b
    have hopc : opcOf (word 0x20#8 512#24 b) = 0x20#8 := opcOf_cmdWord _ _ _
    have ha : aOf (word 0x20#8 512#24 b) = 512#24 := aOf_cmdWord _ _ _
    rw [decode_treeWr hopc, ha]
    rfl

/-- Settles O9: only a word that decodes to `RST` or to `CSRR` escapes the refusal, and the latter with a defined
address only. -/
theorem haltedRefusesAllButRstAndCsrr : Obligations.HaltedRefusesAllButRstAndCsrr := by
  unfold Obligations.HaltedRefusesAllButRstAndCsrr
  refine fun s stopped => ⟨rfl, ?csrr, ?other⟩
  case csrr =>
    intro p hp
    exact (acceptCommand_legal (decode_csrr_word p.1) s).trans
      (exec_csrr_defined ((registerAt_eq_some_iff p.1 s p.2).2 hp))
  case other =>
    intro w notRst notCsrr
    cases hw : decode w with
    | error e => exact acceptCommand_illegal_halted (by simp [hw]) stopped
    | ok i =>
      rw [acceptCommand_legal hw]
      by_cases hcsrr : ∃ addr, i = .csrr addr
      · obtain ⟨addr, rfl⟩ := hcsrr
        have undefined : ∀ p ∈ registers s, p.1 ≠ addr := by
          rintro p hp rfl
          exact notCsrr p hp (eq_csrr_word_of_decode hw)
        rw [exec_csrr_undefined (registerAt_eq_none undefined)]
        exact runRule_refused stopped
      · refine exec_halted_refused stopped ?_ (not_exists.1 hcsrr)
        rintro rfl
        exact notRst (eq_rst_word_of_decode hw)

end

/-! Proofs: what a command that runs in READY does to the fault latch: nothing, or a fault other than `UnknownSymbol` is
taken on the state before it (60_exceptions.md R200, R203, R206) -/
section

namespace Sys2Proof.Machine

open Sys2Proof.Claims

/-- The work ends in a value of `post`, or raises a fault other than `UnknownSymbol`. -/
def EndsOrRaises {α : Type} (post : α → Prop) (work : Except Raise α) : Prop :=
  match work with
  | .ok a => post a
  | .error r => r.kind ≠ .unknownSymbol

@[simp] theorem endsOrRaises_ok {α : Type} (post : α → Prop) (a : α) : EndsOrRaises post (.ok a) ↔ post a := Iff.rfl

@[simp] theorem endsOrRaises_error {α : Type} (post : α → Prop) (r : Raise) :
    EndsOrRaises post (.error r) ↔ r.kind ≠ .unknownSymbol := Iff.rfl

theorem EndsOrRaises.bind {α β : Type} {post : α → Prop} {after : β → Prop} {work : Except Raise α}
    {next : α → Except Raise β} (first : EndsOrRaises post work) (second : ∀ a, post a → EndsOrRaises after (next a)) :
    EndsOrRaises after (work.bind next) := by
  cases work with
  | error r => exact first
  | ok a => exact second a first

/-- The work leaves the latch empty when it ends. -/
abbrev StaysReady (work : Except Raise State) : Prop := EndsOrRaises (fun u => u.fault = 0#8) work

/-! ### The shared operations -/

section
variable {s : State} (ready : s.fault = 0#8)
include ready

theorem appendCb_staysReady (k : BitVec 32) : StaysReady (appendCb k s) := by
  rcases appendCb_cases k s with ⟨_, h⟩ | ⟨_, h⟩ <;> simp [h, ready]

theorem appendObString_staysReady (bytes : List (BitVec 8)) : StaysReady (appendObString bytes s) := by
  rcases appendObString_cases bytes s with h | h <;> simp [h, ready]

theorem readBit_fault {t : State} {b : Bool} (h : readBit s = some (b, t)) : t.fault = 0#8 := by
  rw [readBit_frame h]
  exact ready

/-! ### The engines -/

theorem encStep_staysReady (c : BitVec 8) : StaysReady (encStep c s) := by
  rcases encStep_cases c s with ⟨_, h⟩ | ⟨_, _, h⟩ | ⟨_, _, h⟩ <;> simp [h, ready]

theorem encFinish_staysReady : StaysReady (encFinish s) := by
  by_cases nothing : s.eW = []
  · simpa [encFinish_nil nothing] using ready
  · exact encFinish_pending nothing ▸ appendCb_staysReady ready _

theorem decStep_staysReady (k : BitVec 32) : StaysReady (decStep k s) := by
  have resolved {entry : List (BitVec 8)} (h : decResolve k s = .ok entry) : StaysReady (decStep k s) :=
    decStep_resolved h ▸ (appendObString_staysReady ready entry).bind fun _ ended => ended
  rcases decResolve_cases k s with ⟨_, _, assigned⟩ | ⟨_, next⟩ | ⟨_, beyond⟩
  · exact resolved assigned
  · exact resolved next
  · simp [decStep_unresolved beyond]

theorem decFirst_staysReady (k : BitVec 32) : StaysReady (decFirst k s) := by
  unfold decFirst
  cases s.dDict[k.toNat]? with
  | none => simp
  | some entry => exact appendObString_staysReady (s := { s with dW := entry }) ready entry

theorem walkStep_staysReady (root cur : BitVec 9) (b : Bool) :
    EndsOrRaises (fun p => p.2.fault = 0#8) (walkStep root cur b s) := by
  unfold walkStep
  rcases fetchNode_cases cur s with ⟨_, w, _, h⟩ | ⟨_, h⟩
  · rcases fetchNode_cases (if b then nodeRight w else nodeLeft w) s with ⟨_, v, _, hchild⟩ | ⟨_, hchild⟩
    · by_cases leaf : nodeIsLeaf v
      · rcases appendOb_cases (nodeSym v) s with ⟨_, happend⟩ | ⟨_, happend⟩ <;> simp [h, hchild, leaf, happend, ready]
      · simp [h, hchild, leaf, ready]
    · simp [h, hchild]
  · simp [h]

end

theorem encLoop_staysReady (text : List (BitVec 8)) {s : State} (ready : s.fault = 0#8) :
    StaysReady (encLoop text s) := by
  induction text generalizing s with
  | nil => exact ready
  | cons c rest ih => exact encLoop_cons c rest s ▸ (encStep_staysReady ready c).bind fun _ => ih

theorem decLoop_staysReady (codes : List (BitVec 32)) {s : State} (ready : s.fault = 0#8) :
    StaysReady (decLoop codes s) := by
  induction codes generalizing s with
  | nil => exact ready
  | cons k rest ih => exact decLoop_cons k rest s ▸ (decStep_staysReady ready k).bind fun _ => ih

theorem packLoop_staysReady (codes : List (BitVec 32)) {s : State} (ready : s.fault = 0#8) :
    StaysReady (packLoop codes s) := packLoop_eq_appendObString codes s ▸ appendObString_staysReady ready _

theorem unpackLoop_staysReady (bytes : List (BitVec 8)) {s : State} (ready : s.fault = 0#8) :
    StaysReady (unpackLoop bytes s) := by
  match bytes with
  | [] | [_] => exact ready
  | h :: l :: rest =>
    exact unpackLoop_cons_cons h l rest s ▸ (appendCb_staysReady ready _).bind fun _ => unpackLoop_staysReady rest

/-- An iteration of the walk that finds a bit (42_huffman_decoder.md R126). -/
theorem walk_bit {fuel : Nat} {root cur : BitVec 9} {expected : BitVec 32} {s t : State} {b : Bool}
    (more : s.ob.length < expected.toNat) (h : readBit s = some (b, t)) : walk (fuel + 1) root expected cur s =
    (walkStep root cur b t).bind fun p => walk fuel root expected p.1 p.2 := by
  simp only [walk, if_pos more, h]
  cases walkStep root cur b t <;> rfl

theorem walk_staysReady (fuel : Nat) (root : BitVec 9) (expected : BitVec 32) (cur : BitVec 9) {s : State}
    (ready : s.fault = 0#8) : EndsOrRaises (fun e => e.after.fault = 0#8) (walk fuel root expected cur s) := by
  induction fuel generalizing cur s with
  | zero => exact ready
  | succ fuel ih =>
    by_cases more : s.ob.length < expected.toNat
    · cases hread : readBit s with
      | none => simpa [walk, more, hread] using ready
      | some p =>
        rw [walk_bit more hread]
        exact (walkStep_staysReady (readBit_fault ready hread) root cur p.1).bind fun q => ih q.1
    · simpa [walk, more] using ready

theorem encodeText_staysReady (m : BitVec 32) {s : State} (ready : s.fault = 0#8) : StaysReady (encodeText m s) :=
  (encLoop_staysReady s.ib (s := openEncode m s) ready).bind fun _ => encFinish_staysReady

theorem decodeCodes_staysReady (m : BitVec 32) {s : State} (ready : s.fault = 0#8) : StaysReady (decodeCodes m s) := by
  unfold decodeCodes
  split
  · exact ready
  · exact (decFirst_staysReady (s := openDecodeLzw m s) ready _).bind fun _ => decLoop_staysReady _

/-! ### The commands -/

/-- A command that found the latch empty leaves it empty, or faults with a code other than 0x03. -/
def ReadyOrFaulted (opc : BitVec 8) (s : State) (o : Host.Outcome State Fault Refusal) : Prop :=
  ∃ t, o = .next t ∧
    (t.fault = 0#8 ∨ ∃ r : Raise, r.kind ≠ .unknownSymbol ∧ t = faulted (faultCode r.kind) r.info opc s)

theorem concluded_readyOrFaulted {opc : BitVec 8} {len : State → BitVec 32} {s : State} {work : Except Raise State}
    (h : StaysReady work) : ReadyOrFaulted opc s (.next (concluded opc len s work)) := by
  cases work with
  | ok v => exact ⟨_, rfl, .inl h⟩
  | error r => exact ⟨_, rfl, .inr ⟨r, h, rfl⟩⟩

section
variable {s : State} (ready : s.fault = 0#8)
include ready

theorem runRule_readyOrFaulted {opc : BitVec 8} {rule : State → Except Raise Reply}
    (h : EndsOrRaises (fun r => r.after.fault = 0#8) (rule s)) : ReadyOrFaulted opc s (runRule opc rule s) := by
  cases hrule : rule s with
  | ok r =>
    rw [hrule] at h
    exact ⟨_, runRule_ok ready hrule, .inl h⟩
  | error r =>
    rw [hrule] at h
    exact ⟨_, runRule_raise ready hrule, .inr ⟨r, h, rfl⟩⟩

theorem execCsrr_readyOrFaulted (addr : BitVec 8) : ReadyOrFaulted 0x03#8 s (execCsrr addr s) := by
  unfold execCsrr
  cases registerAt addr s with
  | some v => exact ⟨_, rfl, .inl ready⟩
  | none => exact runRule_readyOrFaulted ready (by simp)

theorem execBspWbit_readyOrFaulted (value : BitVec 32) : ReadyOrFaulted 0x31#8 s (execBspWbit value s) := by
  refine runRule_readyOrFaulted ready ?_
  split_ifs
  · simp
  · rcases appendOb_cases (shiftIn s.acc value) s with ⟨_, h⟩ | ⟨_, h⟩ <;> simp [h, okReply, ready]
  · exact ready

theorem execBspFlush_readyOrFaulted : ReadyOrFaulted 0x32#8 s (execBspFlush s) := by
  refine runRule_readyOrFaulted ready ?_
  split_ifs
  · rcases appendOb_cases (padded s.acc s.nacc) s with ⟨_, h⟩ | ⟨_, h⟩ <;> simp [h, okReply, ready]
  · exact ready

theorem execHtdDecode_readyOrFaulted (count : BitVec 32) : ReadyOrFaulted 0x40#8 s (execHtdDecode count s) := by
  refine runRule_readyOrFaulted ready ?_
  by_cases noTree : s.treeN = 0#10
  · simp [noTree]
  rcases fetchNode_cases s.treeRoot (openDecode count s) with ⟨_, w, _, h⟩ | ⟨_, h⟩
  · by_cases leaf : nodeIsLeaf w
    · have appended := appendObString_cases (List.replicate count.toNat (nodeSym w)) (openDecode count s)
      rcases appended with happend | happend <;>
        simp [noTree, h, leaf, appendObTimes_eq, happend, okReply, ready]
    · have walked := walk_staysReady (walkFuel (openDecode count s)) s.treeRoot count s.treeRoot
        (s := openDecode count s) ready
      cases hwalk : walk (walkFuel (openDecode count s)) s.treeRoot count s.treeRoot (openDecode count s) with
      | error r => simpa [noTree, h, leaf, hwalk] using walked
      | ok e => simpa [noTree, h, leaf, hwalk] using walked
  · simp [noTree, h]

theorem exec_lzeEncode_readyOrFaulted (max : BitVec 32) : ReadyOrFaulted 0x50#8 s (exec (.lzeEncode max) s) := by
  cases legal : badMax max s with
  | true => exact ⟨_, exec_lzeEncode_badMax ready legal, .inr ⟨⟨.badConfig, max⟩, nofun, rfl⟩⟩
  | false => exact exec_lzeEncode_legalMax ready legal ▸ concluded_readyOrFaulted (encodeText_staysReady max ready)

theorem exec_lzdDecode_readyOrFaulted (max : BitVec 32) : ReadyOrFaulted 0x51#8 s (exec (.lzdDecode max) s) := by
  cases legal : badMax max s with
  | true => exact ⟨_, exec_lzdDecode_badMax ready legal, .inr ⟨⟨.badConfig, max⟩, nofun, rfl⟩⟩
  | false => exact exec_lzdDecode_legalMax ready legal ▸ concluded_readyOrFaulted (decodeCodes_staysReady max ready)

theorem exec_cpkPack_readyOrFaulted : ReadyOrFaulted 0x52#8 s (exec .cpkPack s) :=
  exec_cpkPack_ready ready ▸ concluded_readyOrFaulted (packLoop_staysReady s.cb (s := openSinkOb s) ready)

theorem exec_cupUnpack_readyOrFaulted : ReadyOrFaulted 0x53#8 s (exec .cupUnpack s) := by
  rcases Nat.mod_two_eq_zero_or_one s.ib.length with even | odd
  · exact exec_cupUnpack_even ready even ▸
      concluded_readyOrFaulted (unpackLoop_staysReady s.ib (s := { s with cb := [] }) ready)
  · exact ⟨_, exec_cupUnpack_odd ready odd, .inr ⟨⟨.malformedBuffer, ibLen s⟩, nofun, rfl⟩⟩

/-- Every command that runs in READY, the answers of R200 sorted by what the latch holds after it. -/
theorem exec_readyOrFaulted (i : Instr) : ReadyOrFaulted i.opcode s (exec i s) := by
  cases i
  all_goals simp only [exec]
  case rst => exact ⟨_, rfl, .inl rfl⟩
  case csrr addr => exact execCsrr_readyOrFaulted ready addr
  case bspWbit value => exact execBspWbit_readyOrFaulted ready value
  case bspFlush => exact execBspFlush_readyOrFaulted ready
  case htdDecode count => exact execHtdDecode_readyOrFaulted ready count
  case lzeEncode max => exact exec_lzeEncode_readyOrFaulted ready max
  case lzdDecode max => exact exec_lzdDecode_readyOrFaulted ready max
  case cupUnpack => exact exec_cupUnpack_readyOrFaulted ready
  case cpkPack => exact exec_cpkPack_readyOrFaulted ready
  all_goals refine runRule_readyOrFaulted ready ?_
  case nop | ibClr | cbClr | treeClr | bspOpen | bsuOpen => exact ready
  case ibPush byte => rcases appendIb_cases byte s with ⟨_, h⟩ | ⟨_, h⟩ <;> simp [h, okReply, ready]
  case cbPush code => rcases appendCb_cases code s with ⟨_, h⟩ | ⟨_, h⟩ <;> simp [h, okReply, ready]
  case ibRd idx => rcases readElement_cases s.ib idx with ⟨_, _, h⟩ | ⟨_, h⟩ <;> simp [h, okReply, ready]
  case obRd idx => rcases readElement_cases s.ob idx with ⟨_, _, h⟩ | ⟨_, h⟩ <;> simp [h, okReply, ready]
  case cbRd idx => rcases readElement_cases s.cb idx with ⟨_, _, h⟩ | ⟨_, h⟩ <;> simp [h, okReply, ready]
  case treeWr | treeCfg => split_ifs <;> simp [okReply, ready]
  case treeRd idx => cases treeRead s.tree idx.toNat <;> simp [okReply, ready]
  case bsuRbit =>
    cases h : readBit s with
    | none => simp [ready]
    | some p => simpa [okReply] using readBit_fault ready h

theorem acceptCommand_readyOrFaulted (w : BitVec 64) : ReadyOrFaulted (opcOf w) s (acceptCommand w s) := by
  cases hw : decode w with
  | ok i =>
    rw [acceptCommand_legal hw, ← opcode_of_decode hw]
    exact exec_readyOrFaulted ready i
  | error e =>
    have illegal : ∀ i, decode w ≠ .ok i := by simp [hw]
    exact ⟨_, acceptCommand_illegal_ready illegal ready, .inr ⟨⟨.illegalCommand, bOf w⟩, nofun, rfl⟩⟩

end

/-! ### The codes -/

theorem faultCode_eq_unknownSymbol {k : FaultKind} (h : faultCode k = 0x03#8) : k = .unknownSymbol := by
  revert h
  cases k <;> decide

/-- A fault writes the three registers of the latch and nothing else (60_exceptions.md R203). -/
theorem ReadyOrFaulted.precise {opc : BitVec 8} {s t : State} (h : ReadyOrFaulted opc s (.next t))
    (hf : t.fault ≠ 0#8) : (∃ k, t.fault = faultCode k) ∧ t = faulted t.fault t.finfo opc s ∧ faultOut t = true := by
  obtain ⟨u, hu, ready | ⟨r, -, rfl⟩⟩ := h
  · cases hu
    exact absurd ready hf
  · cases hu
    exact ⟨⟨r.kind, rfl⟩, rfl, (halted_eq_true_iff _).2 hf⟩

theorem ReadyOrFaulted.fault_ne_unknownSymbol {opc : BitVec 8} {s t : State} (h : ReadyOrFaulted opc s (.next t)) :
    t.fault ≠ 0x03#8 := by
  obtain ⟨u, hu, ready | ⟨r, hkind, rfl⟩⟩ := h
  · cases hu
    simp [ready]
  · cases hu
    exact fun code => hkind (faultCode_eq_unknownSymbol code)

/-- In HALTED a word keeps the code of the latch, or resets it (60_exceptions.md R202, R217). -/
theorem acceptCommand_halted_fault {w : BitVec 64} {s t : State} (stopped : s.fault ≠ 0#8)
    (h : acceptCommand w s = .next t) : t.fault = s.fault ∨ t.fault = 0#8 := by
  obtain ⟨rst, csrr, other⟩ := haltedRefusesAllButRstAndCsrr s stopped
  by_cases hrst : w = 0x0200000000000000#64
  · subst hrst
    cases rst.symm.trans h
    exact .inr rfl
  · by_cases hcsrr : ∃ p ∈ registers s, w = word 0x03#8 (p.1.setWidth 24) 0#32
    · obtain ⟨p, hp, rfl⟩ := hcsrr
      cases (csrr p hp).symm.trans h
      exact .inl rfl
    · cases (other w hrst (by simpa using hcsrr)).symm.trans h
      exact .inl rfl

theorem acceptCommand_fault_ne_unknownSymbol {w : BitVec 64} {s t : State} (hs : s.fault ≠ 0x03#8)
    (h : acceptCommand w s = .next t) : t.fault ≠ 0x03#8 := by
  by_cases ready : s.fault = 0#8
  · exact (h ▸ acceptCommand_readyOrFaulted ready w).fault_ne_unknownSymbol
  · rcases acceptCommand_halted_fault ready h with kept | reset
    · exact kept ▸ hs
    · simp [reset]

end Sys2Proof.Machine

open Sys2Proof Sys2Proof.Machine

/-- Settles O10: a rule either ends with the latch empty, or `raise` discards its working copy. -/
theorem faultsArePrecise : Obligations.FaultsArePrecise := by
  unfold Obligations.FaultsArePrecise
  exact ⟨fun i s t ready h => (h ▸ exec_readyOrFaulted ready i).precise,
    fun w s t ready h => (h ▸ acceptCommand_readyOrFaulted ready w).precise⟩

/-- Settles O11: no rule raises `UnknownSymbol`, in HALTED the code stays or is reset, and no other event sets one. -/
theorem unknownSymbolIsNeverRaised : Obligations.UnknownSymbolIsNeverRaised := by
  unfold Obligations.UnknownSymbolIsNeverRaised
  refine ⟨rfl, by decide, fun s t hs h => ?_⟩
  cases presented : s.input with
  | nil =>
    simp only [step, takeEvent, presented, Host.Outcome.next.injEq] at h
    exact h ▸ hs
  | cons e rest =>
    cases e with
    | command w =>
      rw [step_command presented] at h
      exact acceptCommand_fault_ne_unknownSymbol (s := { s with input := rest }) hs h
    | hardwareReset =>
      simp only [step, takeEvent, presented, acceptEvent, Host.Outcome.next.injEq] at h
      simp [← h]

end

/-! Proofs: decoding and encoding are inverse (30_encoding.md R60 to R62) -/
section

namespace Sys2Proof

/-- A word is the encoding of a command when it has the command's three fields. -/
theorem encode_eq_iff (i : Instr) (w : BitVec 64) :
    encode i = w ↔ i.opcode = opcOf w ∧ i.fieldA = aOf w ∧ i.fieldB = bOf w := by
  rw [encode, word_eq_iff, opcOf_cmdWord, aOf_cmdWord, bOf_cmdWord]

/-- The decoder reads every operand back from its field, and finds the reserved bits clear. -/
theorem decode_encode (i : Instr) (wellFormed : i.wellFormed = true) : decode (encode i) = .ok i := by
  unfold decode
  simp only [encode, opcOf_cmdWord, aOf_cmdWord, bOf_cmdWord]
  cases i
  case treeWr idx word =>
    have clear : reservedNodeBits word = 0#5 := by simpa [Instr.wellFormed, reservedNodeBits] using wellFormed
    simp [Instr.opcode, Instr.fieldA, Instr.fieldB, whenClear, clear, extractLsb'_setWidth_low,
      extractLsb'_setWidth_high]
  all_goals
    simp [Instr.opcode, Instr.fieldA, Instr.fieldB, whenClear, extractLsb'_setWidth_low, extractLsb'_setWidth_high]

/-- A legal word has no bit outside its opcode and its operands. -/
theorem encode_of_decode {w : BitVec 64} {i : Instr} (h : decode w = .ok i) : encode i = w ∧ i.wellFormed = true := by
  have hopc := opcode_of_decode h
  have address := setWidth_extractLsb'_low (w := 8) (n := 16) (aOf w) (by decide)
  have node := setWidth_extractLsb'_low (w := 9) (n := 15) (aOf w) (by decide)
  have byte := setWidth_extractLsb'_low (w := 8) (n := 24) (bOf w) (by decide)
  have count := setWidth_extractLsb'_low (w := 10) (n := 22) (bOf w) (by decide)
  rw [encode_eq_iff]
  unfold decode at h
  split at h
  case h_25 => cases h
  all_goals
    obtain ⟨clear, rfl⟩ := (whenClear_eq_ok_iff _ _ _).1 h
    simp only [Bool.and_eq_true, beq_iff_eq, reservedNodeBits] at clear
    simp [Instr.fieldA, Instr.fieldB, Instr.wellFormed, hopc, clear, address, node, byte, count]

/-- `TREE.WR`: the operands are the low nine bits of `A` and the node word in `B`. -/
theorem legalOnlyWith_treeWr : LegalOnlyWith 0x20#8 (fun a b => a.toNat ≤ 511 ∧ b.extractLsb' 26 5 = 0#5) :=
  legalOnlyWith_of_row 0xFFFE00#24 0x7C000000#32 (by decide) fun _ b ha hb =>
    ⟨nodeIndex_le_of_reserved_clear ha, (and_field_eq_zero_iff b 26 5 (by decide)).1 hb⟩

end Sys2Proof

open Sys2Proof

/-- Settles O1. -/
theorem decodeOfEncodeIsTheCommand : Obligations.DecodeOfEncodeIsTheCommand := by
  unfold Obligations.DecodeOfEncodeIsTheCommand
  exact decode_encode

/-- Settles O2. -/
theorem encodeOfDecodeIsTheWord : Obligations.EncodeOfDecodeIsTheWord := by
  unfold Obligations.EncodeOfDecodeIsTheWord
  exact fun w i => encode_of_decode

/-- Settles O4, word by word. -/
theorem specWordsDecode : Obligations.SpecWordsDecode := by
  unfold Obligations.SpecWordsDecode
  decide

end

/-! Proofs: a step by what the host presents, and the write of one node (60_exceptions.md R200,
70_reset_and_hazards.md R230, 42_huffman_decoder.md R120) -/
section

namespace Sys2Proof.Machine

open Sys2Proof.Claims

theorem step_hardwareReset {s : State} {rest : List HostEvent} (h : s.input = .hardwareReset :: rest) :
    step s = .next (afterReset { s with input := rest }) := by
  simp only [step, takeEvent, h, acceptEvent]
  rfl

theorem step_idle {s : State} (h : s.input = []) : step s = .next s := by
  simp only [step, takeEvent, h]

/-- `TREE.WR` of a legal node word (42_huffman_decoder.md R120). -/
theorem exec_treeWr_legal {s : State} (j : BitVec 9) {w : BitVec 32} (ready : s.fault = 0#8)
    (legal : reservedNodeBits w = 0#5) :
    exec (.treeWr j w) s = .next (answered 0#32 { s with tree := treeWrite s.tree j.toNat w }) := by
  simp only [exec, execTreeWr]
  exact runRule_answered ready (if_pos legal)

end Sys2Proof.Machine

open Sys2Proof Sys2Proof.Machine

/-- Settles O5: the event taken is the word, and a legal word is run as its command. -/
theorem stepRunsTheDecodedCommand : Obligations.StepRunsTheDecodedCommand := by
  unfold Obligations.StepRunsTheDecodedCommand
  intro s w rest i presented legal
  rw [step_command presented, acceptCommand_legal legal]

/-- Settles O7. -/
theorem stepOnResetAndIdle : Obligations.StepOnResetAndIdle := by
  unfold Obligations.StepOnResetAndIdle
  exact ⟨fun s rest => step_hardwareReset, fun s => step_idle⟩

/-- Settles O30 by the laws of a write to the arena: the entry written, the other entries, the canonical form. -/
theorem treeWrWritesOneNode : Obligations.TreeWrWritesOneNode := by
  unfold Obligations.TreeWrWritesOneNode
  refine ⟨fun j w => rfl, ?legal, illegalUnless_of_legalOnlyWith legalOnlyWith_treeWr⟩
  intro s j w ready legal
  exact ⟨_, exec_treeWr_legal j ready legal, treeRead_treeWrite_same _ _ _,
    fun m other => treeRead_treeWrite_other _ w other, fun wf => treeWrite_wf wf j.isLt legal⟩

end

/-! Proofs: every command and every step answers a next state (60_exceptions.md R200) -/
section

namespace Sys2Proof.Machine

theorem exec_next (i : Instr) (s : State) : ∃ t, exec i s = .next t := by
  cases i
  case rst => exact ⟨_, rfl⟩
  case csrr addr =>
    cases h : registerAt addr s with
    | some v => exact ⟨_, exec_csrr_defined h⟩
    | none => exact exec_csrr_undefined h ▸ runRule_next _ _ s
  all_goals
    simp only [exec]
    exact runRule_next _ _ s

theorem acceptCommand_next (w : BitVec 64) (s : State) : ∃ t, acceptCommand w s = .next t := by
  cases hw : decode w with
  | ok i => exact acceptCommand_legal hw s ▸ exec_next i s
  | error e => exact ⟨runIllegal w s, by simp only [acceptCommand, hw]⟩

theorem step_next (s : State) : ∃ t, step s = .next t := by
  cases presented : s.input with
  | nil => exact ⟨_, step_idle presented⟩
  | cons e rest =>
    cases e with
    | command w => exact step_command presented ▸ acceptCommand_next w _
    | hardwareReset => exact ⟨_, step_hardwareReset presented⟩

end Sys2Proof.Machine

open Sys2Proof Sys2Proof.Machine

/-- Settles O8. -/
theorem execAlwaysAnswersANextState : Obligations.ExecAlwaysAnswersANextState := by
  unfold Obligations.ExecAlwaysAnswersANextState
  exact ⟨exec_next, acceptCommand_next, step_next⟩

end

/-! Proofs: `HTD.DECODE` by what stands at the root (42_huffman_decoder.md R124, R126, R127) -/
section

namespace Sys2Proof.Machine

open Sys2Proof.Claims

/-- `HTD.DECODE` with a root outside the declared tree or never written (42_huffman_decoder.md R124). -/
theorem exec_htdDecode_badRoot {s : State} {r : Raise} (count : BitVec 32) (ready : s.fault = 0#8)
    (declared : s.treeN ≠ 0#10) (root : fetchNode s.treeRoot s = .error r) :
    exec (.htdDecode count) s = .next (faulted (faultCode r.kind) r.info 0x40#8 s) := by
  have opened : fetchNode s.treeRoot (openDecode count s) = .error r := root
  simp only [exec, execHtdDecode]
  exact runRule_faulted r.kind ready (by simp only [if_neg declared, opened])

theorem declared_of_fetchNode {s : State} {i : BitVec 9} {w : BitVec 32} (h : fetchNode i s = .ok w) :
    s.treeN ≠ 0#10 := by
  rintro none
  simp [fetchNode, none] at h

/-- The symbol of a leaf at the root, `count` times, without the bits (42_huffman_decoder.md R127). -/
def emitRoot (count w : BitVec 32) (s : State) : Except Raise State :=
  (appendObString (List.replicate count.toNat (nodeSym w)) (openDecode count s)).map
    fun v => { v with htdCur := s.treeRoot }

/-- `HTD.DECODE` with a leaf at the root (42_huffman_decoder.md R127). -/
theorem exec_htdDecode_leaf {s : State} {w : BitVec 32} (count : BitVec 32) (ready : s.fault = 0#8)
    (root : fetchNode s.treeRoot s = .ok w) (leaf : nodeIsLeaf w = true) :
    exec (.htdDecode count) s = .next (concluded 0x40#8 obLen s (emitRoot count w s)) := by
  have opened : fetchNode s.treeRoot (openDecode count s) = .ok w := root
  simp only [exec, execHtdDecode]
  refine runRule_concluded ready ?_
  simp only [if_neg (declared_of_fetchNode root), opened, leaf, if_true, appendObTimes_eq, emitRoot]
  cases appendObString (List.replicate count.toNat (nodeSym w)) (openDecode count s) <;> rfl

/-- The state after the general walk on `s` ended or raised (42_huffman_decoder.md R126). -/
def walkConcluded (s : State) (walked : Except Raise WalkEnd) : State :=
  match walked with
  | .ok e => respond (if e.eos then .eos else .ok) (obLen e.after) { e.after with htdCur := e.cur }
  | .error r => faulted (faultCode r.kind) r.info 0x40#8 s

/-- `HTD.DECODE` with an internal node at the root (42_huffman_decoder.md R126). -/
theorem exec_htdDecode_walk {s : State} {w : BitVec 32} (count : BitVec 32) (ready : s.fault = 0#8)
    (root : fetchNode s.treeRoot s = .ok w) (internal : nodeIsLeaf w = false) : exec (.htdDecode count) s =
    .next (walkConcluded s (walk (walkFuel s) s.treeRoot count s.treeRoot (openDecode count s))) := by
  have opened : fetchNode s.treeRoot (openDecode count s) = .ok w := root
  have sameFuel : walkFuel (openDecode count s) = walkFuel s := rfl
  simp only [exec, execHtdDecode]
  cases hwalk : walk (walkFuel s) s.treeRoot count s.treeRoot (openDecode count s) with
  | error r =>
    exact runRule_faulted r.kind ready
      (by simp [if_neg (declared_of_fetchNode root), opened, internal, sameFuel, hwalk])
  | ok e =>
    exact runRule_ok (r := ⟨{ e.after with htdCur := e.cur }, if e.eos then .eos else .ok, obLen e.after⟩) ready
      (by simp [if_neg (declared_of_fetchNode root), opened, internal, sameFuel, hwalk])

end Sys2Proof.Machine
end

/-! Proofs: what a command writes, and what it does not look at: a command does the same to two blocks that differ only
in what the host presents and in the hidden strings (10_state.md sections 4 to 8, R26) -/
section

namespace Sys2Proof.Machine

open Sys2Proof.Claims

/-- `s` with the input and the hidden strings of `m` (10_state.md R26). -/
def withHidden (m s : State) : State :=
  { s with input := m.input, eDict := m.eDict, eW := m.eW, dDict := m.dDict, dW := m.dW }

/-- `v` with the fault latch and the responses of `t`. -/
def withLatch (t v : State) : State :=
  { v with fault := t.fault, finfo := t.finfo, fopc := t.fopc, rsps := t.rsps }

/-- `u` with the state that the spec names `i` as a writer of taken from `v` (10_state.md sections 4 to 8). The latch
and the responses are apart, and so is `RST`, which writes everything. -/
def writtenBy (i : Instr) (v u : State) : State :=
  match i with
  | .nop | .rst | .csrr _ | .ibRd _ | .obRd _ | .cbRd _ | .treeRd _ => u
  | .ibClr => { u with ib := v.ib, ibPtr := v.ibPtr, bitbuf := v.bitbuf, bitcnt := v.bitcnt }
  | .ibPush _ => { u with ib := v.ib }
  | .cbClr | .cbPush _ | .cupUnpack => { u with cb := v.cb }
  | .treeWr _ _ => { u with tree := v.tree }
  | .treeCfg _ _ => { u with treeN := v.treeN, treeRoot := v.treeRoot }
  | .treeClr => { u with tree := v.tree, treeN := v.treeN, treeRoot := v.treeRoot, htdCur := v.htdCur }
  | .bspOpen | .bspWbit _ | .bspFlush | .cpkPack => { u with ob := v.ob, acc := v.acc, nacc := v.nacc }
  | .bsuOpen | .bsuRbit => { u with ibPtr := v.ibPtr, bitbuf := v.bitbuf, bitcnt := v.bitcnt }
  | .htdDecode _ => { u with
      ibPtr := v.ibPtr, bitbuf := v.bitbuf, bitcnt := v.bitcnt, ob := v.ob, acc := v.acc, nacc := v.nacc
      htdCur := v.htdCur, htdExp := v.htdExp }
  | .lzeEncode _ => { u with cb := v.cb, eDict := v.eDict, eMax := v.eMax, eW := v.eW }
  | .lzdDecode _ => { u with
      ob := v.ob, acc := v.acc, nacc := v.nacc, dDict := v.dDict, dMax := v.dMax, dW := v.dW }

/-- The command `i` took `s` to `t` and answers `o` on `u`. It gave one response. It wrote only what it is named for,
and the same to `u`; or it was stopped, by a fault or in HALTED, and alike on `u`. -/
def ActsAlike (i : Instr) (s t u : State) (o : Host.Outcome State Fault Refusal) : Prop :=
  (∃ st val, t.rsps = s.rsps ++ [responseWord st val]) ∧
  ((t = withLatch t (writtenBy i t s) ∧ o = .next (withLatch t (writtenBy i t u))) ∨
    (t = withLatch t s ∧ o = .next (withLatch t u)))

/-- A rule that computes the same from `u` as from `s`, and writes the same. -/
def RuleAlike (i : Instr) (rule : State → Except Raise Reply) (s u : State) : Prop :=
  rule u = (rule s).map fun r => { r with after := writtenBy i r.after u }

section
variable (i : Instr) (v u : State)
@[simp] theorem writtenBy_fault : (writtenBy i v u).fault = u.fault := by cases i <;> rfl
@[simp] theorem writtenBy_finfo : (writtenBy i v u).finfo = u.finfo := by cases i <;> rfl
@[simp] theorem writtenBy_fopc : (writtenBy i v u).fopc = u.fopc := by cases i <;> rfl
@[simp] theorem writtenBy_rsps : (writtenBy i v u).rsps = u.rsps := by cases i <;> rfl
@[simp] theorem writtenBy_input : (writtenBy i v u).input = u.input := by cases i <;> rfl
@[simp] theorem writtenBy_cfg : (writtenBy i v u).cfg = u.cfg := by cases i <;> rfl

@[simp] theorem writtenBy_respond (st : Status) (val : BitVec 32) :
    writtenBy i (respond st val v) u = writtenBy i v u := by cases i <;> rfl
end

theorem respond_eq_withLatch {v x : State} (st : Status) (val : BitVec 32) (hfault : x.fault = v.fault)
    (hfinfo : x.finfo = v.finfo) (hfopc : x.fopc = v.fopc) (hrsps : x.rsps = v.rsps) :
    respond st val x = withLatch (respond st val v) x := by
  simp [respond, withLatch, hfault, hfinfo, hfopc, hrsps]

section
variable {i : Instr} {s t m : State}

/-- A command that ended in `v`, which it wrote as it is named for. -/
theorem actsAlike_of_ended {v : State} (st : Status) (val : BitVec 32) (frame : v = writtenBy i v s) :
    ActsAlike i s (respond st val v) (withHidden m s) (.next (respond st val (writtenBy i v (withHidden m s)))) := by
  have kept {α : Type} {x : State} (field : State → α) (notWritten : ∀ u, field (writtenBy i v u) = field u)
      (same : field x = field s) : field (writtenBy i v x) = field v := by
    rw [notWritten, same, ← notWritten s, ← frame]
  have latch (x : State) (hfault : x.fault = s.fault) (hfinfo : x.finfo = s.finfo) (hfopc : x.fopc = s.fopc)
      (hrsps : x.rsps = s.rsps) :
      respond st val (writtenBy i v x) = withLatch (respond st val v) (writtenBy i (respond st val v) x) := by
    rw [writtenBy_respond]
    exact respond_eq_withLatch st val (kept _ (writtenBy_fault i v) hfault) (kept _ (writtenBy_finfo i v) hfinfo)
      (kept _ (writtenBy_fopc i v) hfopc) (kept _ (writtenBy_rsps i v) hrsps)
  have sameRsps : v.rsps = s.rsps :=
    (kept State.rsps (writtenBy_rsps i v) (x := s) rfl).symm.trans (writtenBy_rsps i v s)
  refine ⟨⟨st, val, by rw [respond_rsps, sameRsps]⟩, .inl ⟨?_, congrArg _ (latch _ rfl rfl rfl rfl)⟩⟩
  rw [← latch s rfl rfl rfl rfl, ← frame]

theorem actsAlike_faulted (k : BitVec 8) (info : BitVec 32) (opc : BitVec 8) :
    ActsAlike i s (faulted k info opc s) (withHidden m s) (.next (faulted k info opc (withHidden m s))) :=
  ⟨⟨.fault, k.setWidth 32, rfl⟩, .inr ⟨rfl, rfl⟩⟩

theorem actsAlike_refused : ActsAlike i s (refused s) (withHidden m s) (.next (refused (withHidden m s))) :=
  ⟨⟨.halted, s.fault.setWidth 32, rfl⟩, .inr ⟨rfl, rfl⟩⟩

/-- A command on the common path, refused, ended or faulted. -/
theorem runRule_actsAlike {opc : BitVec 8} {rule : State → Except Raise Reply} (h : runRule opc rule s = .next t)
    (alike : ∀ m, RuleAlike i rule s (withHidden m s)) :
    ActsAlike i s t (withHidden m s) (runRule opc rule (withHidden m s)) := by
  rcases runRule_cases h with ⟨stopped, rfl⟩ | ⟨ready, r, hr, rfl⟩ | ⟨ready, r, hr, rfl⟩
  · rw [runRule_halted (s := withHidden m s) stopped]
    exact actsAlike_refused
  · have ended (m : State) : rule (withHidden m s) = .ok { r with after := writtenBy i r.after (withHidden m s) } := by
      rw [alike m, hr]
      rfl
    have frame : r.after = writtenBy i r.after s := congrArg Reply.after (Except.ok.inj (hr.symm.trans (ended s)))
    rw [runRule_ok (s := withHidden m s) ready (ended m)]
    exact actsAlike_of_ended r.status r.val frame
  · have raised : rule (withHidden m s) = .error r := by
      rw [alike m, hr]
      rfl
    rw [runRule_raise (s := withHidden m s) ready raised]
    exact actsAlike_faulted _ _ _

/-- A computation on a working copy, ended or faulted. -/
theorem concluded_actsAlike (opc : BitVec 8) {len : State → BitVec 32} {work : State → Except Raise State}
    (sameLen : ∀ v u, len (writtenBy i v u) = len v)
    (alike : ∀ m, work (withHidden m s) = (work s).map (writtenBy i · (withHidden m s))) :
    ActsAlike i s (concluded opc len s (work s)) (withHidden m s)
      (.next (concluded opc len (withHidden m s) (work (withHidden m s)))) := by
  cases hs : work s with
  | ok v =>
    have ended (m : State) : work (withHidden m s) = .ok (writtenBy i v (withHidden m s)) := by
      rw [alike m, hs]
      rfl
    have frame : v = writtenBy i v s := Except.ok.inj (hs.symm.trans (ended s))
    rw [ended m, concluded, concluded, sameLen]
    exact actsAlike_of_ended .ok (len v) frame
  | error r =>
    have raised : work (withHidden m s) = .error r := by
      rw [alike m, hs]
      rfl
    rw [raised]
    exact actsAlike_faulted _ _ _

end

end Sys2Proof.Machine
end

/-! Proofs: the loops of the engines do the same on two states that agree in what the loop works on, and write nothing
else (42_huffman_decoder.md R126, 43_lzw.md R142, R148, R158). The second is the first for one state twice. -/
section

namespace Sys2Proof.Machine

theorem bind_eq_ok {α β : Type} {work : Except Raise α} {next : α → Except Raise β} {b : β} :
    work.bind next = .ok b ↔ ∃ a, work = .ok a ∧ next a = .ok b := by
  cases work <;> simp [Except.bind]

/-! ### Appending -/

theorem appendIb_alike {u s : State} (byte : BitVec 8) (sameIb : u.ib = s.ib) (sameCfg : u.cfg = s.cfg) :
    appendIb byte u = (appendIb byte s).map fun t => { u with ib := t.ib } := by
  rcases appendIb_cases byte s with ⟨full, h⟩ | ⟨room, h⟩
  · rw [h, appendIb_full byte (by rwa [sameIb, sameCfg])]
    rfl
  · rw [h, appendIb_room byte (by rwa [sameIb, sameCfg]), sameIb]
    rfl

theorem appendOb_alike {u s : State} (byte : BitVec 8) (sameOb : u.ob = s.ob) (sameCfg : u.cfg = s.cfg) :
    appendOb byte u = (appendOb byte s).map fun t => { u with ob := t.ob } := by
  rcases appendOb_cases byte s with ⟨full, h⟩ | ⟨room, h⟩
  · rw [h, appendOb_full byte (by rwa [sameOb, sameCfg])]
    rfl
  · rw [h, appendOb_room byte (by rwa [sameOb, sameCfg]), sameOb]
    rfl

theorem appendObString_alike {u s : State} (bytes : List (BitVec 8)) (sameOb : u.ob = s.ob) (sameCfg : u.cfg = s.cfg) :
    appendObString bytes u = (appendObString bytes s).map fun t => { u with ob := t.ob } := by
  induction bytes generalizing u s with
  | nil => simp [appendObString, Except.map, ← sameOb]
  | cons v rest ih =>
    simp only [appendObString, appendOb_alike v sameOb sameCfg]
    rcases appendOb_cases v s with ⟨_, h⟩ | ⟨_, h⟩ <;> rw [h]
    · rfl
    · exact ih (u := { u with ob := s.ob ++ [v] }) (s := { s with ob := s.ob ++ [v] }) rfl sameCfg

theorem appendCb_alike {u s : State} (k : BitVec 32) (sameCb : u.cb = s.cb) (sameCfg : u.cfg = s.cfg) :
    appendCb k u = (appendCb k s).map fun t => { u with cb := t.cb } := by
  rcases appendCb_cases k s with ⟨full, h⟩ | ⟨room, h⟩
  · rw [h, appendCb_full k (by rwa [sameCb, sameCfg])]
    rfl
  · rw [h, appendCb_room k (by rwa [sameCb, sameCfg]), sameCb]
    rfl

theorem unpackLoop_alike {u s : State} (bytes : List (BitVec 8)) (sameCb : u.cb = s.cb) (sameCfg : u.cfg = s.cfg) :
    unpackLoop bytes u = (unpackLoop bytes s).map fun t => { u with cb := t.cb } := by
  match bytes with
  | [] | [_] => simp [unpackLoop, Except.map, ← sameCb]
  | h :: l :: rest =>
    rw [unpackLoop_cons_cons, unpackLoop_cons_cons, appendCb_alike _ sameCb sameCfg]
    rcases appendCb_cases (codeOfBytes h l) s with ⟨_, e⟩ | ⟨_, e⟩ <;> rw [e]
    · rfl
    · exact unpackLoop_alike (u := { u with cb := s.cb ++ [codeOfBytes h l] })
        (s := { s with cb := s.cb ++ [codeOfBytes h l] }) rest rfl sameCfg

/-! ### The decode engine -/

/-- The states agree in what a decode step works on. -/
structure SameDecoder (u s : State) : Prop where
  cfg : u.cfg = s.cfg
  ob : u.ob = s.ob
  dDict : u.dDict = s.dDict
  dMax : u.dMax = s.dMax
  dW : u.dW = s.dW

/-- `u` with the bytes, the dictionary and the working string that a decode step left in `t`. -/
def decodedTo (u t : State) : State := { u with ob := t.ob, dDict := t.dDict, dW := t.dW }

theorem decStep_alike {u s : State} (k : BitVec 32) (same : SameDecoder u s) :
    decStep k u = (decStep k s).map (decodedTo u) := by
  have resolve : decResolve k u = decResolve k s := by simp only [decResolve, same.dDict, same.dW]
  cases h : decResolve k s with
  | error r => rw [decStep_unresolved h, decStep_unresolved (resolve.trans h), Except.map]
  | ok entry =>
    rw [decStep_resolved h, decStep_resolved (resolve.trans h), appendObString_alike entry same.ob same.cfg]
    cases appendObString entry s with
    | error r => rfl
    | ok t => simp [Except.map, Except.bind, decodedTo, same.dDict, same.dMax, same.dW]

/-- Work that does the same to every state that agrees with `s` writes to `s` what it is said to write. -/
theorem frame_of_alike {α : Type} {work : Except Raise α} {onto : α → α} {a : α} (alike : work = work.map onto)
    (h : work = .ok a) : a = onto a := by
  rw [h] at alike
  exact Except.ok.inj alike

theorem SameDecoder.refl (s : State) : SameDecoder s s := ⟨rfl, rfl, rfl, rfl, rfl⟩

theorem decStep_frame {k : BitVec 32} {s t : State} (h : decStep k s = .ok t) : t = decodedTo s t :=
  frame_of_alike (decStep_alike k (.refl s)) h

theorem decLoop_alike {u s : State} (codes : List (BitVec 32)) (same : SameDecoder u s) :
    decLoop codes u = (decLoop codes s).map (decodedTo u) := by
  induction codes generalizing u s with
  | nil => simp [decLoop, Except.map, decodedTo, ← same.ob, ← same.dDict, ← same.dW]
  | cons k rest ih =>
    rw [decLoop_cons, decLoop_cons, decStep_alike k same]
    cases h : decStep k s with
    | error r => rfl
    | ok t =>
      have frame := decStep_frame h
      exact ih (u := decodedTo u t) ⟨same.cfg.trans (congrArg State.cfg frame).symm, rfl, rfl,
        same.dMax.trans (congrArg State.dMax frame).symm, rfl⟩

theorem decFirst_assigned {k : BitVec 32} {s : State} {entry : List (BitVec 8)} (h : s.dDict[k.toNat]? = some entry) :
    decFirst k s = appendObString entry { s with dW := entry } := by
  simp only [decFirst, h]

theorem decFirst_alike {u s : State} (k : BitVec 32) (same : SameDecoder u s) :
    decFirst k u = (decFirst k s).map (decodedTo u) := by
  cases h : s.dDict[k.toNat]? with
  | none =>
    rw [decFirst_beyond (List.getElem?_eq_none_iff.1 h), decFirst_beyond (by simpa [same.dDict] using h)]
    rfl
  | some entry =>
    rw [decFirst_assigned h, decFirst_assigned (same.dDict ▸ h),
      appendObString_alike (u := { u with dW := entry }) (s := { s with dW := entry }) entry same.ob same.cfg]
    rcases appendObString_cases entry { s with dW := entry } with e | e <;> rw [e]
    · simp [Except.map, decodedTo, ← same.dDict]
    · rfl

/-- A session of the decoder from any state with the same codes and parameters: it writes the sink and the engine. -/
theorem decodeCodes_alike {u s : State} (m : BitVec 32) (sameCb : u.cb = s.cb) (sameCfg : u.cfg = s.cfg) :
    decodeCodes m u = (decodeCodes m s).map (writtenBy (.lzdDecode m) · u) := by
  unfold decodeCodes
  rw [sameCb]
  cases s.cb with
  | nil => rfl
  | cons k0 rest =>
    have opened : SameDecoder (openDecodeLzw m u) (openDecodeLzw m s) := ⟨sameCfg, rfl, rfl, rfl, rfl⟩
    simp only [decFirst_alike k0 opened]
    cases hfirst : decFirst k0 (openDecodeLzw m s) with
    | error r => rfl
    | ok t =>
      have first : t = decodedTo (openDecodeLzw m s) t := frame_of_alike (decFirst_alike k0 (.refl _)) hfirst
      have handed : SameDecoder (decodedTo (openDecodeLzw m u) t) t :=
        ⟨sameCfg.trans (congrArg State.cfg first).symm, rfl, rfl, (congrArg State.dMax first).symm, rfl⟩
      change decLoop rest (decodedTo (openDecodeLzw m u) t) = (decLoop rest t).map _
      rw [decLoop_alike rest handed]
      cases hloop : decLoop rest t with
      | error r => rfl
      | ok v =>
        have loop : v = decodedTo t v := frame_of_alike (decLoop_alike rest (.refl t)) hloop
        have acc : v.acc = 0#8 := (congrArg State.acc loop).trans (congrArg State.acc first)
        have nacc : v.nacc = 0#3 := (congrArg State.nacc loop).trans (congrArg State.nacc first)
        have dMax : v.dMax = m := (congrArg State.dMax loop).trans (congrArg State.dMax first)
        simp [Except.map, writtenBy, decodedTo, openDecodeLzw, openSinkOb, acc, nacc, dMax]

/-! ### The encode engine -/

theorem encFinish_frame {s t : State} (h : encFinish s = .ok t) : t = { s with cb := t.cb } := by
  by_cases nothing : s.eW = []
  · rw [encFinish_nil nothing] at h
    rw [← Except.ok.inj h]
  · rw [encFinish_pending nothing] at h
    exact frame_of_alike (appendCb_alike _ rfl rfl) h

theorem encStep_cfg {c : BitVec 8} {s t : State} (h : encStep c s = .ok t) : t.cfg = s.cfg := by
  rcases encStep_cases c s with ⟨-, e⟩ | ⟨-, -, e⟩ | ⟨-, -, e⟩ <;> cases e.symm.trans h <;> rfl

theorem encLoop_cfg {text : List (BitVec 8)} {s t : State} (h : encLoop text s = .ok t) : t.cfg = s.cfg := by
  induction text generalizing s with
  | nil =>
    cases h
    rfl
  | cons c rest ih =>
    rw [encLoop_cons, bind_eq_ok] at h
    obtain ⟨u, hstep, hrest⟩ := h
    exact (ih hrest).trans (encStep_cfg hstep)

theorem encodeText_cfg {m : BitVec 32} {s v : State} (h : encodeText m s = .ok v) : v.cfg = s.cfg := by
  obtain ⟨t, hloop, hfinish⟩ := bind_eq_ok.1 h
  have loop : t.cfg = s.cfg := encLoop_cfg (s := openEncode m s) hloop
  rw [encFinish_frame hfinish]
  exact loop

/-- A session of the encoder from any state with the same text and parameters: it writes `CB` and the engine. -/
theorem encodeText_alike {u s : State} (m : BitVec 32) (sameIb : u.ib = s.ib) (sameCfg : u.cfg = s.cfg) :
    encodeText m u = (encodeText m s).map (writtenBy (.lzeEncode m) · u) := by
  rw [encodeText_encodeOnto m sameIb.symm sameCfg.symm]
  cases h : encodeText m s with
  | error r => rfl
  | ok v => simp [Except.map, encodeOnto, writtenBy, encodeText_cfg h, sameCfg]

/-! ### The tree walk -/

/-- The states agree in what the walk works on. -/
structure SameWalk (u s : State) : Prop where
  cfg : u.cfg = s.cfg
  ib : u.ib = s.ib
  tree : u.tree = s.tree
  treeN : u.treeN = s.treeN
  ibPtr : u.ibPtr = s.ibPtr
  bitbuf : u.bitbuf = s.bitbuf
  bitcnt : u.bitcnt = s.bitcnt
  ob : u.ob = s.ob

/-- `u` with the source and the bytes that the walk left in `t`. -/
def walkedTo (u t : State) : State :=
  { u with ibPtr := t.ibPtr, bitbuf := t.bitbuf, bitcnt := t.bitcnt, ob := t.ob }

theorem SameWalk.refl (s : State) : SameWalk s s := ⟨rfl, rfl, rfl, rfl, rfl, rfl, rfl, rfl⟩

theorem SameWalk.unmoved {u s : State} (same : SameWalk u s) : walkedTo u s = u := by
  simp [walkedTo, ← same.ibPtr, ← same.bitbuf, ← same.bitcnt, ← same.ob]

/-- The states still agree after both moved to `t`, which agrees with `s` in what the walk does not move. -/
theorem SameWalk.moved {u s t : State} (same : SameWalk u s) (frame : t = walkedTo s t) :
    SameWalk (walkedTo u t) t :=
  ⟨same.cfg.trans (congrArg State.cfg frame).symm, same.ib.trans (congrArg State.ib frame).symm,
    same.tree.trans (congrArg State.tree frame).symm, same.treeN.trans (congrArg State.treeN frame).symm,
    rfl, rfl, rfl, rfl⟩

theorem readBit_alike {u s : State} (same : SameWalk u s) :
    readBit u = (readBit s).map fun p => (p.1, walkedTo u p.2) := by
  rcases readBit_cases s with ⟨empty, atEnd, h⟩ | ⟨empty, byte, hbyte, h⟩ | ⟨buffered, h⟩
  · rw [h, (readBit_eq_none_iff u).2 ⟨same.bitcnt.trans empty, by rwa [same.ib, same.ibPtr]⟩]
    rfl
  · rw [h, readBit_refill (same.bitcnt.trans empty) (by rwa [same.ib, same.ibPtr])]
    simp [walkedTo, same.ob, same.ibPtr]
  · rw [h]
    simp [readBit, same.bitcnt, same.bitbuf, buffered, bitAt, walkedTo, same.ob, same.ibPtr]

theorem fetchNode_alike {u s : State} (i : BitVec 9) (same : SameWalk u s) : fetchNode i u = fetchNode i s := by
  simp only [fetchNode, same.tree, same.treeN]

/-- The child of a node on a bit (42_huffman_decoder.md R125). -/
def childOn (b : Bool) (w : BitVec 32) : BitVec 9 := if b then nodeRight w else nodeLeft w

/-- Entering the node `i` of word `v`: a leaf emits its symbol and the walk is back at the root
(42_huffman_decoder.md R125). -/
def enter (root i : BitVec 9) (v : BitVec 32) (s : State) : Except Raise (BitVec 9 × State) :=
  if nodeIsLeaf v then (appendOb (nodeSym v) s).map fun t => (root, t) else .ok (i, s)

/-- A step of the walk fetches the current node, then its child, and enters the child. -/
theorem walkStep_eq (root cur : BitVec 9) (b : Bool) (s : State) : walkStep root cur b s =
    (fetchNode cur s).bind fun w => (fetchNode (childOn b w) s).bind fun v => enter root (childOn b w) v s := by
  unfold walkStep
  cases fetchNode cur s with
  | error r => rfl
  | ok w =>
    change (match fetchNode (childOn b w) s with | .error r => _ | .ok v => _) = (fetchNode (childOn b w) s).bind _
    cases fetchNode (childOn b w) s with
    | error r => rfl
    | ok v =>
      by_cases leaf : nodeIsLeaf v
      · cases h : appendOb (nodeSym v) s <;> simp [Except.bind, enter, leaf, h, Except.map]
      · simp [Except.bind, enter, leaf]
        rfl

theorem enter_alike {u s : State} (root i : BitVec 9) (v : BitVec 32) (same : SameWalk u s) :
    enter root i v u = (enter root i v s).map fun p => (p.1, walkedTo u p.2) := by
  unfold enter
  by_cases leaf : nodeIsLeaf v
  · rw [if_pos leaf, if_pos leaf, appendOb_alike _ same.ob same.cfg]
    rcases appendOb_cases (nodeSym v) s with ⟨_, h⟩ | ⟨_, h⟩ <;> rw [h]
    · rfl
    · simp [Except.map, walkedTo, ← same.ibPtr, ← same.bitbuf, ← same.bitcnt]
  · simp [leaf, Except.map, same.unmoved]

theorem walkStep_alike {u s : State} (root cur : BitVec 9) (b : Bool) (same : SameWalk u s) :
    walkStep root cur b u = (walkStep root cur b s).map fun p => (p.1, walkedTo u p.2) := by
  rw [walkStep_eq, walkStep_eq, fetchNode_alike cur same]
  cases fetchNode cur s with
  | error r => rfl
  | ok w =>
    change (fetchNode (childOn b w) u).bind _ = ((fetchNode (childOn b w) s).bind _).map _
    rw [fetchNode_alike _ same]
    cases fetchNode (childOn b w) s with
    | error r => rfl
    | ok v => exact enter_alike root (childOn b w) v same

theorem walk_alike {u s : State} (fuel : Nat) (root : BitVec 9) (expected : BitVec 32) (cur : BitVec 9)
    (same : SameWalk u s) : walk fuel root expected cur u =
      (walk fuel root expected cur s).map fun e => { e with after := walkedTo u e.after } := by
  induction fuel generalizing cur u s with
  | zero => simp [walk, Except.map, same.unmoved]
  | succ fuel ih =>
    by_cases more : s.ob.length < expected.toNat
    · have moreU : u.ob.length < expected.toNat := same.ob ▸ more
      have sameRead := readBit_alike same
      cases hread : readBit s with
      | none =>
        rw [hread] at sameRead
        simp [walk, more, moreU, hread, sameRead, Except.map, same.unmoved]
      | some p =>
        obtain ⟨b, t⟩ := p
        rw [hread] at sameRead
        have read : t = walkedTo s t := by
          rw [readBit_frame hread]
          rfl
        rw [walk_bit more hread, walk_bit moreU sameRead, walkStep_alike root cur b (same.moved read)]
        cases hstep : walkStep root cur b t with
        | error r => rfl
        | ok q =>
          have stepped : q = (q.1, walkedTo t q.2) := frame_of_alike (walkStep_alike root cur b (.refl t)) hstep
          exact ih q.1 ((same.moved read).moved (congrArg Prod.snd stepped))
    · have enoughU : ¬ u.ob.length < expected.toNat := same.ob ▸ more
      simp [walk, more, enoughU, Except.map, same.unmoved]

end Sys2Proof.Machine
end

/-! Proofs: every command but `RST` writes only what it is named for, whatever the input and the hidden strings are
(10_state.md sections 4 to 8, R26) -/
section

namespace Sys2Proof.Machine

open Sys2Proof.Claims

theorem registerAt_withHidden {s m : State} (addr : BitVec 8) (sameE : m.eDict.length = s.eDict.length)
    (sameD : m.dDict.length = s.dDict.length) : registerAt addr (withHidden m s) = registerAt addr s := by
  have sizeE : eSize (withHidden m s) = eSize s := congrArg (BitVec.ofNat 32) sameE
  have sizeD : dSize (withHidden m s) = dSize s := congrArg (BitVec.ofNat 32) sameD
  simp only [registerAt, sizeE, sizeD]
  rfl

/-- A rule that works on a copy and answers a value of it. -/
theorem ruleAlike_of_work {i : Instr} {work : State → Except Raise State} {s m : State} (val : State → BitVec 32)
    (sameVal : ∀ v u, val (writtenBy i v u) = val v)
    (alike : work (withHidden m s) = (work s).map (writtenBy i · (withHidden m s))) :
    RuleAlike i (fun t => match work t with | .ok u => okReply (val u) u | .error r => .error r) s
      (withHidden m s) := by
  simp only [RuleAlike, alike]
  cases work s with
  | error r => rfl
  | ok v => simp [Except.map, okReply, sameVal]

/-- The packer's bit, case by case of R101. -/
theorem exec_bspWbit_actsAlike {s t : State} (m : State) {value : BitVec 32} (ready : s.fault = 0#8)
    (h : exec (.bspWbit value) s = .next t) :
    ActsAlike (.bspWbit value) s t (withHidden m s) (exec (.bspWbit value) (withHidden m s)) := by
  by_cases bit : IsBit value
  · by_cases pending : s.nacc.toNat < 7
    · cases (exec_bspWbit_pending ready bit pending).symm.trans h
      rw [exec_bspWbit_pending (s := withHidden m s) ready bit pending]
      exact actsAlike_of_ended .ok _ rfl
    · have eighth : s.nacc.toNat = 7 := by
        have := s.nacc.isLt
        omega
      by_cases full : s.ob.length = s.cfg.obCap
      · cases (exec_bspWbit_eighth_full ready bit eighth full).symm.trans h
        rw [exec_bspWbit_eighth_full (s := withHidden m s) ready bit eighth full]
        exact actsAlike_faulted _ _ _
      · cases (exec_bspWbit_eighth_room ready bit eighth full).symm.trans h
        rw [exec_bspWbit_eighth_room (s := withHidden m s) ready bit eighth full]
        exact actsAlike_of_ended .ok _ rfl
  · obtain ⟨h0, h1⟩ := not_or.1 bit
    cases (exec_bspWbit_invalid ready h0 h1).symm.trans h
    rw [exec_bspWbit_invalid (s := withHidden m s) ready h0 h1]
    exact actsAlike_faulted _ _ _

/-- The flush, case by case of R104. -/
theorem exec_bspFlush_actsAlike {s t : State} (m : State) (ready : s.fault = 0#8) (h : exec .bspFlush s = .next t) :
    ActsAlike .bspFlush s t (withHidden m s) (exec .bspFlush (withHidden m s)) := by
  by_cases none : s.nacc = 0#3
  · cases (exec_bspFlush_none ready none).symm.trans h
    rw [exec_bspFlush_none (s := withHidden m s) ready none]
    exact actsAlike_of_ended .ok _ rfl
  · by_cases full : s.ob.length = s.cfg.obCap
    · cases (exec_bspFlush_full ready none full).symm.trans h
      rw [exec_bspFlush_full (s := withHidden m s) ready none full]
      exact actsAlike_faulted _ _ _
    · cases (exec_bspFlush_room ready none full).symm.trans h
      rw [exec_bspFlush_room (s := withHidden m s) ready none full]
      exact actsAlike_of_ended .ok _ rfl

/-- The decoder, with the walk on the two states (42_huffman_decoder.md R126, R127). -/
theorem exec_htdDecode_actsAlike {s t : State} (m : State) {count : BitVec 32} (ready : s.fault = 0#8)
    (h : exec (.htdDecode count) s = .next t) :
    ActsAlike (.htdDecode count) s t (withHidden m s) (exec (.htdDecode count) (withHidden m s)) := by
  by_cases noTree : s.treeN = 0#10
  · cases (exec_htdDecode_noTree count ready noTree).symm.trans h
    rw [exec_htdDecode_noTree (s := withHidden m s) count ready noTree]
    exact actsAlike_faulted _ _ _
  cases root : fetchNode s.treeRoot s with
  | error r =>
    cases (exec_htdDecode_badRoot count ready noTree root).symm.trans h
    rw [exec_htdDecode_badRoot (s := withHidden m s) count ready noTree root]
    exact actsAlike_faulted _ _ _
  | ok w =>
    cases leaf : nodeIsLeaf w with
    | true =>
      cases (exec_htdDecode_leaf count ready root leaf).symm.trans h
      rw [exec_htdDecode_leaf (s := withHidden m s) count ready root leaf]
      refine concluded_actsAlike 0x40#8 (work := fun v => emitRoot count w v) (fun _ _ => rfl) fun m => ?_
      unfold emitRoot
      rw [appendObString_alike (u := openDecode count (withHidden m s)) (s := openDecode count s) _ rfl rfl]
      have appended := appendObString_cases (List.replicate count.toNat (nodeSym w)) (openDecode count s)
      rcases appended with e | e <;> rw [e] <;> rfl
    | false =>
      have same : SameWalk (openDecode count (withHidden m s)) (openDecode count s) :=
        ⟨rfl, rfl, rfl, rfl, rfl, rfl, rfl, rfl⟩
      have walked := walk_alike (walkFuel s) s.treeRoot count s.treeRoot same
      cases (exec_htdDecode_walk count ready root leaf).symm.trans h
      rw [exec_htdDecode_walk (s := withHidden m s) count ready root leaf]
      unfold walkConcluded
      change ActsAlike _ _ _ _ (.next
        (match walk (walkFuel s) s.treeRoot count s.treeRoot (openDecode count (withHidden m s)) with
        | .ok e => _ | .error r => _))
      cases hwalk : walk (walkFuel s) s.treeRoot count s.treeRoot (openDecode count s) with
      | error r =>
        rw [hwalk] at walked
        rw [walked]
        exact actsAlike_faulted _ _ _
      | ok e =>
        rw [hwalk] at walked
        rw [walked]
        have frame := congrArg WalkEnd.after (frame_of_alike (walk_alike _ s.treeRoot count s.treeRoot (.refl _)) hwalk)
        have acc : e.after.acc = 0#8 := congrArg State.acc frame
        have nacc : e.after.nacc = 0#3 := congrArg State.nacc frame
        have exp : e.after.htdExp = count := congrArg State.htdExp frame
        have written (u : State) : { walkedTo (openDecode count u) e.after with htdCur := e.cur } =
            writtenBy (.htdDecode count) { e.after with htdCur := e.cur } u := by
          simp [walkedTo, openDecode, openSinkOb, openSourceIb, writtenBy, acc, nacc, exp]
        have ended := actsAlike_of_ended (i := .htdDecode count) (m := m) (if e.eos then .eos else .ok) (obLen e.after)
          ((congrArg (fun v : State => { v with htdCur := e.cur }) frame).trans (written s))
        rw [← written (withHidden m s)] at ended
        exact ended

/-- The LZW engines, the check of `M` first. -/
theorem exec_lzeEncode_actsAlike {s t : State} (m : State) {max : BitVec 32} (ready : s.fault = 0#8)
    (h : exec (.lzeEncode max) s = .next t) :
    ActsAlike (.lzeEncode max) s t (withHidden m s) (exec (.lzeEncode max) (withHidden m s)) := by
  cases legal : badMax max s with
  | true =>
    cases (exec_lzeEncode_badMax ready legal).symm.trans h
    rw [exec_lzeEncode_badMax (s := withHidden m s) ready legal]
    exact actsAlike_faulted _ _ _
  | false =>
    cases (exec_lzeEncode_legalMax ready legal).symm.trans h
    rw [exec_lzeEncode_legalMax (s := withHidden m s) ready legal]
    exact concluded_actsAlike 0x50#8 (fun _ _ => rfl) fun m => encodeText_alike max rfl rfl

theorem exec_lzdDecode_actsAlike {s t : State} (m : State) {max : BitVec 32} (ready : s.fault = 0#8)
    (h : exec (.lzdDecode max) s = .next t) :
    ActsAlike (.lzdDecode max) s t (withHidden m s) (exec (.lzdDecode max) (withHidden m s)) := by
  cases legal : badMax max s with
  | true =>
    cases (exec_lzdDecode_badMax ready legal).symm.trans h
    rw [exec_lzdDecode_badMax (s := withHidden m s) ready legal]
    exact actsAlike_faulted _ _ _
  | false =>
    cases (exec_lzdDecode_legalMax ready legal).symm.trans h
    rw [exec_lzdDecode_legalMax (s := withHidden m s) ready legal]
    exact concluded_actsAlike 0x51#8 (fun _ _ => rfl) fun m => decodeCodes_alike max rfl rfl

theorem exec_cpkPack_actsAlike {s t : State} (m : State) (ready : s.fault = 0#8) (h : exec .cpkPack s = .next t) :
    ActsAlike .cpkPack s t (withHidden m s) (exec .cpkPack (withHidden m s)) := by
  cases (exec_cpkPack_ready ready).symm.trans h
  rw [exec_cpkPack_ready (s := withHidden m s) ready]
  refine concluded_actsAlike 0x52#8 (work := fun v => packLoop v.cb (openSinkOb v)) (fun _ _ => rfl) fun m => ?_
  change packLoop s.cb (openSinkOb (withHidden m s)) = _
  rw [packLoop_eq_appendObString, packLoop_eq_appendObString,
    appendObString_alike (u := openSinkOb (withHidden m s)) (s := openSinkOb s) _ rfl rfl]
  rcases appendObString_cases (packedBytes s.cb) (openSinkOb s) with e | e <;> rw [e] <;> rfl

theorem exec_cupUnpack_actsAlike {s t : State} (m : State) (ready : s.fault = 0#8) (h : exec .cupUnpack s = .next t) :
    ActsAlike .cupUnpack s t (withHidden m s) (exec .cupUnpack (withHidden m s)) := by
  rcases Nat.mod_two_eq_zero_or_one s.ib.length with even | odd
  · cases (exec_cupUnpack_even ready even).symm.trans h
    rw [exec_cupUnpack_even (s := withHidden m s) ready even]
    exact concluded_actsAlike 0x53#8 (work := fun v => unpackLoop v.ib { v with cb := [] }) (fun _ _ => rfl) fun m =>
      unpackLoop_alike (u := { withHidden m s with cb := [] }) (s := { s with cb := [] }) s.ib rfl rfl
  · cases (exec_cupUnpack_odd ready odd).symm.trans h
    rw [exec_cupUnpack_odd (s := withHidden m s) ready odd]
    exact actsAlike_faulted _ _ _

/-- A bit or the end of the stream (41_bitstream.md R108). -/
theorem exec_bsuRbit_actsAlike {s t : State} (m : State) (ready : s.fault = 0#8) (h : exec .bsuRbit s = .next t) :
    ActsAlike .bsuRbit s t (withHidden m s) (exec .bsuRbit (withHidden m s)) := by
  have same := readBit_alike (u := withHidden m s) (s := s) ⟨rfl, rfl, rfl, rfl, rfl, rfl, rfl, rfl⟩
  cases hread : readBit s with
  | none =>
    rw [hread] at same
    cases (exec_bsuRbit_eos ready hread).symm.trans h
    rw [exec_bsuRbit_eos (s := withHidden m s) ready same]
    exact actsAlike_of_ended .eos 0#32 rfl
  | some p =>
    rw [hread] at same
    have frame := readBit_frame hread
    have written (u : State) (sameOb : u.ob = s.ob) : walkedTo u p.2 = writtenBy .bsuRbit p.2 u := by
      have ob := congrArg State.ob frame
      simp [walkedTo, writtenBy, sameOb, ob]
    cases (exec_bsuRbit_of_readBit ready hread).symm.trans h
    rw [exec_bsuRbit_of_readBit (s := withHidden m s) ready same, written (withHidden m s) rfl]
    exact actsAlike_of_ended .ok _ frame

/-- Every command but `RST` writes what it is named for, and the same whatever the input and the hidden strings are. -/
theorem exec_actsAlike {i : Instr} {s t m : State} (notRst : i ≠ .rst) (sameE : m.eDict.length = s.eDict.length)
    (sameD : m.dDict.length = s.dDict.length) (h : exec i s = .next t) :
    ActsAlike i s t (withHidden m s) (exec i (withHidden m s)) := by
  by_cases hcsrr : ∃ addr, i = .csrr addr
  · obtain ⟨addr, rfl⟩ := hcsrr
    have sameRegister := registerAt_withHidden addr sameE sameD
    cases hv : registerAt addr s with
    | some v =>
      cases (exec_csrr_defined hv).symm.trans h
      rw [exec_csrr_defined (sameRegister.trans hv)]
      exact actsAlike_of_ended .ok v rfl
    | none =>
      rw [exec_csrr_undefined hv] at h
      rw [exec_csrr_undefined (sameRegister.trans hv)]
      exact runRule_actsAlike h fun _ => rfl
  have notCsrr := not_exists.1 hcsrr
  by_cases stopped : s.fault ≠ 0#8
  · cases (exec_halted_refused stopped notRst notCsrr).symm.trans h
    rw [exec_halted_refused (s := withHidden m s) stopped notRst notCsrr]
    exact actsAlike_refused
  have ready : s.fault = 0#8 := not_not.1 stopped
  cases i
  case rst => exact absurd rfl notRst
  case csrr addr => exact absurd rfl (notCsrr addr)
  case bspWbit value => exact exec_bspWbit_actsAlike m ready h
  case bspFlush => exact exec_bspFlush_actsAlike m ready h
  case lzeEncode max => exact exec_lzeEncode_actsAlike m ready h
  case lzdDecode max => exact exec_lzdDecode_actsAlike m ready h
  case cpkPack => exact exec_cpkPack_actsAlike m ready h
  case cupUnpack => exact exec_cupUnpack_actsAlike m ready h
  case htdDecode count => exact exec_htdDecode_actsAlike m ready h
  case bsuRbit => exact exec_bsuRbit_actsAlike m ready h
  all_goals simp only [exec] at h ⊢
  all_goals refine runRule_actsAlike h fun m => ?_
  case nop | ibClr | cbClr | treeClr | bspOpen | bsuOpen => rfl
  case ibPush byte => exact ruleAlike_of_work ibLen (fun _ _ => rfl) (appendIb_alike byte rfl rfl)
  case cbPush code => exact ruleAlike_of_work cbLen (fun _ _ => rfl) (appendCb_alike code rfl rfl)
  all_goals simp only [RuleAlike, withHidden]
  case ibRd idx => cases readElement s.ib idx <;> rfl
  case obRd idx => cases readElement s.ob idx <;> rfl
  case cbRd idx => cases readElement s.cb idx <;> rfl
  case treeRd idx => cases treeRead s.tree idx.toNat <;> rfl
  case treeWr | treeCfg => split_ifs <;> rfl

end Sys2Proof.Machine
end

/-! Proofs: what holds of every command and every step because of what commands write and look at (00_scope.md R3, R6,
10_state.md R14 to R23, R26, 30_encoding.md R63) -/
section

namespace Sys2Proof.Machine

open Sys2Proof.Claims

/-- A command on the same state twice: what it wrote. -/
theorem exec_frame {i : Instr} {s t : State} (notRst : i ≠ .rst) (h : exec i s = .next t) :
    t = withLatch t (writtenBy i t s) ∨ t = withLatch t s :=
  (exec_actsAlike (m := s) notRst rfl rfl h).2.imp And.left And.left

/-- A field outside the latch and the responses that the command is not named for keeps its value. -/
theorem exec_keeps {i : Instr} {s t : State} {α : Type} (field : State → α)
    (notLatch : ∀ t v, field (withLatch t v) = field v) (notRst : i ≠ .rst) (h : exec i s = .next t)
    (notWritten : field (writtenBy i t s) = field s) : field t = field s := by
  rcases exec_frame notRst h with e | e
  · rw [e, notLatch, notWritten]
  · rw [e, notLatch]

theorem exec_cfg {i : Instr} {s t : State} (h : exec i s = .next t) : t.cfg = s.cfg := by
  by_cases rst : i = .rst
  · subst rst
    cases h
    rfl
  · exact exec_keeps State.cfg (fun _ _ => rfl) rst h (writtenBy_cfg i t s)

/-- `s` with something else presented by the host. -/
def withInput (x : List HostEvent) (s : State) : State := { s with input := x }

/-- What the host presents does not matter, and is not touched (log 2). -/
theorem exec_input {i : Instr} {s t : State} (x : List HostEvent) (h : exec i s = .next t) :
    t.input = s.input ∧ exec i (withInput x s) = .next (withInput x t) := by
  by_cases rst : i = .rst
  · subst rst
    cases h
    exact ⟨rfl, rfl⟩
  · refine ⟨exec_keeps State.input (fun _ _ => rfl) rst h (writtenBy_input i t s), ?_⟩
    obtain ⟨-, ⟨frame, alike⟩ | ⟨frame, alike⟩⟩ := exec_actsAlike (s := s) (m := withInput x s) rst rfl rfl h
    · have apart : withLatch t (writtenBy i t (withInput x s)) = withInput x (withLatch t (writtenBy i t s)) := by
        cases i <;> rfl
      exact alike.trans (congrArg _ (apart.trans (congrArg (withInput x) frame.symm)))
    · exact alike.trans (congrArg (Host.Outcome.next ∘ withInput x) frame.symm)

/-- Every command gives one response. -/
theorem exec_responds {i : Instr} {s t : State} (h : exec i s = .next t) :
    ∃ st val, t.rsps = s.rsps ++ [responseWord st val] := by
  by_cases rst : i = .rst
  · subst rst
    cases h
    exact ⟨.ok, 0#32, rfl⟩
  · exact (exec_actsAlike (m := s) rst rfl rfl h).1

/-! ### Words -/

/-- An illegal word in the statements' forms (60_exceptions.md R202, R204). -/
theorem runIllegal_eq (w : BitVec 64) (s : State) :
    runIllegal w s = if s.fault = 0#8 then faulted 0x01#8 (bOf w) (opcOf w) s else refused s := by
  by_cases ready : s.fault = 0#8
  · rw [if_pos ready, runIllegal, (halted_eq_false_iff s).2 ready]
    rfl
  · rw [if_neg ready, runIllegal, (halted_eq_true_iff s).2 ready]
    rfl

theorem acceptCommand_cfg {w : BitVec 64} {s t : State} (h : acceptCommand w s = .next t) : t.cfg = s.cfg := by
  cases hw : decode w with
  | ok i => exact exec_cfg (acceptCommand_legal hw s ▸ h)
  | error e =>
    simp only [acceptCommand, hw, Host.Outcome.next.injEq, runIllegal_eq] at h
    subst h
    split_ifs <;> rfl

theorem acceptCommand_input {w : BitVec 64} {s t : State} (x : List HostEvent) (h : acceptCommand w s = .next t) :
    t.input = s.input ∧ acceptCommand w (withInput x s) = .next (withInput x t) := by
  cases hw : decode w with
  | ok i =>
    rw [acceptCommand_legal hw] at h ⊢
    exact exec_input x h
  | error e =>
    have sameFault : (withInput x s).fault = s.fault := rfl
    simp only [acceptCommand, hw, Host.Outcome.next.injEq, runIllegal_eq, sameFault] at h ⊢
    subst h
    split_ifs <;> exact ⟨rfl, rfl⟩

theorem acceptCommand_responds {w : BitVec 64} {s t : State} (h : acceptCommand w s = .next t) :
    ∃ st val, t.rsps = s.rsps ++ [responseWord st val] := by
  cases hw : decode w with
  | ok i => exact exec_responds (acceptCommand_legal hw s ▸ h)
  | error e =>
    simp only [acceptCommand, hw, Host.Outcome.next.injEq, runIllegal_eq] at h
    subst h
    split_ifs
    · exact ⟨.fault, _, rfl⟩
    · exact ⟨.halted, _, rfl⟩

theorem stCode_le (st : Status) : (stCode st).toNat ≤ 3 := by cases st <;> decide

/-! ### Hidden strings -/

/-- The second state is the first with other strings in dictionaries of the same sizes. -/
theorem sameButHidden_iff (s u : State) : SameButHidden s u ↔ ∃ eDict eW dDict dW,
    u = { s with eDict := eDict, eW := eW, dDict := dDict, dW := dW } ∧
      eDict.length = s.eDict.length ∧ dDict.length = s.dDict.length := by
  constructor
  · exact fun same => ⟨_, _, _, _, same⟩
  · rintro ⟨eDict, eW, dDict, dW, rfl, sizes⟩
    exact ⟨rfl, sizes⟩

/-- A command leaves the two states with the same strings where it writes them, and elsewhere as they were. -/
theorem sameButHidden_writtenBy {s u : State} (i : Instr) (t : State) (same : SameButHidden s u) :
    SameButHidden (withLatch t (writtenBy i t s)) (withLatch t (writtenBy i t u)) := by
  obtain ⟨eDict, eW, dDict, dW, rfl, sameE, sameD⟩ := (sameButHidden_iff s u).1 same
  cases i <;> simp [SameButHidden, withLatch, writtenBy, sameE, sameD]

theorem ActsAlike.sameButHidden {i : Instr} {s t u : State} {o : Host.Outcome State Fault Refusal}
    (same : SameButHidden s u) (h : ActsAlike i s t u o) : ∃ u', o = .next u' ∧ SameButHidden t u' := by
  obtain ⟨-, ⟨frame, rfl⟩ | ⟨frame, rfl⟩⟩ := h
  · have written := sameButHidden_writtenBy i t same
    rw [← frame] at written
    exact ⟨_, rfl, written⟩
  · have stopped := sameButHidden_writtenBy .nop t same
    exact ⟨_, rfl, frame ▸ stopped⟩

theorem exec_sameButHidden {i : Instr} {s t u : State} (same : SameButHidden s u) (h : exec i s = .next t) :
    ∃ u', exec i u = .next u' ∧ SameButHidden t u' := by
  have hidden : withHidden u s = u := by
    obtain ⟨_, _, _, _, rfl, -⟩ := (sameButHidden_iff s u).1 same
    rfl
  obtain ⟨overlay, sameE, sameD⟩ := same
  by_cases rst : i = .rst
  · subst rst
    cases h
    refine ⟨_, rfl, ?_⟩
    rw [overlay]
    exact ⟨rfl, rfl, rfl⟩
  · have alike := exec_actsAlike (m := u) rst sameE sameD h
    rw [hidden] at alike
    exact alike.sameButHidden ⟨overlay, sameE, sameD⟩

theorem acceptCommand_sameButHidden {w : BitVec 64} {s t u : State} (same : SameButHidden s u)
    (h : acceptCommand w s = .next t) : ∃ u', acceptCommand w u = .next u' ∧ SameButHidden t u' := by
  cases hw : decode w with
  | ok i =>
    rw [acceptCommand_legal hw] at h ⊢
    exact exec_sameButHidden same h
  | error e =>
    obtain ⟨overlay, sameE, sameD⟩ := same
    have sameFault : u.fault = s.fault := by rw [overlay]
    simp only [acceptCommand, hw, Host.Outcome.next.injEq, runIllegal_eq, sameFault] at h ⊢
    subst h
    refine ⟨_, rfl, ?_⟩
    split_ifs <;> rw [overlay] <;> exact ⟨rfl, sameE, sameD⟩

end Sys2Proof.Machine

open Sys2Proof Sys2Proof.Machine Sys2Proof.Claims

/-- Settles O12: the word taken gives one response, on top of the earlier ones, and leaves the input alone. -/
theorem oneResponsePerCommand : Obligations.OneResponsePerCommand := by
  unfold Obligations.OneResponsePerCommand
  intro s t w rest presented h
  rw [step_command presented] at h
  obtain ⟨st, val, hrsps⟩ := acceptCommand_responds h
  exact ⟨(acceptCommand_input [] h).1, stCode st, val, hrsps, stCode_le st⟩

/-- Settles O13: no command is named for the parameters, and no address of `CSRR` reads them. -/
theorem parametersNeverChange : Obligations.ParametersNeverChange := by
  unfold Obligations.ParametersNeverChange
  refine ⟨fun s t h => ?_, fun a s c => rfl⟩
  cases presented : s.input with
  | nil =>
    cases (step_idle presented).symm.trans h
    rfl
  | cons e rest =>
    cases e with
    | command w =>
      rw [step_command presented] at h
      exact acceptCommand_cfg (s := { s with input := rest }) h
    | hardwareReset =>
      cases (step_hardwareReset presented).symm.trans h
      rfl

/-- Settles O14, word by word: a step takes the first word, and accepting it does the same whatever else is
presented. -/
theorem runIsTheFoldOfTheCommands : Obligations.RunIsTheFoldOfTheCommands := by
  unfold Obligations.RunIsTheFoldOfTheCommands
  intro ws
  induction ws with
  | nil =>
    intro s presented
    have noInput : s.input = [] := presented
    exact ⟨s, rfl, noInput, rfl, by rw [← noInput]; rfl⟩
  | cons w rest ih =>
    intro s presented
    have first := step_command (s := s) presented
    obtain ⟨u, hu⟩ := acceptCommand_next w { s with input := rest.map .command }
    obtain ⟨input, alone⟩ := acceptCommand_input [] hu
    obtain ⟨st, val, hrsps⟩ := acceptCommand_responds hu
    obtain ⟨t, hrun, hinput, hcount, hfold⟩ := ih u input
    refine ⟨t, ?_, hinput, ?_, ?_⟩
    · have stepped : Host.Core.step core s = .next u := first.trans hu
      simp only [List.length_cons, Host.Core.run, stepped]
      exact hrun
    · rw [hcount, hrsps]
      simp only [List.length_append, List.length_cons, List.length_nil]
      omega
    · have accepted : acceptCommand w { s with input := [] } = .next { u with input := [] } := alone
      simp only [runCommands, accepted]
      exact hfold

/-- Settles O18, one piece of state after the other: it is none of the fields that `writtenBy` takes for the command. -/
theorem onlyTheNamedCommandsWriteEachState : Obligations.OnlyTheNamedCommandsWriteEachState := by
  unfold Obligations.OnlyTheNamedCommandsWriteEachState
  intro i s t h notRst
  have kept {α : Type} (field : State → α) (notLatch : ∀ t v, field (withLatch t v) = field v)
      (notWritten : field (writtenBy i t s) = field s) : field t = field s :=
    exec_keeps field notLatch notRst h notWritten
  refine ⟨fun other => ?ib, fun other => ⟨?ibPtr, ?bitbuf, ?bitcnt⟩, fun other => ⟨?ob, ?acc, ?nacc⟩, fun other => ?cb,
    fun other => ?tree, fun other => ⟨?treeN, ?treeRoot⟩, fun other => ?htdCur, fun other => ?htdExp,
    fun other => ⟨?eDict, ?eMax, ?eW⟩, fun other => ⟨?dDict, ?dMax, ?dW⟩⟩
  all_goals
    refine kept _ (fun _ _ => rfl) ?_
    clear kept h
    cases i <;> simp_all [writtenBy]

/-- Settles O19: what the host presents is the same, and a command acts alike on the two states. -/
theorem hiddenStringsInfluenceNothing : Obligations.HiddenStringsInfluenceNothing := by
  unfold Obligations.HiddenStringsInfluenceNothing
  intro s u s' same h
  obtain ⟨overlay, sameE, sameD⟩ := same
  have sameInput : u.input = s.input := by rw [overlay]
  have sameAfter (rest : List HostEvent) : SameButHidden { s with input := rest } { u with input := rest } :=
    ⟨congrArg (withInput rest) overlay, sameE, sameD⟩
  cases presented : s.input with
  | nil =>
    cases (step_idle presented).symm.trans h
    exact ⟨u, step_idle (sameInput.trans presented), overlay, sameE, sameD⟩
  | cons e rest =>
    cases e with
    | command w =>
      rw [step_command presented] at h
      rw [step_command (sameInput.trans presented)]
      exact acceptCommand_sameButHidden (sameAfter rest) h
    | hardwareReset =>
      cases (step_hardwareReset presented).symm.trans h
      refine ⟨_, step_hardwareReset (sameInput.trans presented), ?_⟩
      rw [overlay]
      exact ⟨rfl, rfl, rfl⟩

end

/-! Proofs: the dictionary of a running LZW session (43_lzw.md R140, R144, R151) -/
section

namespace Sys2Proof.Machine

open Sys2Proof.Claims

/-- The dictionary of a session under the cap `max`: the seed entries first, and entry `j` from 256 on a string of 2 to
`j - 254` bytes (43_lzw.md R144). -/
structure Seeded (dict : List (List (BitVec 8))) (max : Nat) : Prop where
  lower : 256 ≤ dict.length
  upper : dict.length ≤ max
  seeds : ∀ j, j < 256 → dict[j]? = some [BitVec.ofNat 8 j]
  entries : ∀ j str, 256 ≤ j → dict[j]? = some str → 2 ≤ str.length ∧ str.length ≤ j - 254

/-- An entry is inserted below the cap only (43_lzw.md R143, R149). -/
def grow (max : Nat) (dict : List (List (BitVec 8))) (str : List (BitVec 8)) : List (List (BitVec 8)) :=
  if dict.length < max then dict ++ [str] else dict

theorem length_grow {max : Nat} {dict : List (List (BitVec 8))} (upper : dict.length ≤ max) (str : List (BitVec 8)) :
    (grow max dict str).length = min max (dict.length + 1) := by
  unfold grow
  split_ifs
  · simp only [List.length_append, List.length_cons, List.length_nil]
    omega
  · omega

theorem length_le_grow (max : Nat) (dict : List (List (BitVec 8))) (str : List (BitVec 8)) :
    dict.length ≤ (grow max dict str).length := by
  unfold grow
  split_ifs <;> simp

/-- An insertion leaves the earlier entries where they are. -/
theorem grow_getElem? {max j : Nat} {dict : List (List (BitVec 8))} (str : List (BitVec 8)) (h : j < dict.length) :
    (grow max dict str)[j]? = dict[j]? := by
  unfold grow
  split_ifs
  · exact List.getElem?_append_left h
  · rfl

theorem seeded_seedDict {max : Nat} (h : 256 ≤ max) : Seeded seedDict max where
  lower := seedDict_length.ge
  upper := seedDict_length.trans_le h
  seeds _ := seedDict_get
  entries j str above hj := by
    have := (List.getElem?_eq_some_iff.1 hj).1
    rw [seedDict_length] at this
    omega

section
variable {dict : List (List (BitVec 8))} {max : Nat} (seeded : Seeded dict max)
include seeded

theorem Seeded.seed (c : BitVec 8) : dict[c.toNat]? = some [c] := by
  simpa using seeded.seeds c.toNat c.isLt

theorem Seeded.mem_seed (c : BitVec 8) : [c] ∈ dict := List.mem_of_getElem? (seeded.seed c)

/-- The lengths of the entries, seed entries included. -/
theorem Seeded.entry_length {j : Nat} {str : List (BitVec 8)} (h : dict[j]? = some str) :
    1 ≤ str.length ∧ str.length ≤ dict.length - 255 := by
  have inside := (List.getElem?_eq_some_iff.1 h).1
  have lower := seeded.lower
  by_cases seed : j < 256
  · cases (seeded.seeds j seed).symm.trans h
    simp only [List.length_cons, List.length_nil]
    omega
  · obtain ⟨two, most⟩ := seeded.entries j str (by omega) h
    omega

theorem Seeded.mem_length {str : List (BitVec 8)} (h : str ∈ dict) :
    1 ≤ str.length ∧ str.length ≤ dict.length - 255 := by
  obtain ⟨j, hj⟩ := List.mem_iff_getElem?.1 h
  exact seeded.entry_length hj

theorem Seeded.mem_ne_nil {str : List (BitVec 8)} (h : str ∈ dict) : str ≠ [] :=
  List.ne_nil_of_length_pos (seeded.mem_length h).1

theorem Seeded.insert {str : List (BitVec 8)}
    (fits : dict.length < max → 2 ≤ str.length ∧ str.length ≤ dict.length - 254) : Seeded (grow max dict str) max where
  lower := seeded.lower.trans (length_le_grow max dict str)
  upper := by
    rw [length_grow seeded.upper]
    omega
  seeds j hj := (grow_getElem? str (hj.trans_le seeded.lower)).trans (seeded.seeds j hj)
  entries j entry above hj := by
    by_cases old : j < dict.length
    · exact seeded.entries j entry above ((grow_getElem? str old).symm.trans hj)
    · unfold grow at hj
      split_ifs at hj with room
      · have last : j = dict.length := by
          have := (List.getElem?_eq_some_iff.1 hj).1
          simp only [List.length_append, List.length_cons, List.length_nil] at this
          omega
        subst last
        cases (List.getElem?_concat_length).symm.trans hj
        exact fits room
      · exact absurd (List.getElem?_eq_some_iff.1 hj).1 old

/-- At the cap 256 a dictionary is the seed. -/
theorem Seeded.eq_seedDict (full : dict.length = 256) : dict = seedDict := by
  refine List.ext_getElem? fun j => ?_
  by_cases inside : j < 256
  · rw [seeded.seeds j inside, seedDict_get inside]
  · rw [List.getElem?_eq_none (by omega), List.getElem?_eq_none (by rw [seedDict_length]; omega)]

end

theorem Seeded.dictInv {dict : List (List (BitVec 8))} {max : BitVec 32} {cap : Nat} (seeded : Seeded dict max.toNat)
    (legal : max.toNat ≤ cap) : DictInv dict max cap :=
  .inr ⟨seeded.lower, seeded.upper, legal, seeded.seeds, seeded.entries⟩

/-! ### The text that codes stand for -/

theorem expand_append (dict : List (List (BitVec 8))) (a b : List (BitVec 32)) :
    expand dict (a ++ b) = expand dict a ++ expand dict b := by
  simp [expand]

theorem expand_single {dict : List (List (BitVec 8))} {k : BitVec 32} {str : List (BitVec 8)}
    (h : dict[k.toNat]? = some str) : expand dict [k] = str := by
  simp [expand, h]

theorem expand_grow {max : Nat} {dict : List (List (BitVec 8))} {codes : List (BitVec 32)} (str : List (BitVec 8))
    (assigned : ∀ k ∈ codes, k.toNat < dict.length) : expand (grow max dict str) codes = expand dict codes := by
  unfold expand
  refine List.flatMap_congr fun k hk => ?_
  rw [List.getD_eq_getElem?_getD, List.getD_eq_getElem?_getD, grow_getElem? str (assigned k hk)]

end Sys2Proof.Machine
end

/-! Proofs: the encoder's codes stand for the text it has read, in a dictionary within its bounds (43_lzw.md R142 to
R145) -/
section

namespace Sys2Proof.Machine

open Sys2Proof.Claims

/-- The encoder under the cap `m` after it has read `read`: the codes given, followed by the working string, stand for
it; the dictionary grew by one entry per code, up to the cap. -/
structure Encoding (m : BitVec 32) (read : List (BitVec 8)) (s : State) : Prop where
  eMax : s.eMax = m
  seeded : Seeded s.eDict m.toNat
  nodup : s.eDict.Nodup
  working : s.eW = [] ∧ read = [] ∨ s.eW ∈ s.eDict
  assigned : ∀ k ∈ s.cb, k.toNat < s.eDict.length
  text : expand s.eDict s.cb ++ s.eW = read
  size : s.eDict.length = min m.toNat (256 + s.cb.length)
  count : s.cb.length + s.eW.length ≤ read.length

theorem encoding_open {m : BitVec 32} (legal : 256 ≤ m.toNat) (s : State) : Encoding m [] (openEncode m s) where
  eMax := rfl
  seeded := seeded_seedDict legal
  nodup := seedDict_nodup
  working := .inl ⟨rfl, rfl⟩
  assigned := by simp
  text := rfl
  size := by simp [legal]
  count := le_refl 0

section
variable {m : BitVec 32} {read : List (BitVec 8)} {s : State} (h : Encoding m read s)
include h

/-- The code of the working string names it. -/
theorem Encoding.code_get (pending : s.eW ∈ s.eDict) : s.eDict[(codeOf s.eDict s.eW).toNat]? = some s.eW :=
  codeOf_get pending (h.seeded.upper.trans m.isLt.le)

theorem Encoding.code_lt (pending : s.eW ∈ s.eDict) : (codeOf s.eDict s.eW).toNat < s.eDict.length :=
  (List.getElem?_eq_some_iff.1 (h.code_get pending)).1

/-- A string that is new to the dictionary extends a working string that is not. -/
theorem Encoding.pending_of_new {c : BitVec 8} (new : s.eW ++ [c] ∉ s.eDict) : s.eW ∈ s.eDict := by
  rcases h.working with ⟨empty, -⟩ | pending
  · rw [empty] at new
    exact absurd (h.seeded.mem_seed c) new
  · exact pending

/-- With the working string's code given, the codes stand for all that was read. -/
theorem Encoding.text_with_code (pending : s.eW ∈ s.eDict) :
    expand s.eDict (s.cb ++ [codeOf s.eDict s.eW]) = read := by
  rw [expand_append, expand_single (h.code_get pending), h.text]

theorem Encoding.assigned_with_code (pending : s.eW ∈ s.eDict) :
    ∀ k ∈ s.cb ++ [codeOf s.eDict s.eW], k.toNat < s.eDict.length := by
  intro k hk
  rcases List.mem_append.1 hk with hk | hk
  · exact h.assigned k hk
  · exact List.mem_singleton.1 hk ▸ h.code_lt pending

/-- A string in the dictionary extends the working string. -/
theorem Encoding.known {c : BitVec 8} (known : s.eW ++ [c] ∈ s.eDict) :
    Encoding m (read ++ [c]) { s with eW := s.eW ++ [c] } where
  eMax := h.eMax
  seeded := h.seeded
  nodup := h.nodup
  working := .inr known
  assigned := h.assigned
  text := by rw [← List.append_assoc, h.text]
  size := h.size
  count := by
    have := h.count
    simp only [List.length_append, List.length_cons, List.length_nil]
    omega

/-- A string new to the dictionary gives the working string's code and is inserted below the cap. -/
theorem Encoding.new {c : BitVec 8} (new : s.eW ++ [c] ∉ s.eDict) :
    Encoding m (read ++ [c]) { s with
      cb := s.cb ++ [codeOf s.eDict s.eW], eDict := grow m.toNat s.eDict (s.eW ++ [c]), eW := [c] } where
  eMax := h.eMax
  seeded := by
    obtain ⟨positive, bound⟩ := h.seeded.mem_length (h.pending_of_new new)
    have := h.seeded.lower
    refine h.seeded.insert fun _ => ?_
    simp only [List.length_append, List.length_cons, List.length_nil]
    omega
  nodup := by
    show (grow m.toNat s.eDict (s.eW ++ [c])).Nodup
    unfold grow
    split_ifs
    · exact List.nodup_append.2 ⟨h.nodup, List.nodup_singleton _, fun a ha b hb => by
        rw [List.mem_singleton.1 hb]
        exact ne_of_mem_of_not_mem ha new⟩
    · exact h.nodup
  working := by
    have same := grow_getElem? (max := m.toNat) (s.eW ++ [c]) (show c.toNat < s.eDict.length from
      c.isLt.trans_le h.seeded.lower)
    exact .inr (List.mem_of_getElem? (same.trans (h.seeded.seed c)))
  assigned k hk :=
    (h.assigned_with_code (h.pending_of_new new) k hk).trans_le (length_le_grow _ _ _)
  text := by
    have pending := h.pending_of_new new
    show expand (grow m.toNat s.eDict (s.eW ++ [c])) (s.cb ++ [codeOf s.eDict s.eW]) ++ [c] = read ++ [c]
    rw [expand_grow _ (h.assigned_with_code pending), h.text_with_code pending]
  size := by
    have := h.size
    simp only [length_grow h.seeded.upper, List.length_append, List.length_cons, List.length_nil]
    omega
  count := by
    have := h.count
    have := (h.seeded.mem_length (h.pending_of_new new)).1
    simp only [List.length_append, List.length_cons, List.length_nil]
    omega

theorem Encoding.step {c : BitVec 8} {t : State} (hstep : encStep c s = .ok t) : Encoding m (read ++ [c]) t := by
  rcases encStep_cases c s with ⟨known, e⟩ | ⟨-, -, e⟩ | ⟨new, -, e⟩ <;> cases e.symm.trans hstep
  · exact h.known known
  · have inserted := h.new new
    rw [← h.eMax] at inserted
    exact h.eMax ▸ inserted

/-- A step finds room for its code when the text read so far is shorter than `CB`. -/
theorem Encoding.step_ends (c : BitVec 8) (room : read.length < s.cfg.cbCap) : ∃ t, encStep c s = .ok t := by
  rcases encStep_cases c s with ⟨-, e⟩ | ⟨new, full, -⟩ | ⟨-, -, e⟩
  · exact ⟨_, e⟩
  · have := h.count
    have := (h.seeded.mem_length (h.pending_of_new new)).1
    omega
  · exact ⟨_, e⟩

end

theorem Encoding.loop {m : BitVec 32} {read : List (BitVec 8)} (text : List (BitVec 8)) {s t : State}
    (h : Encoding m read s) (hloop : encLoop text s = .ok t) : Encoding m (read ++ text) t := by
  induction text generalizing read s with
  | nil =>
    cases hloop
    rwa [List.append_nil]
  | cons c rest ih =>
    rw [encLoop_cons, bind_eq_ok] at hloop
    obtain ⟨u, hstep, hrest⟩ := hloop
    simpa using ih (h.step hstep) hrest

theorem Encoding.loop_ends {m : BitVec 32} {read : List (BitVec 8)} (text : List (BitVec 8)) {s : State}
    (h : Encoding m read s) (room : read.length + text.length ≤ s.cfg.cbCap) : ∃ t, encLoop text s = .ok t := by
  induction text generalizing read s with
  | nil => exact ⟨s, rfl⟩
  | cons c rest ih =>
    simp only [List.length_cons] at room
    obtain ⟨u, hstep⟩ := h.step_ends c (by omega)
    have roomLeft : (read ++ [c]).length + rest.length ≤ u.cfg.cbCap := by
      rw [encStep_cfg hstep, List.length_append, List.length_singleton]
      omega
    obtain ⟨t, hrest⟩ := ih (h.step hstep) roomLeft
    exact ⟨t, by rw [encLoop_cons, hstep]; exact hrest⟩

/-- What a session of the encoder under the cap `m` leaves when it ends: the codes stand for the text, and the working
string is its end (43_lzw.md R142, R144). -/
structure Encoded (m : BitVec 32) (text : List (BitVec 8)) (v : State) : Prop where
  eMax : v.eMax = m
  seeded : Seeded v.eDict m.toNat
  nodup : v.eDict.Nodup
  working : v.eW = [] ∧ text = [] ∨ v.eW ∈ v.eDict
  assigned : ∀ k ∈ v.cb, k.toNat < v.eDict.length
  stands : expand v.eDict v.cb = text
  size : v.eDict.length = min m.toNat (256 + (v.cb.length - 1))
  count : v.cb.length ≤ text.length
  last : v.eW <:+ text

theorem Encoding.finish {m : BitVec 32} {text : List (BitVec 8)} {s v : State} (h : Encoding m text s)
    (hfinish : encFinish s = .ok v) : Encoded m text v := by
  have last : s.eW <:+ text := ⟨_, h.text⟩
  have count := h.count
  have size := h.size
  by_cases nothing : s.eW = []
  · cases (encFinish_nil nothing).symm.trans hfinish
    have noText : text = [] := by
      rcases h.working with ⟨-, empty⟩ | pending
      · exact empty
      · exact absurd nothing (h.seeded.mem_ne_nil pending)
    have noCodes : s.cb = [] := List.eq_nil_of_length_eq_zero (by simp only [noText, List.length_nil] at count; omega)
    refine ⟨h.eMax, h.seeded, h.nodup, h.working, h.assigned, ?_, ?_, by omega, last⟩
    · rw [noCodes, noText]
      rfl
    · simpa [noCodes] using size
  · have pending : s.eW ∈ s.eDict := h.working.resolve_left fun empty => nothing empty.1
    rw [encFinish_pending nothing] at hfinish
    rcases appendCb_cases (codeOf s.eDict s.eW) s with ⟨-, e⟩ | ⟨-, e⟩ <;> cases e.symm.trans hfinish
    have positive := (h.seeded.mem_length pending).1
    refine ⟨h.eMax, h.seeded, h.nodup, .inr pending, h.assigned_with_code pending, h.text_with_code pending, ?_, ?_,
      last⟩
    · simpa using size
    · simp only [List.length_append, List.length_cons, List.length_nil]
      omega

theorem Encoding.finish_ends {m : BitVec 32} {text : List (BitVec 8)} {s : State} (h : Encoding m text s)
    (room : text.length ≤ s.cfg.cbCap) : ∃ v, encFinish s = .ok v := by
  by_cases nothing : s.eW = []
  · exact ⟨s, encFinish_nil nothing⟩
  · have := h.count
    have := List.length_pos_iff.2 nothing
    exact ⟨_, (encFinish_pending nothing).trans (appendCb_room _ (by omega))⟩

/-- A session under a legal cap that ends without a fault. -/
theorem encodeText_encoded {m : BitVec 32} {s v : State} (legal : 256 ≤ m.toNat) (h : encodeText m s = .ok v) :
    Encoded m s.ib v := by
  obtain ⟨u, hloop, hfinish⟩ := bind_eq_ok.1 h
  exact ((encoding_open legal s).loop s.ib hloop).finish hfinish

/-- A session under a legal cap with room for one code per symbol ends without a fault. -/
theorem encodeText_ends {m : BitVec 32} {s : State} (legal : 256 ≤ m.toNat) (room : s.ib.length ≤ s.cfg.cbCap) :
    ∃ v, encodeText m s = .ok v := by
  obtain ⟨u, hloop⟩ := (encoding_open legal s).loop_ends s.ib (by simpa using room)
  have cfg : u.cfg = s.cfg := encLoop_cfg (s := openEncode m s) hloop
  obtain ⟨v, hfinish⟩ := ((encoding_open legal s).loop s.ib hloop).finish_ends (cfg ▸ room)
  exact ⟨v, bind_eq_ok.2 ⟨u, hloop, hfinish⟩⟩

/-- `LZE.ENCODE` under a legal cap with room: what it leaves, and that it writes `CB` and the encode engine only. -/
theorem exec_lzeEncode_ends {m : BitVec 32} {s : State} (ready : s.fault = 0#8) (low : 256 ≤ m.toNat)
    (high : m.toNat ≤ s.cfg.dictCap) (room : s.ib.length ≤ s.cfg.cbCap) :
    ∃ v, Encoded m s.ib v ∧ exec (.lzeEncode m) s = .next (answered (BitVec.ofNat 32 v.cb.length)
      { s with cb := v.cb, eDict := v.eDict, eMax := m, eW := v.eW }) := by
  obtain ⟨v, hv⟩ := encodeText_ends low room
  have encoded := encodeText_encoded low hv
  have frame : v = { s with cb := v.cb, eDict := v.eDict, eMax := v.eMax, eW := v.eW } :=
    frame_of_alike (encodeText_alike m rfl rfl) hv
  rw [encoded.eMax] at frame
  refine ⟨v, encoded, ?_⟩
  rw [exec_lzeEncode_legalMax ready ((badMax_eq_false_iff m s).2 ⟨low, high⟩), hv, ← frame]
  rfl

/-- In the seed each code stands for one symbol. -/
theorem map_setWidth_expand_seedDict {codes : List (BitVec 32)} (seeds : ∀ k ∈ codes, k.toNat < 256) :
    (expand seedDict codes).map (fun c => c.setWidth 32) = codes := by
  induction codes with
  | nil => rfl
  | cons k rest ih =>
    have seed := seeds k List.mem_cons_self
    have back : (BitVec.ofNat 8 k.toNat).setWidth 32 = k := by
      apply BitVec.eq_of_toNat_eq
      simp only [BitVec.toNat_setWidth, BitVec.toNat_ofNat]
      omega
    rw [← List.singleton_append, expand_append, expand_single (seedDict_get seed), List.map_append,
      ih fun j hj => seeds j (List.mem_cons_of_mem k hj), List.map_singleton, back]

end Sys2Proof.Machine

open Sys2Proof Sys2Proof.Machine

/-- Settles O49: the encoder keeps its codes and its working string standing for what it has read. -/
theorem lzeEncodeCompletes : Obligations.LzeEncodeCompletes := by
  unfold Obligations.LzeEncodeCompletes
  intro s m ready low high room
  obtain ⟨v, encoded, hexec⟩ := exec_lzeEncode_ends ready low high room
  have emptyIff : v.eW = [] ↔ s.ib = [] := by
    constructor
    · intro empty
      rcases encoded.working with ⟨-, noText⟩ | pending
      · exact noText
      · exact absurd empty (encoded.seeded.mem_ne_nil pending)
    · intro noText
      exact List.suffix_nil.1 (noText ▸ encoded.last)
  exact ⟨v.cb, v.eDict, v.eW, hexec, encoded.stands, encoded.count, encoded.assigned, encoded.seeded.dictInv high,
    encoded.nodup, emptyIff, encoded.working.imp And.left id, encoded.size⟩

/-- Settles O50: under the cap 256 the dictionary stays the seed, in which each code stands for one symbol. -/
theorem lzeEncodeWithAFullDictionary : Obligations.LzeEncodeWithAFullDictionary := by
  unfold Obligations.LzeEncodeWithAFullDictionary
  intro s ready high room
  obtain ⟨v, encoded, hexec⟩ := exec_lzeEncode_ends (m := 256#32) ready (by decide) high room
  have dict : v.eDict = seedDict := encoded.seeded.eq_seedDict (by rw [encoded.size]; simp)
  have codes : v.cb = s.ib.map (fun c => c.setWidth 32) := by
    have assigned := encoded.assigned
    rw [dict, seedDict_length] at assigned
    rw [← encoded.stands, dict, map_setWidth_expand_seedDict assigned]
  have working : v.eW = s.ib.drop (s.ib.length - 1) := by
    rcases encoded.working with ⟨empty, noText⟩ | pending
    · rw [empty, noText]
      rfl
    · obtain ⟨positive, bound⟩ := encoded.seeded.mem_length pending
      rw [dict, seedDict_length] at bound
      rw [List.suffix_iff_eq_drop.1 encoded.last, show v.eW.length = 1 by omega]
  rw [hexec, codes, dict, working, List.length_map]
  rfl

end

/-! Proofs: the decoder's steps with room for their bytes, and its dictionary within its bounds (43_lzw.md R148 to
R151) -/
section

namespace Sys2Proof.Machine

open Sys2Proof.Claims

/-- The state after a decode step that resolved its code to `entry` (43_lzw.md R149). -/
def decoded (entry : List (BitVec 8)) (s : State) : State :=
  { s with
    ob := s.ob ++ entry, dW := entry
    dDict := grow s.dMax.toNat s.dDict (s.dW ++ firstByte entry) }

/-- A decode step that ends resolved its code and found room for it. -/
theorem decStep_ok {k : BitVec 32} {s t : State} (h : decStep k s = .ok t) :
    ∃ entry, decResolve k s = .ok entry ∧ t = decoded entry s := by
  cases hentry : decResolve k s with
  | error r => cases (decStep_unresolved hentry).symm.trans h
  | ok entry =>
    rw [decStep_resolved hentry] at h
    rcases appendObString_cases entry s with e | e <;> rw [e] at h <;> cases h
    exact ⟨entry, rfl, rfl⟩

theorem decStep_decoded {k : BitVec 32} {s : State} {entry : List (BitVec 8)} (h : decResolve k s = .ok entry)
    (room : s.ob.length + entry.length ≤ s.cfg.obCap) : decStep k s = .ok (decoded entry s) := decStep_room h room

/-- The first code of a session with room for its bytes (43_lzw.md R148). -/
theorem decFirst_room {k : BitVec 32} {s : State} {entry : List (BitVec 8)} (h : s.dDict[k.toNat]? = some entry)
    (room : s.ob.length + entry.length ≤ s.cfg.obCap) :
    decFirst k s = .ok { s with dW := entry, ob := s.ob ++ entry } := by
  rw [decFirst_assigned h]
  exact appendObString_fits entry { s with dW := entry } room

/-- The decoder under the cap `m` after its first code: while there is room in the dictionary, the working string with
one byte more is no longer than the next entry may be (43_lzw.md R151). -/
structure Decoding (m : BitVec 32) (s : State) : Prop where
  dMax : s.dMax = m
  seeded : Seeded s.dDict m.toNat
  positive : 1 ≤ s.dW.length
  bound : s.dDict.length < m.toNat → s.dW.length ≤ s.dDict.length - 255

theorem firstByte_length {str : List (BitVec 8)} (h : 1 ≤ str.length) : (firstByte str).length = 1 := by
  simp [firstByte, h]

theorem Decoding.decoded {m k : BitVec 32} {s : State} {entry : List (BitVec 8)} (h : Decoding m s)
    (hentry : decResolve k s = .ok entry) : Decoding m (decoded entry s) := by
  have lower := h.seeded.lower
  have positive := h.positive
  have bound := h.bound
  have lengths : 1 ≤ entry.length ∧ (s.dDict.length < m.toNat → entry.length ≤ s.dDict.length - 254) := by
    rcases decResolve_cases k s with ⟨str, assigned, e⟩ | ⟨-, e⟩ | ⟨-, e⟩ <;> cases e.symm.trans hentry
    · have := h.seeded.entry_length assigned
      omega
    · rw [List.length_append, firstByte_length positive]
      omega
  obtain ⟨entryPositive, entryBound⟩ := lengths
  have size := length_grow h.seeded.upper (s.dW ++ firstByte entry)
  refine ⟨h.dMax, ?_, entryPositive, ?_⟩
  · show Seeded (grow s.dMax.toNat s.dDict (s.dW ++ firstByte entry)) m.toNat
    rw [h.dMax]
    refine h.seeded.insert fun room => ?_
    have := bound room
    rw [List.length_append, firstByte_length entryPositive]
    omega
  · show (grow s.dMax.toNat s.dDict (s.dW ++ firstByte entry)).length < m.toNat →
      entry.length ≤ (grow s.dMax.toNat s.dDict (s.dW ++ firstByte entry)).length - 255
    rw [h.dMax, size]
    omega

theorem Decoding.loop {m : BitVec 32} {codes : List (BitVec 32)} {s t : State} (h : Decoding m s)
    (hloop : decLoop codes s = .ok t) : Decoding m t := by
  induction codes generalizing s with
  | nil =>
    cases hloop
    exact h
  | cons k rest ih =>
    rw [decLoop_cons, bind_eq_ok] at hloop
    obtain ⟨u, hstep, hrest⟩ := hloop
    obtain ⟨entry, hentry, rfl⟩ := decStep_ok hstep
    exact ih (h.decoded hentry) hrest

/-- The first code leaves a seed entry as the working string. -/
theorem decoding_first {m k : BitVec 32} {s t : State} (legal : 256 ≤ m.toNat)
    (h : decFirst k (openDecodeLzw m s) = .ok t) : Decoding m t := by
  have seeded := seeded_seedDict legal
  cases hentry : seedDict[k.toNat]? with
  | none =>
    have beyond : (openDecodeLzw m s).dDict.length ≤ k.toNat := List.getElem?_eq_none_iff.1 hentry
    cases (decFirst_beyond beyond).symm.trans h
  | some entry =>
    obtain ⟨positive, bound⟩ := seeded.entry_length hentry
    rw [decFirst_assigned (s := openDecodeLzw m s) hentry] at h
    rcases appendObString_cases entry { openDecodeLzw m s with dW := entry } with e | e <;> rw [e] at h <;> cases h
    exact ⟨rfl, seeded, positive, fun _ => bound⟩

/-- A session that ends leaves the dictionary within its bounds. -/
theorem decodeCodes_seeded {m : BitVec 32} {s v : State} (legal : 256 ≤ m.toNat) (h : decodeCodes m s = .ok v) :
    v.dMax = m ∧ Seeded v.dDict m.toNat := by
  unfold decodeCodes at h
  split at h
  · cases h
    exact ⟨rfl, seeded_seedDict legal⟩
  · obtain ⟨t, hfirst, hloop⟩ := bind_eq_ok.1 h
    have decoding := (decoding_first legal hfirst).loop hloop
    exact ⟨decoding.dMax, decoding.seeded⟩

end Sys2Proof.Machine
end

/-! Proofs: seed codes, and the special branch of a full dictionary (43_lzw.md R149, R150) -/
section

namespace Sys2Proof.Machine

open Sys2Proof.Claims

theorem toNat_setWidth_byte (c : BitVec 8) : (c.setWidth 32).toNat = c.toNat := by
  rw [BitVec.toNat_setWidth]
  omega

/-- Seed codes after the first append their symbols, and each inserts an entry below the cap. -/
theorem decLoop_seeds {m : BitVec 32} {c : BitVec 8} (text : List (BitVec 8)) {s : State} (h : Decoding m s)
    (working : s.dW = [c]) (room : s.ob.length + text.length ≤ s.cfg.obCap) :
    ∃ dict, decLoop (text.map fun v => v.setWidth 32) s =
        .ok { s with ob := s.ob ++ text, dDict := dict, dW := (c :: text).drop text.length } ∧
      Seeded dict m.toNat ∧ dict.length = min m.toNat (s.dDict.length + text.length) := by
  induction text generalizing c s with
  | nil =>
    have upper := h.seeded.upper
    refine ⟨s.dDict, ?_, h.seeded, by simpa using upper⟩
    simp [decLoop, ← working]
  | cons v rest ih =>
    simp only [List.length_cons] at room
    have resolved : decResolve (v.setWidth 32) s = .ok [v] :=
      decResolve_assigned (toNat_setWidth_byte v ▸ h.seeded.seed v)
    have stepped : decStep (v.setWidth 32) s = .ok (decoded [v] s) :=
      decStep_decoded resolved (by simp only [List.length_singleton]; omega)
    have roomLeft : (decoded [v] s).ob.length + rest.length ≤ (decoded [v] s).cfg.obCap := by
      simp only [decoded, List.length_append, List.length_singleton]
      omega
    obtain ⟨dict, hloop, seeded, size⟩ := ih (h.decoded resolved) rfl roomLeft
    refine ⟨dict, ?_, seeded, ?_⟩
    · rw [List.map_cons, decLoop_cons, stepped]
      simpa [decoded, Except.bind] using hloop
    · have grown : (decoded [v] s).dDict.length = min m.toNat (s.dDict.length + 1) := by
        rw [← length_grow h.seeded.upper, ← h.dMax]
        rfl
      rw [size, grown, List.length_cons]
      omega

theorem triangle_succ (r : Nat) : (r + 2) * (r + 3) / 2 = (r + 1) * (r + 2) / 2 + (r + 2) := by
  rw [← Nat.add_mul_div_left _ _ two_pos]
  ring_nf

theorem firstByte_replicate (r : Nat) (v : BitVec 8) : firstByte (List.replicate (r + 1) v) = [v] := by
  simp [firstByte, List.replicate_succ]

/-- `s` with this output and this working string. -/
def emitted (bytes working : List (BitVec 8)) (s : State) : State := { s with ob := bytes, dW := working }

/-- The output and the working string of the special branch after `r` codes 256. -/
def specialBranch (r : Nat) (v : BitVec 8) (s : State) : State :=
  emitted (List.replicate ((r + 1) * (r + 2) / 2) v) (List.replicate (r + 1) v) s

section
variable {v : BitVec 8} {s : State} (hm : s.dMax = 256#32) (full : s.dDict.length = 256)
include hm full

/-- With the dictionary full, a code 256 appends the working string made one byte longer. -/
theorem decStep_special {r : Nat} (room : (r + 2) * (r + 3) / 2 ≤ s.cfg.obCap) :
    decStep 256#32 (specialBranch r v s) = .ok (specialBranch (r + 1) v s) := by
  have resolved : decResolve 256#32 (specialBranch r v s) = .ok (List.replicate (r + 2) v) := by
    rw [decResolve_next (s := specialBranch r v s) (k := 256#32) full.symm, specialBranch, emitted, firstByte_replicate]
    simp only [List.replicate_succ']
  rw [decStep_decoded resolved]
  · simp [specialBranch, emitted, decoded, grow, hm, full, triangle_succ]
  · simpa [specialBranch, emitted, ← triangle_succ] using room

theorem decLoop_special (n : Nat) {r : Nat} (room : (r + n + 1) * (r + n + 2) / 2 ≤ s.cfg.obCap) :
    decLoop (List.replicate n 256#32) (specialBranch r v s) = .ok (specialBranch (r + n) v s) := by
  induction n generalizing r with
  | zero => rfl
  | succ n ih =>
    have shift : r + 1 + n = r + (n + 1) := by omega
    have grown : (r + 2) * (r + 3) / 2 ≤ (r + (n + 1) + 1) * (r + (n + 1) + 2) / 2 :=
      Nat.div_le_div_right (Nat.mul_le_mul (by omega) (by omega))
    rw [List.replicate_succ, decLoop_cons, decStep_special hm full (grown.trans room), ← shift]
    exact ih (shift ▸ room)

end

/-- The session's first code, a seed code, leaves its symbol as output and working string. -/
theorem decFirst_seed {m : BitVec 32} {s : State} (c : BitVec 8) (room : 1 ≤ s.cfg.obCap) :
    decFirst (c.setWidth 32) (openDecodeLzw m s) = .ok (emitted [c] [c] (openDecodeLzw m s)) :=
  decFirst_room (s := openDecodeLzw m s) (entry := [c])
    (by rw [toNat_setWidth_byte]; exact (seeded_seedDict le_rfl).seed c) (by simpa using room)

/-- A session on seed codes under a legal cap. -/
theorem decodeCodes_seeds {m : BitVec 32} {s : State} (text : List (BitVec 8)) (low : 256 ≤ m.toNat)
    (codes : s.cb = text.map fun v => v.setWidth 32) (room : text.length ≤ s.cfg.obCap) :
    ∃ dict, decodeCodes m s = .ok { openDecodeLzw m s with
        ob := text, dDict := dict, dW := text.drop (text.length - 1) } ∧
      Seeded dict m.toNat ∧ dict.length = min m.toNat (256 + (text.length - 1)) := by
  cases text with
  | nil =>
    refine ⟨seedDict, decodeCodes_nil codes, seeded_seedDict low, ?_⟩
    simpa using low
  | cons c rest =>
    simp only [List.length_cons] at room
    have first := decFirst_seed (m := m) c (s := s) (by omega)
    obtain ⟨dict, hloop, seeded, size⟩ := decLoop_seeds rest (decoding_first low first) rfl
      (show [c].length + rest.length ≤ s.cfg.obCap by rw [List.length_singleton]; omega)
    refine ⟨dict, ?_, seeded, ?_⟩
    · simp only [decodeCodes, codes, List.map_cons, first, Except.bind, hloop, List.length_cons, Nat.add_sub_cancel]
      rfl
    · have opened : (emitted [c] [c] (openDecodeLzw m s)).dDict.length = 256 := seedDict_length
      rw [size, opened, List.length_cons, Nat.add_sub_cancel]

end Sys2Proof.Machine

open Sys2Proof Sys2Proof.Machine

/-- Settles O56: the first code opens the session with its symbol, and every later one appends its own. -/
theorem lzdDecodeOfSeedCodes : Obligations.LzdDecodeOfSeedCodes := by
  unfold Obligations.LzdDecodeOfSeedCodes
  intro s m text ready low high codes room
  obtain ⟨dict, hwork, seeded, size⟩ := decodeCodes_seeds text low codes room
  refine ⟨dict, ?_, seeded.dictInv high, size⟩
  rw [exec_lzdDecode_legalMax ready ((badMax_eq_false_iff m s).2 ⟨low, high⟩), hwork]
  rfl

/-- Settles O55: each code 256 after the first code takes the special branch, since the dictionary never grows. -/
theorem lzdSpecialBranchWhenFull : Obligations.LzdSpecialBranchWhenFull := by
  unfold Obligations.LzdSpecialBranchWhenFull
  intro s v n ready high codes room
  have positive : 1 ≤ (n + 1) * (n + 2) / 2 :=
    (Nat.le_div_iff_mul_le two_pos).2 (Nat.mul_le_mul (Nat.le_add_left 1 n) (Nat.le_add_left 2 n))
  have first := decFirst_seed (m := 256#32) (s := s) v (positive.trans room)
  have looped := decLoop_special (s := openDecodeLzw 256#32 s) (v := v) rfl seedDict_length n (r := 0)
    (by simpa using room)
  have hwork : decodeCodes 256#32 s = .ok (specialBranch n v (openDecodeLzw 256#32 s)) := by
    rw [decodeCodes, codes]
    simp only [first, Except.bind]
    rwa [Nat.zero_add] at looped
  rw [exec_lzdDecode_legalMax ready ((badMax_eq_false_iff 256#32 s).2 ⟨le_rfl, high⟩), hwork]
  simp [concluded, obLen, specialBranch, emitted, openDecodeLzw, openSinkOb, seedDict]

end

/-! Proofs: packing and unpacking are inverse (43_lzw.md R159) -/
section

namespace Sys2Proof.Machine

/-- Codes below 65536 come back from their bytes. -/
theorem unpackedCodes_packedBytes {codes : List (BitVec 32)} (small : ∀ k ∈ codes, k.toNat < 65536) :
    unpackedCodes (packedBytes codes) = codes := by
  induction codes with
  | nil => rfl
  | cons k rest ih =>
    rw [packedBytes_cons, List.cons_append, List.singleton_append, unpackedCodes_cons_cons,
      codeOfBytes_high_low k (small k List.mem_cons_self), ih fun j hj => small j (List.mem_cons_of_mem k hj)]

/-- An even number of bytes comes back from its codes. -/
theorem packedBytes_unpackedCodes : ∀ {bytes : List (BitVec 8)}, bytes.length % 2 = 0 →
    packedBytes (unpackedCodes bytes) = bytes
  | [], _ => rfl
  | [_], odd => by simp at odd
  | h :: l :: rest, even => by
    have evenRest : rest.length % 2 = 0 := by
      simp only [List.length_cons] at even
      omega
    rw [unpackedCodes_cons_cons, packedBytes_cons, codeHigh_codeOfBytes, codeLow_codeOfBytes,
      packedBytes_unpackedCodes evenRest]
    rfl

end Sys2Proof.Machine

open Sys2Proof Sys2Proof.Machine

/-- Settles O60: each command has the room it needs, and the two serialisations are inverse. -/
theorem packThenUnpackRestoresTheCodes : Obligations.PackThenUnpackRestoresTheCodes := by
  unfold Obligations.PackThenUnpackRestoresTheCodes
  refine ⟨fun s ready small obRoom cbRoom => ?_, fun s ready even cbRoom obRoom => ?_⟩
  · have length := packedBytes_length s.cb
    exact ⟨_, _, exec_cpkPack_room ready obRoom,
      exec_cupUnpack_room ready (show (packedBytes s.cb).length % 2 = 0 by omega)
        (show (packedBytes s.cb).length / 2 ≤ s.cfg.cbCap by omega),
      ready, unpackedCodes_packedBytes small⟩
  · have length := unpackedCodes_length s.ib
    exact ⟨_, _, exec_cupUnpack_room ready even cbRoom,
      exec_cpkPack_room ready (show 2 * (unpackedCodes s.ib).length ≤ s.cfg.obCap by omega),
      ready, packedBytes_unpackedCodes even⟩

end

/-! Proofs: the decoder on the encoder's codes stays one code behind it (43_lzw.md R151) -/
section

namespace Sys2Proof.Machine

open Sys2Proof.Claims

/-- The codes decoded under a legal `m`, whatever `CB` holds (43_lzw.md R148). -/
def decodeFrom (m : BitVec 32) (codes : List (BitVec 32)) (t : State) : Except Raise State :=
  match codes with
  | [] => .ok (openDecodeLzw m t)
  | k0 :: rest => (decFirst k0 (openDecodeLzw m t)).bind (decLoop rest)

theorem decodeCodes_eq_decodeFrom (m : BitVec 32) (t : State) : decodeCodes m t = decodeFrom m t.cb t := by
  unfold decodeCodes decodeFrom
  cases t.cb <;> rfl

theorem decLoop_concat (codes : List (BitVec 32)) (k : BitVec 32) (s : State) :
    decLoop (codes ++ [k]) s = (decLoop codes s).bind (decStep k) := by
  induction codes generalizing s with
  | nil =>
    rw [List.nil_append, decLoop_cons]
    cases hstep : decStep k s <;> simp [decLoop, hstep, Except.bind]
  | cons j rest ih =>
    rw [List.cons_append, decLoop_cons, decLoop_cons]
    cases decStep j s with
    | error r => rfl
    | ok t => exact ih t

theorem decodeFrom_concat {m : BitVec 32} {codes : List (BitVec 32)} (given : codes ≠ []) (k : BitVec 32) (t : State) :
    decodeFrom m (codes ++ [k]) t = (decodeFrom m codes t).bind (decStep k) := by
  cases codes with
  | nil => exact absurd rfl given
  | cons k0 rest =>
    simp only [decodeFrom, List.cons_append]
    cases decFirst k0 (openDecodeLzw m t) with
    | error r => rfl
    | ok u => exact decLoop_concat rest k u

theorem decodeFrom_single (m k : BitVec 32) (t : State) : decodeFrom m [k] t = decFirst k (openDecodeLzw m t) := by
  simp only [decodeFrom]
  cases decFirst k (openDecodeLzw m t) <;> rfl

/-- The decoder, set on `t`, has decoded `codes` to `bytes` and has reached the state `d`. -/
structure Decodes (m : BitVec 32) (t : State) (codes : List (BitVec 32)) (bytes : List (BitVec 8)) (d : State) :
    Prop where
  ends : decodeFrom m codes t = .ok d
  ob : d.ob = bytes
  cfg : d.cfg = t.cfg

/-- The decoder has all codes of the running encoder `s` but the one of its working string, and lacks only the entry
that this code's first byte completes. -/
def OneBehind (m : BitVec 32) (t : State) (read : List (BitVec 8)) (s : State) : Prop :=
  s.cb = [] ∨
  ∃ bytes d, s.cb ≠ [] ∧ Decodes m t s.cb bytes d ∧ Decoding m d ∧ bytes ++ s.eW = read ∧
    s.eDict = grow m.toNat d.dDict (d.dW ++ firstByte s.eW)

/-- The decoder has decoded these codes to `read`, and has the dictionary and the working string of the encoder. -/
structure CaughtUp (m : BitVec 32) (t : State) (codes : List (BitVec 32)) (read : List (BitVec 8)) (s d : State) :
    Prop where
  decodes : Decodes m t codes read d
  working : d.dW = s.eW
  dict : d.dDict = s.eDict

/-- The code of the encoder's working string resolves to it, by the special branch when it is the entry that the
decoder lacks (43_lzw.md R149, R150). -/
theorem decResolve_pending {m : BitVec 32} {k : BitVec 32} {str : List (BitVec 8)} {d : State} (h : Decoding m d)
    (named : (grow m.toNat d.dDict (d.dW ++ firstByte str))[k.toNat]? = some str) : decResolve k d = .ok str := by
  by_cases old : k.toNat < d.dDict.length
  · exact decResolve_assigned ((grow_getElem? _ old).symm.trans named)
  · have inside := (List.getElem?_eq_some_iff.1 named).1
    rw [length_grow h.seeded.upper] at inside
    have last : k.toNat = d.dDict.length := by omega
    have special : d.dW ++ firstByte str = str := by
      rw [grow, if_pos (by omega), last, List.getElem?_concat_length] at named
      exact Option.some.inj named
    have sameFirst : firstByte d.dW = firstByte str := by
      have positive := h.positive
      conv_rhs => rw [← special]
      exact (List.take_append_of_le_length positive).symm
    rw [decResolve_next last, sameFirst, special]

section
variable {m : BitVec 32} {t s : State} {read : List (BitVec 8)} (h : Encoding m read s) (legal : 256 ≤ m.toNat)
  (pending : s.eW ∈ s.eDict) (room : read.length ≤ t.cfg.obCap)
include h legal pending room

/-- With the code of the working string the decoder catches up. -/
theorem OneBehind.catches_up (behind : OneBehind m t read s) :
    ∃ d, CaughtUp m t (s.cb ++ [codeOf s.eDict s.eW]) read s d ∧ Decoding m d := by
  have named := h.code_get pending
  rcases behind with noCodes | ⟨bytes, d, given, decodes, decoding, reads, dict⟩
  · have seed : s.eDict = seedDict := h.seeded.eq_seedDict (by have := h.size; simpa [noCodes, legal] using this)
    have text : s.eW = read := by simpa [noCodes, expand] using h.text
    have first : decFirst (codeOf s.eDict s.eW) (openDecodeLzw m t) = .ok (emitted s.eW s.eW (openDecodeLzw m t)) :=
      decFirst_room (s := openDecodeLzw m t) (by rw [openDecodeLzw_dDict, ← seed, named]) (by simpa [text] using room)
    rw [noCodes, List.nil_append]
    exact ⟨_, ⟨⟨(decodeFrom_single _ _ _).trans first, text, rfl⟩, rfl, seed.symm⟩, decoding_first legal first⟩
  · have resolved : decResolve (codeOf s.eDict s.eW) d = .ok s.eW := decResolve_pending decoding (dict ▸ named)
    have fits : d.ob.length + s.eW.length ≤ d.cfg.obCap := by
      rw [decodes.ob, decodes.cfg, ← List.length_append, reads]
      exact room
    refine ⟨decoded s.eW d, ⟨⟨?_, ?_, decodes.cfg⟩, rfl, ?_⟩, decoding.decoded resolved⟩
    · rw [decodeFrom_concat given, decodes.ends]
      exact decStep_decoded resolved fits
    · rw [← reads, ← decodes.ob]
      rfl
    · rw [dict, ← decoding.dMax]
      rfl

end

/-- An encoder that has given codes has a working string. -/
theorem Encoding.pending_of_codes {m : BitVec 32} {s : State} {read : List (BitVec 8)} (h : Encoding m read s)
    (given : s.cb ≠ []) : s.eW ∈ s.eDict := by
  refine h.working.resolve_left fun ⟨_, nothing⟩ => given ?_
  have count := h.count
  rw [nothing, List.length_nil] at count
  exact List.eq_nil_of_length_eq_zero (by omega)

/-- A step of the encoder leaves the decoder one code behind. -/
theorem OneBehind.step {m : BitVec 32} {t s u : State} {read : List (BitVec 8)} {c : BitVec 8}
    (behind : OneBehind m t read s) (h : Encoding m read s) (legal : 256 ≤ m.toNat) (room : read.length ≤ t.cfg.obCap)
    (hstep : encStep c s = .ok u) : OneBehind m t (read ++ [c]) u := by
  rcases encStep_cases c s with ⟨known, e⟩ | ⟨-, -, e⟩ | ⟨new, -, e⟩ <;> cases e.symm.trans hstep
  · rcases behind with noCodes | ⟨bytes, d, given, decodes, decoding, reads, dict⟩
    · exact .inl noCodes
    · have sameFirst : firstByte (s.eW ++ [c]) = firstByte s.eW :=
        List.take_append_of_le_length (h.seeded.mem_length (h.pending_of_codes given)).1
      exact .inr ⟨bytes, d, given, decodes, decoding, by rw [← reads, List.append_assoc], sameFirst ▸ dict⟩
  · obtain ⟨d, ⟨decodes, working, dict⟩, decoding⟩ := behind.catches_up h legal (h.pending_of_new new) room
    refine .inr ⟨read, d, by simp, decodes, decoding, rfl, ?_⟩
    rw [working, dict, ← h.eMax]
    rfl

theorem OneBehind.loop {m : BitVec 32} {t : State} (legal : 256 ≤ m.toNat) {read : List (BitVec 8)}
    (text : List (BitVec 8)) {s u : State} (behind : OneBehind m t read s) (h : Encoding m read s)
    (room : (read ++ text).length ≤ t.cfg.obCap) (hloop : encLoop text s = .ok u) : OneBehind m t (read ++ text) u := by
  induction text generalizing read s with
  | nil =>
    cases hloop
    rwa [List.append_nil]
  | cons c rest ih =>
    rw [encLoop_cons, bind_eq_ok] at hloop
    obtain ⟨v, hstep, hrest⟩ := hloop
    have roomRead : read.length ≤ t.cfg.obCap := by
      rw [List.length_append] at room
      omega
    rw [List.append_cons] at room ⊢
    exact ih (behind.step h legal roomRead hstep) (h.step hstep) room hrest

/-- When the encoder ends the decoder has the text, the encoder's dictionary and its working string. -/
theorem decodeFrom_encodeText {m : BitVec 32} {s v t : State} (legal : 256 ≤ m.toNat)
    (room : s.ib.length ≤ t.cfg.obCap) (h : encodeText m s = .ok v) : ∃ d, CaughtUp m t v.cb s.ib v d := by
  obtain ⟨u, hloop, hfinish⟩ := bind_eq_ok.1 h
  have opened := encoding_open legal s
  have behind : OneBehind m t s.ib u := .loop (read := []) legal s.ib (.inl rfl) opened room hloop
  have encoding : Encoding m s.ib u := opened.loop s.ib hloop
  rcases encoding.working with ⟨nothing, noText⟩ | pending
  · cases (encFinish_nil nothing).symm.trans hfinish
    rw [noText] at hloop ⊢
    cases hloop
    exact ⟨openDecodeLzw m t, ⟨rfl, rfl, rfl⟩, rfl, rfl⟩
  · rw [encFinish_pending (encoding.seeded.mem_ne_nil pending)] at hfinish
    rcases appendCb_cases (codeOf u.eDict u.eW) u with ⟨-, e⟩ | ⟨-, e⟩ <;> cases e.symm.trans hfinish
    obtain ⟨d, caught, -⟩ := behind.catches_up encoding legal pending room
    exact ⟨d, caught.decodes, caught.working, caught.dict⟩

/-- An encode that ends without a fault had a legal cap. -/
theorem exec_lzeEncode_inv {m : BitVec 32} {s t : State} (ready : s.fault = 0#8)
    (h : exec (.lzeEncode m) s = .next t) (after : t.fault = 0#8) :
    badMax m s = false ∧ ∃ v, encodeText m s = .ok v ∧ t = answered (cbLen v) v := by
  have legal : badMax m s = false := by
    cases hmax : badMax m s with
    | false => rfl
    | true =>
      cases (exec_lzeEncode_badMax ready hmax).symm.trans h
      exact absurd (show 0x0A#8 = 0#8 from after) (by decide)
  obtain ⟨-, u, v, hloop, hfinish, rfl⟩ := Procedures.lzeEncode_inv h after
  exact ⟨legal, v, bind_eq_ok.2 ⟨u, hloop, hfinish⟩, rfl⟩

end Sys2Proof.Machine

open Sys2Proof Sys2Proof.Machine

/-- Settles O57: the decoder resolves each of the encoder's codes to the string the encoder gave it for. -/
theorem lzwRoundTrip : Obligations.LzwRoundTrip := by
  unfold Obligations.LzwRoundTrip
  intro s t m ready hencode after room
  obtain ⟨legal, v, hv, rfl⟩ := exec_lzeEncode_inv ready hencode after
  have cfg : v.cfg = s.cfg := encodeText_cfg hv
  obtain ⟨d, decodes, working, dict⟩ := decodeFrom_encodeText (t := Claims.answered (cbLen v) v)
    ((badMax_eq_false_iff m s).1 legal).1 (cfg ▸ room) hv
  have hwork : decodeCodes m (Claims.answered (cbLen v) v) = .ok d := (decodeCodes_eq_decodeFrom _ _).trans decodes.ends
  have frame : d = _ := frame_of_alike (decodeCodes_alike m rfl rfl) hwork
  have stillLegal : badMax m (Claims.answered (cbLen v) v) = false := by
    rw [← legal]
    simp [badMax, Claims.answered, cfg]
  have hexec : exec (.lzdDecode m) (Claims.answered (cbLen v) v) = .next (Claims.answered (obLen d) d) := by
    rw [exec_lzdDecode_legalMax after stillLegal, hwork]
    rfl
  refine ⟨_, hexec, ?_, decodes.ob, dict, working, ?_⟩
  · rw [frame]
    exact after
  · rw [obLen, decodes.ob, frame]
    rfl

end

/-! Proofs: where the bit source stands after a number of bits, and the bits it delivers (41_bitstream.md R107 to
R110) -/
section

namespace Sys2Proof.Machine

open Sys2Proof.Claims Sys2Proof.Procedures

theorem bitsOf_cons (v : BitVec 8) (rest : List (BitVec 8)) : bitsOf (v :: rest) = bitsOfByte v ++ bitsOf rest := rfl

theorem bitsOfByte_length (v : BitVec 8) : (bitsOfByte v).length = 8 := by simp [bitsOfByte]

theorem bitsOf_length (bytes : List (BitVec 8)) : (bitsOf bytes).length = 8 * bytes.length := by
  induction bytes with
  | nil => rfl
  | cons v rest ih =>
    rw [bitsOf_cons, List.length_append, bitsOfByte_length, ih, List.length_cons]
    omega

/-- Bit `n` is bit `7 - n % 8` of byte `n / 8` (20_memory.md R47). -/
theorem bitsOf_getElem? (bytes : List (BitVec 8)) (n : Nat) :
    (bitsOf bytes)[n]? = bytes[n / 8]?.map fun v => v.getLsbD (7 - n % 8) := by
  induction bytes generalizing n with
  | nil => rfl
  | cons v rest ih =>
    rw [bitsOf_cons]
    by_cases first : n < 8
    · rw [List.getElem?_append_left (by rwa [bitsOfByte_length]), Nat.div_eq_of_lt first, Nat.mod_eq_of_lt first]
      simp [bitsOfByte, first]
    · obtain ⟨k, rfl⟩ := Nat.exists_eq_add_of_le' (not_lt.1 first)
      rw [List.getElem?_append_right (by rw [bitsOfByte_length]; omega), bitsOfByte_length, Nat.add_sub_cancel, ih]
      simp

/-- The bit source stands after bit `used` of `IB` (41_bitstream.md R107). -/
structure StandsAt (used : Nat) (s : State) : Prop where
  ibPtr : s.ibPtr = BitVec.ofNat 32 ((used + 7) / 8)
  bitcnt : s.bitcnt = BitVec.ofNat 4 ((8 - used % 8) % 8)
  bitbuf : used % 8 ≠ 0 → s.bitbuf = lastLoaded s.ib used

/-- `s` with the bit source standing after bit `used` of `IB`. -/
def readTo (used : Nat) (s : State) : State :=
  { s with
    ibPtr := BitVec.ofNat 32 ((used + 7) / 8), bitbuf := lastLoaded s.ib used
    bitcnt := BitVec.ofNat 4 ((8 - used % 8) % 8) }

theorem lastLoaded_succ {ib : List (BitVec 8)} {used : Nat} {byte : BitVec 8} (h : ib[used / 8]? = some byte) :
    lastLoaded ib (used + 1) = byte := by
  simp [lastLoaded, List.getD_eq_getElem?_getD, h]

/-- Within a byte the next bit comes from the byte loaded last. -/
theorem lastLoaded_within {ib : List (BitVec 8)} {used : Nat} (within : used % 8 ≠ 0) :
    lastLoaded ib used = lastLoaded ib (used + 1) := by
  have sameByte : (used - 1) / 8 = used / 8 := by omega
  have read : used ≠ 0 := by omega
  simp [lastLoaded, read, sameByte]

section
variable {s : State} {used : Nat} (stands : StandsAt used s)
include stands

/-- A read delivers the bit at which the source stands, and moves it on by one. -/
theorem readBit_at {b : Bool} (small : s.ib.length ≤ 2 ^ 24) (h : (bitsOf s.ib)[used]? = some b) :
    readBit s = some (b, readTo (used + 1) s) := by
  rw [bitsOf_getElem?] at h
  obtain ⟨byte, hbyte, rfl⟩ := Option.map_eq_some_iff.1 h
  have inside := (List.getElem?_eq_some_iff.1 hbyte).1
  have loaded := lastLoaded_succ hbyte
  by_cases boundary : used % 8 = 0
  · have ptr : s.ibPtr.toNat = used / 8 := by
      rw [stands.ibPtr, BitVec.toNat_ofNat]
      omega
    have empty : s.bitcnt = 0#4 := by
      rw [stands.bitcnt, boundary]
    have next : s.ibPtr + 1#32 = BitVec.ofNat 32 ((used + 1 + 7) / 8) := by
      apply BitVec.eq_of_toNat_eq
      simp only [BitVec.toNat_add, ptr, BitVec.toNat_ofNat]
      omega
    have left : (8 - (used + 1) % 8) % 8 = 7 := by omega
    rw [readBit_refill empty (by rwa [ptr]), readTo, loaded, next, left, boundary]
  · have count : s.bitcnt.toNat = 7 - used % 8 + 1 := by
      rw [stands.bitcnt, BitVec.toNat_ofNat]
      omega
    have samePtr : (used + 1 + 7) / 8 = (used + 7) / 8 := by omega
    have left : (8 - (used + 1) % 8) % 8 = 7 - used % 8 := by omega
    rw [readBit_buffered count, stands.bitbuf boundary, lastLoaded_within boundary, loaded, readTo, loaded, left,
      samePtr, ← stands.ibPtr]

/-- After the last bit there is none left. -/
theorem readBit_at_end (small : s.ib.length ≤ 2 ^ 24) (all : used = 8 * s.ib.length) : readBit s = none := by
  rw [readBit_eq_none_iff, stands.ibPtr, stands.bitcnt, all, BitVec.toNat_ofNat]
  refine ⟨by simp, ?_⟩
  omega

end

/-- Reads of the bits left respond with them in order (41_bitstream.md R108). -/
theorem runInstrs_reads (bits : List Bool) {s : State} {used : Nat} (stands : StandsAt used s) (ready : s.fault = 0#8)
    (small : s.ib.length ≤ 2 ^ 24) (left : (bitsOf s.ib).drop used = bits) :
    ∃ t, runInstrs (List.replicate bits.length .bsuRbit) s = .next t ∧ StandsAt (used + bits.length) t ∧
      t.fault = 0#8 ∧ t.ib = s.ib ∧ t.rsps = s.rsps ++ bits.map fun b => rsp 0x00#8 (bitValue b) := by
  induction bits generalizing s used with
  | nil => exact ⟨s, rfl, stands, ready, rfl, (List.append_nil _).symm⟩
  | cons b rest ih =>
    have here : (bitsOf s.ib)[used]? = some b := by
      rw [← List.head?_drop, left]
      rfl
    have leftAfter : (bitsOf s.ib).drop (used + 1) = rest := by
      rw [← List.drop_drop, left]
      rfl
    have read := exec_bsuRbit_of_readBit ready (readBit_at stands small here)
    obtain ⟨t, hrun, standsAfter, readyAfter, sameIb, rsps⟩ :=
      ih (s := answered (bitValue b) (readTo (used + 1) s)) ⟨rfl, rfl, fun _ => rfl⟩ ready small leftAfter
    refine ⟨t, (runInstrs_cons read).trans hrun, ?_, readyAfter, sameIb, ?_⟩
    · rwa [List.length_cons, Nat.add_comm rest.length, ← Nat.add_assoc]
    · rw [rsps, List.map_cons]
      simp [answered, readTo]

/-- Reads at the end of the stream all respond with EOS (41_bitstream.md R109). -/
theorem runInstrs_readsAtEnd (extra : Nat) {s : State} (ready : s.fault = 0#8) (atEnd : readBit s = none) :
    runInstrs (List.replicate extra .bsuRbit) s =
      .next { s with rsps := s.rsps ++ List.replicate extra (rsp 0x01#8 0#32) } := by
  induction extra generalizing s with
  | zero => simp [runInstrs]
  | succ extra ih =>
    have stillAtEnd : readBit (endedStream s) = none := (readBit_eq_none_iff _).2 ((readBit_eq_none_iff s).1 atEnd)
    rw [List.replicate_succ, runInstrs_cons (exec_bsuRbit_eos ready atEnd), ih (s := endedStream s) ready stillAtEnd]
    simp [endedStream, List.replicate_succ]

theorem packBits_length (bits : List Bool) : (packBits bits).length = (bits.length + 7) / 8 := by simp [packBits]

end Sys2Proof.Machine

open Sys2Proof Sys2Proof.Machine

/-- Settles O41: the reads deliver the bits of `IB`, which are the packed bits and the padding. -/
theorem unpackingReturnsThePackedBits : Obligations.UnpackingReturnsThePackedBits := by
  unfold Obligations.UnpackingReturnsThePackedBits
  intro bits s extra ready packed small ptr cnt
  have stands : StandsAt 0 s := ⟨ptr, cnt, fun h => absurd rfl h⟩
  obtain ⟨t, hreads, standsAfter, readyAfter, sameIb, rsps⟩ :=
    runInstrs_reads (Procedures.bitsOf s.ib) stands ready small rfl
  rw [bitsOf_length] at hreads standsAfter
  have atEnd : readBit t = none := readBit_at_end standsAfter (sameIb ▸ small) (by rw [sameIb, Nat.zero_add])
  have delivered : Procedures.bitsOf s.ib = bits ++ List.replicate (8 * s.ib.length - bits.length) false := by
    rw [packed, Procedures.bitsOf_packBits, packBits_length]
  rw [List.replicate_add]
  refine ⟨_, (runInstrs_append hreads).trans (runInstrs_readsAtEnd extra readyAfter atEnd), ?_⟩
  rw [rsps, delivered, List.map_append, List.map_replicate, ← List.append_assoc]
  rfl

end

/-! Proofs: `HTD.DECODE` with a leaf at the root (42_huffman_decoder.md R127) -/
section

namespace Sys2Proof.Machine

open Sys2Proof.Claims

/-- The fetch of a node is its word, if it has one (42_huffman_decoder.md R124). -/
theorem fetchNode_of_some {s : State} {i : BitVec 9} {w : BitVec 32} (h : nodeOf s i = some w) :
    fetchNode i s = .ok w := by
  obtain ⟨inside, hread⟩ : i.toNat < s.treeN.toNat ∧ treeRead s.tree i.toNat = some w := by simpa [nodeOf] using h
  simp [fetchNode, hread, inside]

theorem fetchNode_of_none {s : State} {i : BitVec 9} (h : nodeOf s i = none) :
    fetchNode i s = .error ⟨.badTree, i.setWidth 32⟩ := by
  rcases fetchNode_cases i s with ⟨inside, w, hread, -⟩ | ⟨-, e⟩
  · simp [nodeOf, inside, hread] at h
  · exact e

theorem nodeOf_eq_some_iff (s : State) (i : BitVec 9) (w : BitVec 32) :
    nodeOf s i = some w ↔ i.toNat < s.treeN.toNat ∧ treeRead s.tree i.toNat = some w := by
  simp [nodeOf]

section
variable {s : State} {e w : BitVec 32} (ready : s.fault = 0#8) (root : nodeOf s s.treeRoot = some w)
  (leaf : nodeIsLeaf w = true)
include ready root leaf

/-- A leaf at the root is emitted as often as asked. -/
theorem exec_htdDecode_leaf_room (room : e.toNat ≤ s.cfg.obCap) : exec (.htdDecode e) s = .next (answered e
    { s with
      ob := List.replicate e.toNat (nodeSym w), acc := 0#8, nacc := 0#3, ibPtr := 0#32, bitbuf := 0#8, bitcnt := 0#4
      htdExp := e, htdCur := s.treeRoot }) := by
  have fits : (openDecode e s).ob.length + (List.replicate e.toNat (nodeSym w)).length ≤
      (openDecode e s).cfg.obCap := by
    simpa using room
  rw [exec_htdDecode_leaf e ready (fetchNode_of_some root) leaf, emitRoot, appendObString_fits _ _ fits]
  simp [Except.map, concluded, obLen, openDecode, openSinkOb, openSourceIb]

theorem exec_htdDecode_leaf_full (full : s.cfg.obCap < e.toNat) :
    exec (.htdDecode e) s = .next (faulted 0x09#8 1#32 0x40#8 s) := by
  have overflows : (openDecode e s).cfg.obCap <
      (openDecode e s).ob.length + (List.replicate e.toNat (nodeSym w)).length := by
    simpa using full
  rw [exec_htdDecode_leaf e ready (fetchNode_of_some root) leaf, emitRoot,
    appendObString_overflows _ _ (Nat.zero_le _) overflows]
  rfl

end

end Sys2Proof.Machine

open Sys2Proof Sys2Proof.Machine

/-- Settles O43: the symbol is appended without a bit read, as far as the buffer has room. -/
theorem singletonModeIgnoresTheBits : Obligations.SingletonModeIgnoresTheBits := by
  unfold Obligations.SingletonModeIgnoresTheBits
  intro s e w ready declared written leaf
  have root := (nodeOf_eq_some_iff s s.treeRoot w).2 ⟨declared, written⟩
  exact ⟨exec_htdDecode_leaf_room ready root leaf, exec_htdDecode_leaf_full ready root leaf,
    fun k => Procedures.encodeBits_replicate _ _⟩

end

/-! Proofs: the walk on the registers is the automaton on the bits of `IB` (42_huffman_decoder.md R125 to
R131) -/
section

namespace Sys2Proof.Machine

open Sys2Proof.Claims Sys2Proof.Procedures

/-- The state of a walk that has read `used` bits of `IB` and emitted these symbols. -/
def walkedBy (symbols : List (BitVec 8)) (used : Nat) (s : State) : State := { readTo used s with ob := symbols }

theorem standsAt_walkedBy (symbols : List (BitVec 8)) (used : Nat) (s : State) :
    StandsAt used (walkedBy symbols used s) := ⟨rfl, rfl, fun _ => rfl⟩

/-- How the walk on the registers of `s` ends when the automaton ends so. -/
def walkEndOf (s : State) (a : AutomatonEnd) : Except Raise WalkEnd :=
  match a with
  | .stopped symbols cur used eos => .ok ⟨cur, eos, walkedBy symbols used s⟩
  | .badTree i => .error ⟨.badTree, i.setWidth 32⟩
  | .overflow => .error ⟨.overflow, 1#32⟩

/-! ### One step of the automaton, case by case -/

section
variable {node : BitVec 9 → Option (BitVec 32)} {root cur : BitVec 9} {expected cap used : Nat} {b : Bool}
  {rest : List Bool} {symbols : List (BitVec 8)}

theorem automaton_enough (enough : ¬ symbols.length < expected) (bits : List Bool) :
    automaton node root expected cap bits cur symbols used = .stopped symbols cur used false := by
  cases bits <;> simp [automaton, enough]

theorem automaton_ended (more : symbols.length < expected) :
    automaton node root expected cap [] cur symbols used = .stopped symbols cur used true := by
  simp [automaton, more]

variable (more : symbols.length < expected)
include more

theorem automaton_badNode (hcur : node cur = none) :
    automaton node root expected cap (b :: rest) cur symbols used = .badTree cur := by
  simp [automaton, more, hcur]

variable {w : BitVec 32} (hcur : node cur = some w)
include hcur

theorem automaton_badChild (hchild : node (childOn b w) = none) :
    automaton node root expected cap (b :: rest) cur symbols used = .badTree (childOn b w) := by
  simp only [automaton, if_pos more, hcur]
  change (match node (childOn b w) with | none => _ | some v => _) = _
  rw [hchild]
  rfl

variable {v : BitVec 32} (hchild : node (childOn b w) = some v)
include hchild

theorem automaton_cons : automaton node root expected cap (b :: rest) cur symbols used =
    if nodeIsLeaf v then
      if symbols.length = cap then .overflow
      else automaton node root expected cap rest root (symbols ++ [nodeSym v]) (used + 1)
    else automaton node root expected cap rest (childOn b w) symbols (used + 1) := by
  simp only [automaton, if_pos more, hcur]
  change (match node (childOn b w) with | none => _ | some v => _) = _
  rw [hchild]
  rfl

end

/-- The walk on the registers after `used` bits is the automaton on the bits left. -/
theorem walk_eq_automaton (root : BitVec 9) (e : BitVec 32) (bits : List Bool) {fuel used : Nat} {cur : BitVec 9}
    {symbols : List (BitVec 8)} {s : State} (small : s.ib.length ≤ 2 ^ 24) (left : (bitsOf s.ib).drop used = bits)
    (all : used + bits.length = 8 * s.ib.length) (enough : bits.length ≤ fuel) :
    walk (fuel + 1) root e cur (walkedBy symbols used s) =
      walkEndOf s (automaton (nodeOf s) root e.toNat s.cfg.obCap bits cur symbols used) := by
  induction bits generalizing fuel used cur symbols with
  | nil =>
    have atEnd := readBit_at_end (standsAt_walkedBy symbols used s) small all
    by_cases more : symbols.length < e.toNat
    · rw [automaton_ended more, walk, if_pos (show (walkedBy symbols used s).ob.length < e.toNat from more), atEnd]
      rfl
    · rw [automaton_enough more, walk, if_neg (show ¬ (walkedBy symbols used s).ob.length < e.toNat from more)]
      rfl
  | cons b rest ih =>
    by_cases more : symbols.length < e.toNat
    · simp only [List.length_cons] at all enough
      obtain ⟨fuel, rfl⟩ := Nat.exists_eq_add_one_of_ne_zero (show fuel ≠ 0 by omega)
      have here : (bitsOf s.ib)[used]? = some b := by rw [← List.head?_drop, left]; rfl
      have leftAfter : (bitsOf s.ib).drop (used + 1) = rest := by rw [← List.drop_drop, left]; rfl
      have onward (next : BitVec 9) (emitted : List (BitVec 8)) := ih (fuel := fuel) (cur := next) (symbols := emitted)
        leftAfter (by omega) (by omega)
      have read : readBit (walkedBy symbols used s) = some (b, walkedBy symbols (used + 1) s) :=
        readBit_at (standsAt_walkedBy symbols used s) small here
      rw [walk_bit more read, walkStep_eq]
      cases hcur : nodeOf s cur with
      | none =>
        rw [automaton_badNode more hcur, fetchNode_of_none (s := walkedBy symbols (used + 1) s) hcur]
        rfl
      | some w =>
        rw [fetchNode_of_some (s := walkedBy symbols (used + 1) s) hcur]
        simp only [Except.bind]
        cases hchild : nodeOf s (childOn b w) with
        | none =>
          rw [automaton_badChild more hcur hchild, fetchNode_of_none (s := walkedBy symbols (used + 1) s) hchild]
          rfl
        | some v =>
          rw [automaton_cons more hcur hchild, fetchNode_of_some (s := walkedBy symbols (used + 1) s) hchild]
          simp only [enter]
          by_cases leaf : nodeIsLeaf v
          · rw [if_pos leaf, if_pos leaf]
            by_cases full : symbols.length = s.cfg.obCap
            · rw [if_pos full, appendOb_full _ (show (walkedBy symbols (used + 1) s).ob.length = _ from full)]
              rfl
            · rw [if_neg full, appendOb_room _ (show (walkedBy symbols (used + 1) s).ob.length ≠ _ from full)]
              exact onward root (symbols ++ [nodeSym v])
          · rw [if_neg leaf, if_neg leaf]
            exact onward (childOn b w) symbols
    · rw [automaton_enough more, walk, if_neg (show ¬ (walkedBy symbols used s).ob.length < e.toNat from more)]
      rfl

/-- A decode with an internal node at the root (42_huffman_decoder.md R126). -/
theorem exec_htdDecode_automaton {s : State} {e w : BitVec 32} (ready : s.fault = 0#8)
    (root : nodeOf s s.treeRoot = some w) (internal : nodeIsLeaf w = false) (small : s.ib.length ≤ 2 ^ 24) :
    exec (.htdDecode e) s = .next (walkConcluded s (walkEndOf (openDecode e s)
      (automaton (nodeOf s) s.treeRoot e.toNat s.cfg.obCap (bitsOf s.ib) s.treeRoot [] 0))) := by
  have walked := walk_eq_automaton (s := openDecode e s) (fuel := 8 * s.ib.length) (used := 0) (cur := s.treeRoot)
    (symbols := []) s.treeRoot e (bitsOf s.ib) small rfl ((Nat.zero_add _).trans (bitsOf_length s.ib))
    (bitsOf_length s.ib).le
  rw [exec_htdDecode_walk e ready (fetchNode_of_some root) internal]
  exact congrArg (fun work => Host.Outcome.next (walkConcluded s work)) walked

end Sys2Proof.Machine

open Sys2Proof Sys2Proof.Machine

/-- Settles O44: the walk's registers hold what the automaton does, bit by bit. -/
theorem decodeIsThePrefixAutomaton : Obligations.DecodeIsThePrefixAutomaton := by
  unfold Obligations.DecodeIsThePrefixAutomaton
  intro s e ready declared small
  refine ⟨fun root => exec_htdDecode_badRoot e ready declared (fetchNode_of_none root), fun w root internal => ?_⟩
  rw [exec_htdDecode_automaton ready root internal small]
  cases Claims.automaton (Claims.nodeOf s) s.treeRoot e.toNat s.cfg.obCap (Procedures.bitsOf s.ib) s.treeRoot [] 0 with
  | badTree i => rfl
  | overflow => rfl
  | stopped symbols cur used eos => cases eos <;> rfl

end

/-! Proofs: an arena that holds a tree walks as the tree does (44_host_procedures.md R173, R174) -/
section

namespace Sys2Proof.Procedures

open Sys2Proof.Machine Sys2Proof.Claims

/-- The child on a bit, `0` to the left and `1` to the right (44_host_procedures.md R174). -/
def subtreeOn (b : Bool) (l r : HuffTree) : HuffTree := if b then r else l

/-- The symbol of the leaf at the end of a path (44_host_procedures.md R174). -/
def leafAt (t : HuffTree) (path : List Bool) : Option (BitVec 8) :=
  match t, path with
  | .leaf sym _, [] => some sym
  | .node l r, b :: rest => if b then leafAt r rest else leafAt l rest
  | _, _ => none

theorem leafAt_node_cons (l r : HuffTree) (b : Bool) (path : List Bool) :
    leafAt (.node l r) (b :: path) = leafAt (subtreeOn b l r) path := by
  cases b <;> rfl

/-- The code table lists leaves at the ends of their paths (44_host_procedures.md R174). -/
theorem leafAt_of_mem_pathsFrom {t : HuffTree} {start code : List Bool} {sym : BitVec 8}
    (h : (sym, code) ∈ pathsFrom start t) : ∃ path, code = start ++ path ∧ leafAt t path = some sym := by
  induction t generalizing start with
  | leaf s k =>
    cases List.mem_singleton.1 h
    exact ⟨[], (List.append_nil _).symm, rfl⟩
  | node l r ihl ihr =>
    rcases List.mem_append.1 h with h | h
    · obtain ⟨path, rfl, hleaf⟩ := ihl h
      exact ⟨false :: path, by simp, hleaf⟩
    · obtain ⟨path, rfl, hleaf⟩ := ihr h
      exact ⟨true :: path, by simp, hleaf⟩

theorem leafAt_of_mem_buildCodes {l r : HuffTree} {code : List Bool} {sym : BitVec 8}
    (h : (sym, code) ∈ buildCodes (.node l r)) : leafAt (.node l r) code = some sym := by
  obtain ⟨path, rfl, hleaf⟩ := leafAt_of_mem_pathsFrom h
  exact hleaf

theorem mem_of_codeFor {table : List (BitVec 8 × List Bool)} {sym : BitVec 8} {code : List Bool}
    (h : codeFor table sym = some code) : (sym, code) ∈ table := by
  induction table with
  | nil => cases h
  | cons entry rest ih =>
    obtain ⟨s, c⟩ := entry
    by_cases found : s = sym
    · subst found
      simp only [codeFor, if_true, Option.some.injEq] at h
      exact h ▸ List.mem_cons_self
    · simp only [codeFor, if_neg found] at h
      exact List.mem_cons_of_mem _ (ih h)

theorem encodeBits_cons {table : List (BitVec 8 × List Bool)} {sym : BitVec 8} {rest : List (BitVec 8)}
    {bits : List Bool} (h : encodeBits table (sym :: rest) = some bits) :
    ∃ code more, codeFor table sym = some code ∧ encodeBits table rest = some more ∧ bits = code ++ more := by
  cases hcode : codeFor table sym with
  | none => simp [encodeBits, hcode] at h
  | some code =>
    cases hrest : encodeBits table rest with
    | none => simp [encodeBits, hcode, hrest] at h
    | some more => exact ⟨code, more, rfl, rfl, by simpa [encodeBits, hcode, hrest] using h.symm⟩

/-! ### The nodes of a tree in the arena -/

/-- The arena of `s` holds the tree at this node. -/
def HeldAt (s : State) (t : HuffTree) (i : BitVec 9) : Prop := HoldsAt s.tree s.treeN.toNat t i

theorem HeldAt.leaf {s : State} {sym : BitVec 8} {k : Nat} {i : BitVec 9} (h : HeldAt s (.leaf sym k) i) :
    ∃ w, nodeOf s i = some w ∧ nodeIsLeaf w = true ∧ nodeSym w = sym := by
  obtain ⟨inside, w, hread, leaf, same⟩ := h
  exact ⟨w, (nodeOf_eq_some_iff s i w).2 ⟨inside, hread⟩, leaf, same⟩

theorem HeldAt.node {s : State} {l r : HuffTree} {i : BitVec 9} (h : HeldAt s (.node l r) i) :
    ∃ w, nodeOf s i = some w ∧ nodeIsLeaf w = false ∧ ∀ b, HeldAt s (subtreeOn b l r) (childOn b w) := by
  obtain ⟨inside, w, hread, internal, left, right⟩ := h
  exact ⟨w, (nodeOf_eq_some_iff s i w).2 ⟨inside, hread⟩, internal, fun b => by cases b <;> assumption⟩

end Sys2Proof.Procedures
end

/-! Proofs: the Huffman round trip (42_huffman_decoder.md R132) -/
section

namespace Sys2Proof.Procedures

open Sys2Proof.Machine Sys2Proof.Claims

section
variable {s : State} {l r : HuffTree} {root : BitVec 9} {expected cap : Nat}

/-- The automaton descends along the code of a symbol, emits it and is back at the root. -/
theorem automaton_code {path rest : List Bool} {cur : BitVec 9} {sym : BitVec 8} {symbols : List (BitVec 8)}
    {used : Nat} (more : symbols.length < expected) (room : symbols.length ≠ cap) (held : HeldAt s (.node l r) cur)
    (hleaf : leafAt (.node l r) path = some sym) :
    automaton (nodeOf s) root expected cap (path ++ rest) cur symbols used =
      automaton (nodeOf s) root expected cap rest root (symbols ++ [sym]) (used + path.length) := by
  induction path generalizing l r cur used with
  | nil => cases hleaf
  | cons b path ih =>
    obtain ⟨w, hcur, -, children⟩ := held.node
    have child := children b
    rw [leafAt_node_cons] at hleaf
    cases hsub : subtreeOn b l r with
    | leaf sym' k =>
      rw [hsub] at hleaf child
      obtain ⟨v, hchild, leaf, rfl⟩ := child.leaf
      cases path with
      | cons c path => cases hleaf
      | nil =>
        cases hleaf
        rw [List.cons_append, automaton_cons more hcur hchild, if_pos leaf, if_neg room]
        rfl
    | node l' r' =>
      rw [hsub] at hleaf child
      obtain ⟨v, hchild, internal, -⟩ := child.node
      rw [List.cons_append, automaton_cons more hcur hchild, if_neg (by simp [internal]), ih child hleaf,
        List.length_cons, Nat.add_right_comm, Nat.add_assoc]

/-- On the encoded text the automaton emits the text and stops, whatever bits follow. -/
theorem automaton_encodeBits {text : List (BitVec 8)} {bits pad : List Bool} {symbols : List (BitVec 8)} {used : Nat}
    (held : HeldAt s (.node l r) root) (encoded : encodeBits (buildCodes (.node l r)) text = some bits)
    (all : symbols.length + text.length = expected) (room : expected ≤ cap) :
    ∃ read, automaton (nodeOf s) root expected cap (bits ++ pad) root symbols used =
      .stopped (symbols ++ text) root read false := by
  induction text generalizing bits symbols used with
  | nil =>
    rw [List.append_nil]
    exact ⟨used, automaton_enough (by simp at all; omega) _⟩
  | cons sym rest ih =>
    obtain ⟨code, more, hcode, hrest, rfl⟩ := encodeBits_cons encoded
    have hleaf := leafAt_of_mem_buildCodes (mem_of_codeFor hcode)
    simp only [List.length_cons] at all
    rw [List.append_assoc, automaton_code (by omega) (by omega) held hleaf]
    simpa using ih (symbols := symbols ++ [sym]) (used := used + code.length) hrest (by simp; omega)

end

/-- A one-leaf code table encodes texts of its symbol only. -/
theorem eq_replicate_of_encodeBits_single {sym : BitVec 8} {code bits : List Bool} {text : List (BitVec 8)}
    (h : encodeBits [(sym, code)] text = some bits) : text = List.replicate text.length sym := by
  induction text generalizing bits with
  | nil => rfl
  | cons v rest ih =>
    obtain ⟨found, more, hcode, hrest, -⟩ := encodeBits_cons h
    have same : v = sym := congrArg Prod.fst (List.mem_singleton.1 (mem_of_codeFor hcode))
    rw [List.length_cons, List.replicate_succ, ← ih hrest, same]

end Sys2Proof.Procedures

open Sys2Proof Sys2Proof.Machine Sys2Proof.Procedures

/-- Settles O45: the automaton emits a symbol for each code and stops at the count, before the padding. -/
theorem huffmanRoundTrip : Obligations.HuffmanRoundTrip := by
  unfold Obligations.HuffmanRoundTrip
  intro s tree text bits ready _ held encoded packed fits room ok
  obtain ⟨⟨-, ibSmall⟩, ⟨-, obSmall⟩, -, -⟩ := ok
  have count : (BitVec.ofNat 32 text.length).toNat = text.length := by
    rw [BitVec.toNat_ofNat]
    omega
  cases tree with
  | leaf sym k =>
    obtain ⟨w, root, leaf, rfl⟩ := HeldAt.leaf held
    have same := eq_replicate_of_encodeBits_single encoded
    refine ⟨_, exec_htdDecode_leaf_room ready root leaf (count.symm ▸ room), ?_, ready, rfl⟩
    show List.replicate _ _ = text
    rw [count, ← same]
  | node l r =>
    obtain ⟨w, root, internal, -⟩ := HeldAt.node held
    obtain ⟨read, stops⟩ := automaton_encodeBits (cap := s.cfg.obCap) (symbols := []) (used := 0)
      (pad := List.replicate (8 * ((bits.length + 7) / 8) - bits.length) false) held encoded (Nat.zero_add _) room
    have hexec := exec_htdDecode_automaton (e := BitVec.ofNat 32 text.length) ready root internal (fits.trans ibSmall)
    rw [packed, bitsOf_packBits, count, stops] at hexec
    exact ⟨_, hexec, rfl, ready, rfl⟩

end

/-! Proofs: a decode depends on the shape of the tree, not on its image (44_host_procedures.md R173) -/
section

namespace Sys2Proof.Procedures

open Sys2Proof.Machine Sys2Proof.Claims

/-- `s` with the arena of `m`, its declaration and `HTD_CUR`. -/
def withArena (m s : State) : State :=
  { s with tree := m.tree, treeN := m.treeN, treeRoot := m.treeRoot, htdCur := m.htdCur }

/-- What a walk leaves beside the node it reached. -/
def walkOutcome (e : WalkEnd) : Bool × State := (e.eos, e.after)

theorem readBit_withArena (m s : State) :
    readBit (withArena m s) = (readBit s).map fun p => (p.1, withArena m p.2) := by
  rcases readBit_cases s with ⟨empty, atEnd, h⟩ | ⟨empty, byte, hbyte, h⟩ | ⟨buffered, h⟩
  · rw [h, (readBit_eq_none_iff (withArena m s)).2 ⟨empty, atEnd⟩]
    rfl
  · rw [h, readBit_refill (s := withArena m s) empty hbyte]
    rfl
  · simp [readBit, withArena, buffered]

theorem appendOb_withArena (v : BitVec 8) (m s : State) :
    appendOb v (withArena m s) = (appendOb v s).map (withArena m) := by
  rcases appendOb_cases v s with ⟨full, h⟩ | ⟨room, h⟩
  · rw [h, appendOb_full (s := withArena m s) v full]
    rfl
  · rw [h, appendOb_room (s := withArena m s) v room]
    rfl

section
variable {s : State} {l r : HuffTree} {root cur : BitVec 9} {b : Bool} (held : HeldAt s (.node l r) cur)
include held

/-- A step onto a leaf emits its symbol and returns to the root. -/
theorem walkStep_leaf {sym : BitVec 8} {k : Nat} (sub : subtreeOn b l r = .leaf sym k) :
    walkStep root cur b s = (appendOb sym s).map fun t => (root, t) := by
  obtain ⟨w, hcur, -, children⟩ := held.node
  obtain ⟨v, hchild, leaf, rfl⟩ := (sub ▸ children b).leaf
  simp only [walkStep_eq, fetchNode_of_some hcur, fetchNode_of_some hchild, Except.bind, enter, leaf, if_true]

/-- A step onto an internal node stands at its subtree. -/
theorem walkStep_node {l' r' : HuffTree} (sub : subtreeOn b l r = .node l' r') :
    ∃ i, walkStep root cur b s = .ok (i, s) ∧ HeldAt s (.node l' r') i := by
  obtain ⟨w, hcur, -, children⟩ := held.node
  have child := sub ▸ children b
  obtain ⟨v, hchild, internal, -⟩ := child.node
  refine ⟨childOn b w, ?_, child⟩
  simp [walkStep_eq, fetchNode_of_some hcur, fetchNode_of_some hchild, Except.bind, enter, internal]

end

/-- A read leaves the arena. -/
theorem HeldAt.read {s t : State} {b : Bool} {tree : HuffTree} {i : BitVec 9} (h : readBit s = some (b, t))
    (held : HeldAt s tree i) : HeldAt t tree i := by
  rw [readBit_frame h]
  exact held

/-- From nodes that hold the same tree, two walks with the same bits end alike, wherever the nodes are. -/
theorem walk_withArena {m : State} {l r l₀ r₀ : HuffTree} (fuel : Nat) (e : BitVec 32)
    {rootS rootM curS curM : BitVec 9} {s : State} (rootHeldM : HeldAt m (.node l₀ r₀) rootM)
    (rootHeldS : HeldAt s (.node l₀ r₀) rootS) (heldS : HeldAt s (.node l r) curS)
    (heldM : HeldAt m (.node l r) curM) :
    (walk fuel rootM e curM (withArena m s)).map walkOutcome =
      (walk fuel rootS e curS s).map fun x => (x.eos, withArena m x.after) := by
  induction fuel generalizing l r curS curM s with
  | zero => rfl
  | succ fuel ih =>
    by_cases more : s.ob.length < e.toNat
    · have readM := readBit_withArena m s
      cases hread : readBit s with
      | none =>
        rw [hread] at readM
        rw [walk, walk, if_pos more, if_pos (show (withArena m s).ob.length < e.toNat from more), hread, readM]
        rfl
      | some p =>
        obtain ⟨b, t⟩ := p
        rw [hread] at readM
        rw [walk_bit more hread, walk_bit (s := withArena m s) more readM]
        have heldT := heldS.read hread
        cases sub : subtreeOn b l r with
        | leaf sym k =>
          rw [walkStep_leaf heldT sub, walkStep_leaf (s := withArena m t) heldM sub, appendOb_withArena]
          rcases appendOb_cases sym t with ⟨-, h⟩ | ⟨-, h⟩ <;> rw [h]
          · rfl
          · have rootHeldT := rootHeldS.read hread
            exact ih (s := { t with ob := t.ob ++ [sym] }) rootHeldT rootHeldT rootHeldM
        | node l' r' =>
          obtain ⟨i, stepT, heldI⟩ := walkStep_node (root := rootS) heldT sub
          obtain ⟨j, stepM, heldJ⟩ := walkStep_node (s := withArena m t) (root := rootM) heldM sub
          rw [stepT, stepM]
          exact ih (rootHeldS.read hread) heldI heldJ
    · rw [walk, walk, if_neg more, if_neg (show ¬ (withArena m s).ob.length < e.toNat from more)]
      rfl

/-- The states that two walks leave when they end alike. -/
theorem walkConcluded_withArena {m s : State} {x y : Except Raise WalkEnd}
    (alike : x.map walkOutcome = y.map fun e => (e.eos, withArena m e.after)) :
    walkConcluded (withArena m s) x = { withArena m (walkConcluded s y) with
      htdCur := (walkConcluded (withArena m s) x).htdCur } := by
  cases x with
  | error r =>
    cases y with
    | error r' =>
      cases alike
      rfl
    | ok e => cases alike
  | ok d =>
    cases y with
    | error r => cases alike
    | ok e =>
      obtain ⟨cur, eos, after⟩ := d
      cases alike
      rfl

end Sys2Proof.Procedures

open Sys2Proof Sys2Proof.Machine Sys2Proof.Procedures

/-- Settles O46: a leaf at the root gives the same symbol in both images, and from internal roots the walks take the
same branches. -/
theorem decodeDependsOnTheShapeOnly : Obligations.DecodeDependsOnTheShapeOnly := by
  unfold Obligations.DecodeDependsOnTheShapeOnly
  intro s u tree e same ready heldS heldU
  obtain ⟨m, rfl⟩ : ∃ m, u = withArena m s := ⟨u, same⟩
  cases tree with
  | leaf sym k =>
    obtain ⟨w, rootS, leafS, rfl⟩ := HeldAt.leaf heldS
    obtain ⟨v, rootU, leafU, sameSym⟩ := HeldAt.leaf (s := withArena m s) heldU
    by_cases room : e.toNat ≤ s.cfg.obCap
    · refine ⟨_, _, exec_htdDecode_leaf_room ready rootS leafS room,
        exec_htdDecode_leaf_room (s := withArena m s) ready rootU leafU room, ?_⟩
      rw [sameSym]
      rfl
    · exact ⟨_, _, exec_htdDecode_leaf_full ready rootS leafS (not_le.1 room),
        exec_htdDecode_leaf_full (s := withArena m s) ready rootU leafU (not_le.1 room), rfl⟩
  | node l r =>
    obtain ⟨w, rootS, internalS, -⟩ := HeldAt.node heldS
    obtain ⟨v, rootU, internalU, -⟩ := HeldAt.node (s := withArena m s) heldU
    exact ⟨_, _, exec_htdDecode_walk e ready (fetchNode_of_some rootS) internalS,
      exec_htdDecode_walk (s := withArena m s) e ready (fetchNode_of_some rootU) internalU,
      walkConcluded_withArena (walk_withArena (m := m) (s := openDecode e s) _ e heldU heldS heldS heldU)⟩

end

/-! Proofs: the trees that the construction admits (44_host_procedures.md R172, R174, R177) -/
section

namespace Sys2Proof.Procedures

open Sys2Proof.Machine Sys2Proof.Claims

/-- The symbols of the leaves, from left to right (44_host_procedures.md R174). -/
def leafSymbols (t : HuffTree) : List (BitVec 8) :=
  match t with
  | .leaf sym _ => [sym]
  | .node l r => leafSymbols l ++ leafSymbols r

theorem pathsFrom_symbols (start : List Bool) (t : HuffTree) : (pathsFrom start t).map Prod.fst = leafSymbols t := by
  induction t generalizing start with
  | leaf sym k => rfl
  | node l r ihl ihr => rw [pathsFrom, List.map_append, ihl, ihr, leafSymbols]

theorem buildCodes_symbols (t : HuffTree) : (buildCodes t).map Prod.fst = leafSymbols t := by
  cases t with
  | leaf sym k => rfl
  | node l r => exact pathsFrom_symbols [] (.node l r)

theorem leaves_symbols (freq : List (BitVec 8 × Nat)) : (leaves freq).flatMap leafSymbols = freq.map Prod.fst := by
  simp [leaves, List.flatMap_map, leafSymbols, ← List.map_eq_flatMap]

/-- Merging keeps the leaves. -/
theorem leafSymbols_merged {x y z : HuffTree} (merged : z = .node x y ∨ z = .node y x) :
    (leafSymbols z).Perm (leafSymbols x ++ leafSymbols y) := by
  rcases merged with rfl | rfl
  · exact List.Perm.refl _
  · exact List.perm_append_comm

/-- The leaves of the tree are those of the collection it was built from. -/
theorem Builds.symbols {p : List HuffTree} {t : HuffTree} (h : Builds p t) :
    (leafSymbols t).Perm (p.flatMap leafSymbols) := by
  induction h with
  | done t => simp
  | merge p rest x y z t split lightest next merged onward ih =>
    calc (leafSymbols t).Perm ((z :: rest).flatMap leafSymbols) := ih
      List.Perm _ ((leafSymbols x ++ leafSymbols y) ++ rest.flatMap leafSymbols) :=
        (leafSymbols_merged merged).append_right _
      List.Perm _ ((x :: y :: rest).flatMap leafSymbols) := by simp
      List.Perm _ (p.flatMap leafSymbols) := (split.flatMap_right _).symm

theorem mem_frequency_symbols {text : List (BitVec 8)} {sym : BitVec 8} (h : sym ∈ text) :
    sym ∈ (frequency text).map Prod.fst := by
  have counted : text.count sym ≠ 0 := (List.count_pos_iff.2 h).ne'
  refine List.mem_map.2 ⟨(sym, text.count sym), ?_, rfl⟩
  exact List.mem_filterMap.2 ⟨sym, mem_symbols sym, if_neg counted⟩

/-- A symbol of the table has a code. -/
theorem codeFor_of_mem {table : List (BitVec 8 × List Bool)} {sym : BitVec 8} (h : sym ∈ table.map Prod.fst) :
    ∃ code, codeFor table sym = some code := by
  induction table with
  | nil => cases h
  | cons entry rest ih =>
    obtain ⟨s, code⟩ := entry
    by_cases found : s = sym
    · exact ⟨code, if_pos found⟩
    · obtain ⟨code', hcode⟩ := ih ((List.mem_cons.1 h).resolve_left (Ne.symm found))
      exact ⟨code', (if_neg found).trans hcode⟩

theorem encodeBits_of_codes {table : List (BitVec 8 × List Bool)} {text : List (BitVec 8)}
    (known : ∀ sym ∈ text, sym ∈ table.map Prod.fst) : ∃ bits, encodeBits table text = some bits := by
  induction text with
  | nil => exact ⟨[], rfl⟩
  | cons sym rest ih =>
    obtain ⟨code, hcode⟩ := codeFor_of_mem (known sym List.mem_cons_self)
    obtain ⟨bits, hbits⟩ := ih fun v hv => known v (List.mem_cons_of_mem sym hv)
    exact ⟨code ++ bits, by simp only [encodeBits, hcode, hbits]⟩

/-- No path to a leaf goes on to another leaf. -/
theorem leafAt_prefix {t : HuffTree} {p q : List Bool} {a b : BitVec 8} (hp : leafAt t p = some a)
    (hq : leafAt t q = some b) (pre : p <+: q) : p = q := by
  induction t generalizing p q with
  | leaf sym k =>
    cases p with
    | cons c p => cases hp
    | nil =>
      cases q with
      | cons c q => cases hq
      | nil => rfl
  | node l r ihl ihr =>
    cases p with
    | nil => cases hp
    | cons c p =>
      cases q with
      | nil => cases hq
      | cons d q =>
        obtain ⟨rfl, tail⟩ := List.cons_prefix_cons.1 pre
        cases c with
        | false => rw [ihl hp hq tail]
        | true => rw [ihr hp hq tail]

/-- No code of the table begins another (44_host_procedures.md R177). -/
theorem buildCodes_prefixFree (t : HuffTree) : ∀ p ∈ buildCodes t, ∀ q ∈ buildCodes t, p.2 <+: q.2 → p = q := by
  intro p hp q hq pre
  cases t with
  | leaf sym k => rw [List.mem_singleton.1 hp, List.mem_singleton.1 hq]
  | node l r =>
    have atP : leafAt (.node l r) p.2 = some p.1 := leafAt_of_mem_buildCodes hp
    have atQ : leafAt (.node l r) q.2 = some q.1 := leafAt_of_mem_buildCodes hq
    have sameCode := leafAt_prefix atP atQ pre
    exact Prod.ext (Option.some.inj (atP.symm.trans (sameCode ▸ atQ))) sameCode

end Sys2Proof.Procedures

open Sys2Proof Sys2Proof.Machine Sys2Proof.Procedures

/-- Settles O47: building keeps the leaves, so every symbol of the text has its code; codes are paths to leaves. -/
theorem admissibleTreesEncodeTheirText : Obligations.AdmissibleTreesEncodeTheirText := by
  unfold Obligations.AdmissibleTreesEncodeTheirText
  intro text tree admissible
  have symbols : ((buildCodes tree).map Prod.fst).Perm ((frequency text).map Prod.fst) := by
    rw [buildCodes_symbols, ← leaves_symbols]
    exact admissible.symbols
  exact ⟨symbols, encodeBits_of_codes fun sym hsym => symbols.mem_iff.2 (mem_frequency_symbols hsym),
    buildCodes_prefixFree tree⟩

end

/-! Proofs: a packer session leaves the packed bits (41_bitstream.md R101 to R104, 20_memory.md R46) -/
section

namespace Sys2Proof.Machine

open Sys2Proof.Claims Sys2Proof.Procedures

/-- The number that the first `k` bits of byte `j` spell, most significant first (20_memory.md R46). -/
def chunkValue (bits : List Bool) (j k : Nat) : Nat :=
  match k with
  | 0 => 0
  | k + 1 => 2 * chunkValue bits j k + (bits.getD (8 * j + k) false).toNat

theorem packedByte_eq_chunkValue (bits : List Bool) (j : Nat) :
    packedByte bits j = BitVec.ofNat 8 (chunkValue bits j 8) := by
  have all : ∀ b0 b1 b2 b3 b4 b5 b6 b7 : Bool,
      [if b0 then 2 ^ 7 else 0, if b1 then 2 ^ 6 else 0, if b2 then 2 ^ 5 else 0, if b3 then 2 ^ 4 else 0,
        if b4 then 2 ^ 3 else 0, if b5 then 2 ^ 2 else 0, if b6 then 2 ^ 1 else 0, if b7 then 2 ^ 0 else 0].sum =
      2 * (2 * (2 * (2 * (2 * (2 * (2 * (2 * 0 + b0.toNat) + b1.toNat) + b2.toNat) + b3.toNat) + b4.toNat) + b5.toNat) +
        b6.toNat) + b7.toNat := by decide
  exact congrArg (BitVec.ofNat 8) (all _ _ _ _ _ _ _ _)

theorem chunkValue_lt (bits : List Bool) (j k : Nat) : chunkValue bits j k < 2 ^ k := by
  induction k with
  | zero => exact Nat.one_pos
  | succ k ih =>
    have := Bool.toNat_lt (bits.getD (8 * j + k) false)
    simp only [chunkValue, pow_succ]
    omega

/-- A further bit leaves the chunks before it. -/
theorem chunkValue_concat {bits : List Bool} {j k : Nat} (inside : 8 * j + k ≤ bits.length) (b : Bool) :
    chunkValue (bits ++ [b]) j k = chunkValue bits j k := by
  induction k with
  | zero => rfl
  | succ k ih =>
    rw [chunkValue, chunkValue, ih (by omega), List.getD_append _ _ _ _ (by omega)]

/-- A further bit doubles the value of its chunk and adds to it. -/
theorem chunkValue_concat_last {bits : List Bool} {j k : Nat} (here : 8 * j + k = bits.length) (b : Bool) :
    chunkValue (bits ++ [b]) j (k + 1) = 2 * chunkValue bits j k + b.toNat := by
  rw [chunkValue, chunkValue_concat here.le, here, List.getD_append_right _ _ _ _ le_rfl, Nat.sub_self]
  rfl

/-- Missing bits are zeros (20_memory.md R46). -/
theorem chunkValue_padded {bits : List Bool} {j k : Nat} (beyond : bits.length ≤ 8 * j + k) (m : Nat) :
    chunkValue bits j (k + m) = chunkValue bits j k * 2 ^ m := by
  induction m with
  | zero => simp
  | succ m ih =>
    rw [← Nat.add_assoc, chunkValue, ih, List.getD_eq_default _ _ (by omega), pow_succ]
    simp only [Bool.toNat_false]
    ring

/-- The number of the bits pending after `bits` (41_bitstream.md R102). -/
def pendingValue (bits : List Bool) : Nat := chunkValue bits (bits.length / 8) (bits.length % 8)

/-- The whole bytes of `bits` (41_bitstream.md R101). -/
def wholeBytes (bits : List Bool) : List (BitVec 8) := (List.range (bits.length / 8)).map (packedByte bits)

/-- `s` after a packer session has taken `bits`, with the responses `rs`. -/
def packing (bits : List Bool) (rs : List (BitVec 40)) (s : State) : State :=
  { s with
    ob := wholeBytes bits, acc := BitVec.ofNat 8 (pendingValue bits), nacc := BitVec.ofNat 3 (bits.length % 8)
    rsps := rs }

theorem wholeBytes_length (bits : List Bool) : (wholeBytes bits).length = bits.length / 8 := by simp [wholeBytes]

theorem packing_acc (bits : List Bool) (rs : List (BitVec 40)) (s : State) :
    (packing bits rs s).acc.toNat = pendingValue bits := by
  have bound := chunkValue_lt bits (bits.length / 8) (bits.length % 8)
  have small : 2 ^ (bits.length % 8) ≤ 2 ^ 8 := Nat.pow_le_pow_right two_pos (by omega)
  exact (BitVec.toNat_ofNat _ _).trans (Nat.mod_eq_of_lt (bound.trans_le small))

theorem packing_nacc (bits : List Bool) (rs : List (BitVec 40)) (s : State) :
    (packing bits rs s).nacc.toNat = bits.length % 8 :=
  (BitVec.toNat_ofNat _ _).trans (Nat.mod_eq_of_lt (by omega))

theorem packing_notFull {bits : List Bool} {s : State} (rs : List (BitVec 40))
    (room : bits.length / 8 + 1 ≤ s.cfg.obCap) : (packing bits rs s).ob.length ≠ (packing bits rs s).cfg.obCap := by
  show (wholeBytes bits).length ≠ s.cfg.obCap
  rw [wholeBytes_length]
  omega

/-- A further bit leaves the whole bytes. -/
theorem packedByte_concat {bits : List Bool} {j : Nat} (whole : j < bits.length / 8) (b : Bool) :
    packedByte (bits ++ [b]) j = packedByte bits j := by
  rw [packedByte_eq_chunkValue, packedByte_eq_chunkValue, chunkValue_concat (by omega)]

theorem map_packedByte_concat (bits : List Bool) (b : Bool) :
    (List.range (bits.length / 8)).map (packedByte (bits ++ [b])) = wholeBytes bits :=
  List.map_congr_left fun _ hj => packedByte_concat (List.mem_range.1 hj) b

theorem bitValue_isBit (b : Bool) : IsBit (bitValue b) := by cases b <;> simp [IsBit, bitValue]

theorem bitValue_toNat (b : Bool) : (bitValue b).toNat = b.toNat := by cases b <;> rfl

/-- One bit of a session with room for the bytes. -/
theorem exec_bspWbit_packing {bits : List Bool} {b : Bool} {s : State} (rs : List (BitVec 40)) (ready : s.fault = 0#8)
    (room : (bits ++ [b]).length / 8 ≤ s.cfg.obCap) :
    ∃ rs', exec (.bspWbit (bitValue b)) (packing bits rs s) = .next (packing (bits ++ [b]) rs' s) := by
  have here : 8 * (bits.length / 8) + bits.length % 8 = bits.length := Nat.div_add_mod _ _
  have value := chunkValue_concat_last here b
  have length : (bits ++ [b]).length = bits.length + 1 := List.length_append
  have nacc := packing_nacc bits rs s
  rw [length] at room
  by_cases eighth : bits.length % 8 = 7
  · have quotient : (bits.length + 1) / 8 = bits.length / 8 + 1 := by omega
    have remainder : (bits.length + 1) % 8 = 0 := by omega
    have notFull := packing_notFull rs (quotient ▸ room)
    have byte : packedByte (bits ++ [b]) (bits.length / 8) = BitVec.ofNat 8 (2 * pendingValue bits + b.toNat) := by
      rw [packedByte_eq_chunkValue, pendingValue, ← value, eighth]
    refine ⟨rs ++ [rsp 0x00#8 (BitVec.ofNat 32 (bits.length / 8 + 1))],
      (exec_bspWbit_eighth_room (s := packing bits rs s) ready (bitValue_isBit b) (nacc.trans eighth) notFull).trans ?_⟩
    simp only [packing_acc, bitValue_toNat, ← byte]
    simp [packing, answered, wholeBytes, pendingValue, quotient, remainder, List.range_succ, map_packedByte_concat,
      chunkValue]
  · have quotient : (bits.length + 1) / 8 = bits.length / 8 := by omega
    have remainder : (bits.length + 1) % 8 = bits.length % 8 + 1 := by omega
    refine ⟨rs ++ [rsp 0x00#8 (BitVec.ofNat 32 (bits.length / 8))],
      (exec_bspWbit_pending (s := packing bits rs s) ready (bitValue_isBit b) (by omega)).trans ?_⟩
    simp only [packing_acc, packing_nacc, bitValue_toNat, pendingValue, ← value]
    simp [packing, answered, wholeBytes, pendingValue, quotient, remainder, map_packedByte_concat]

theorem runInstrs_bspWbits (more : List Bool) {bits : List Bool} {s : State} (rs : List (BitVec 40))
    (ready : s.fault = 0#8) (room : (bits ++ more).length / 8 ≤ s.cfg.obCap) :
    ∃ rs', runInstrs (bspWbits more) (packing bits rs s) = .next (packing (bits ++ more) rs' s) := by
  induction more generalizing bits rs with
  | nil => exact ⟨rs, by rw [List.append_nil]; rfl⟩
  | cons b rest ih =>
    rw [List.append_cons] at room ⊢
    have roomNow : (bits ++ [b]).length / 8 ≤ s.cfg.obCap := by
      refine (Nat.div_le_div_right ?_).trans room
      simp
    obtain ⟨rs', hbit⟩ := exec_bspWbit_packing rs ready roomNow
    obtain ⟨rs'', hrest⟩ := ih rs' room
    exact ⟨rs'', (runInstrs_cons hbit).trans hrest⟩

/-- After a multiple of 8 bits the whole bytes are all (41_bitstream.md R103). -/
theorem wholeBytes_eq_packBits {bits : List Bool} (even : bits.length % 8 = 0) : wholeBytes bits = packBits bits := by
  have quotient : (bits.length + 7) / 8 = bits.length / 8 := by omega
  rw [wholeBytes, packBits, quotient]

/-- The flush leaves the packed bits and an empty accumulator. -/
theorem exec_bspFlush_packing {bits : List Bool} {s : State} (rs : List (BitVec 40)) (ready : s.fault = 0#8)
    (room : (bits.length + 7) / 8 ≤ s.cfg.obCap) : ∃ rs', exec .bspFlush (packing bits rs s) =
      .next { s with ob := packBits bits, acc := 0#8, nacc := 0#3, rsps := rs' } := by
  have nacc := packing_nacc bits rs s
  by_cases even : bits.length % 8 = 0
  · have none : (packing bits rs s).nacc = 0#3 := BitVec.eq_of_toNat_eq (nacc.trans even)
    refine ⟨rs ++ [rsp 0x00#8 (BitVec.ofNat 32 (bits.length / 8))],
      (exec_bspFlush_none (s := packing bits rs s) ready none).trans ?_⟩
    simp [packing, answered, wholeBytes_length, ← wholeBytes_eq_packBits even, pendingValue, even, chunkValue]
  · have pending : (packing bits rs s).nacc ≠ 0#3 := fun none => even (by rw [← nacc, none]; rfl)
    have quotient : (bits.length + 7) / 8 = bits.length / 8 + 1 := by omega
    have notFull := packing_notFull rs (quotient ▸ room)
    have byte : packedByte bits (bits.length / 8) = BitVec.ofNat 8 (pendingValue bits * 2 ^ (8 - bits.length % 8)) := by
      have whole : 8 = bits.length % 8 + (8 - bits.length % 8) := by omega
      rw [packedByte_eq_chunkValue, pendingValue, ← chunkValue_padded (by omega), ← whole]
    refine ⟨rs ++ [rsp 0x00#8 (BitVec.ofNat 32 (bits.length / 8 + 1))],
      (exec_bspFlush_room (s := packing bits rs s) ready pending notFull).trans ?_⟩
    simp only [packing_acc, packing_nacc, ← byte]
    simp [packing, answered, wholeBytes, packBits, quotient, List.range_succ]

/-- A fresh sink has taken no bit. -/
theorem packing_nil {s : State} (ob : s.ob = []) (acc : s.acc = 0#8) (nacc : s.nacc = 0#3) :
    packing [] s.rsps s = s := by
  simp [packing, wholeBytes, pendingValue, chunkValue, ← ob, ← acc, ← nacc]

section
variable {bits : List Bool} {s : State} (ready : s.fault = 0#8) (ob : s.ob = []) (acc : s.acc = 0#8)
  (nacc : s.nacc = 0#3)
include ready ob acc nacc

/-- The bits of a session on a fresh sink. -/
theorem runInstrs_freshBits (room : bits.length / 8 ≤ s.cfg.obCap) :
    ∃ rs, runInstrs (bspWbits bits) s = .next (packing bits rs s) := by
  have run := runInstrs_bspWbits bits (bits := []) s.rsps ready room
  rwa [packing_nil ob acc nacc] at run

/-- The bits of a session on a fresh sink and the flush. -/
theorem runInstrs_freshSession (room : (bits.length + 7) / 8 ≤ s.cfg.obCap) :
    ∃ rs, runInstrs (bspWbits bits ++ [.bspFlush]) s =
      .next { s with ob := packBits bits, acc := 0#8, nacc := 0#3, rsps := rs } := by
  obtain ⟨rs, hbits⟩ := runInstrs_freshBits ready ob acc nacc (bits := bits) (by omega)
  obtain ⟨rs', hflush⟩ := exec_bspFlush_packing rs ready room
  exact ⟨rs', (runInstrs_append hbits).trans (runInstrs_cons hflush)⟩

end

end Sys2Proof.Machine

open Sys2Proof Sys2Proof.Machine

/-- Settles O37: after each bit the sink holds the whole bytes and the number of the bits pending. -/
theorem packerSessionLength : Obligations.PackerSessionLength := by
  unfold Obligations.PackerSessionLength
  refine ⟨fun bits s ready room => ?_,
    fun bits s ready ob acc nacc room => runInstrs_freshSession ready ob acc nacc room,
    fun bits s t ready ob acc nacc room even hrun => ?_, packBits_length⟩
  · obtain ⟨-, opens, -⟩ := bspOpenStartsAnEmptySink
    obtain ⟨rs, hsession⟩ :=
      runInstrs_freshSession (bits := bits) (s := Claims.answered 0#32 (openSinkOb s)) ready rfl rfl rfl room
    exact ⟨rs, (runInstrs_cons (opens s ready)).trans hsession⟩
  · obtain ⟨rs, hbits⟩ := runInstrs_freshBits ready ob acc nacc room
    cases hbits.symm.trans hrun
    exact wholeBytes_eq_packBits even

end

/-! Proofs: the reset state meets the invariants of a reachable state (10_state.md R24, R27) -/
section

namespace Sys2Proof.Machine

/-- The state after reset meets the invariants whatever its parameters and its surroundings are. -/
theorem stateInv_reset {cfg : Config} (ok : cfg.Ok) (input : List HostEvent) (rsps : List (BitVec 40)) :
    StateInv { State.reset with cfg := cfg, input := input, rsps := rsps } where
  left := ok
  right := by
    have latch : LatchInv State.reset := ⟨Nat.zero_le _, by decide, fun _ => ⟨rfl, rfl⟩⟩
    have sink : SinkInv State.reset := ⟨Nat.zero_le _, Nat.one_pos⟩
    have tree : TreeInv State.reset := ⟨Nat.zero_le _, .inl rfl, reset_wf⟩
    have empty : DictInv [] 0#32 cfg.dictCap := .inl ⟨rfl, rfl⟩
    have zero := Nat.zero_le
    exact ⟨latch, ⟨zero _, zero _, zero _⟩, ⟨zero _, zero _⟩, sink, tree, ⟨empty, List.nodup_nil, .inl rfl⟩, empty⟩

theorem resetInstance_ok : Config.resetInstance.Ok := by decide

end Sys2Proof.Machine

open Sys2Proof Sys2Proof.Machine

/-- Settles O16. -/
theorem resetSatisfiesTheInvariant : Obligations.ResetSatisfiesTheInvariant := by
  unfold Obligations.ResetSatisfiesTheInvariant
  exact stateInv_reset resetInstance_ok [] []

end

/-! Proofs: the shared operations keep the invariants (10_state.md R24) -/
section

namespace Sys2Proof.Machine

open Sys2Proof.Claims

theorem length_concat_le {α : Type} {l : List α} {a : α} {cap : Nat} (fits : l.length ≤ cap) (room : l.length ≠ cap) :
    (l ++ [a]).length ≤ cap := by
  rw [List.length_append, List.length_singleton]
  omega

section
variable {s t : State} (h : StateInv s)
include h

theorem StateInv.appendOb {v : BitVec 8} (happend : appendOb v s = .ok t) : StateInv t := by
  obtain ⟨cfg, latch, ⟨ib, ob, cb⟩, rest⟩ := h
  rcases appendOb_cases v s with ⟨-, e⟩ | ⟨room, e⟩ <;> cases e.symm.trans happend
  exact ⟨cfg, latch, ⟨ib, length_concat_le ob room, cb⟩, rest⟩

/-- A byte that went out leaves no bit pending. -/
theorem StateInv.emitted (v : BitVec 8) (room : s.ob.length ≠ s.cfg.obCap) :
    StateInv { s with ob := s.ob ++ [v], acc := 0#8, nacc := 0#3 } := by
  obtain ⟨cfg, latch, ⟨ib, ob, cb⟩, source, -, rest⟩ := h
  exact ⟨cfg, latch, ⟨ib, length_concat_le ob room, cb⟩, source, ⟨Nat.zero_le _, Nat.one_pos⟩, rest⟩

/-- A read leaves the bit source inside `IB` (10_state.md R24 item 2). -/
theorem StateInv.readBit {b : Bool} (hread : readBit s = some (b, t)) : StateInv t := by
  obtain ⟨cfg, latch, buffers, ⟨ptr, cnt⟩, rest⟩ := h
  rcases readBit_cases s with ⟨-, -, e⟩ | ⟨-, byte, hbyte, e⟩ | ⟨buffered, e⟩ <;> cases e.symm.trans hread
  · have inside := (List.getElem?_eq_some_iff.1 hbyte).1
    have next : (s.ibPtr + 1#32).toNat ≤ s.ib.length := by
      rw [BitVec.toNat_add]
      exact (Nat.mod_le _ _).trans inside
    have seven : (7#4).toNat ≤ 8 := by decide
    exact ⟨cfg, latch, buffers, ⟨next, seven⟩, rest⟩
  · have fewer : (s.bitcnt - 1#4).toNat ≤ 8 := by bv_omega
    exact ⟨cfg, latch, buffers, ⟨ptr, fewer⟩, rest⟩

theorem StateInv.openDecode (count : BitVec 32) : StateInv (openDecode count s) := by
  obtain ⟨cfg, latch, ⟨ib, -, cb⟩, -, -, rest⟩ := h
  exact ⟨cfg, latch, ⟨ib, Nat.zero_le _, cb⟩, ⟨Nat.zero_le _, Nat.zero_le _⟩, ⟨Nat.zero_le _, Nat.one_pos⟩, rest⟩

/-- A step of the walk that ends has written a symbol or nothing. -/
theorem StateInv.walkStep {root cur i : BitVec 9} {b : Bool} (hstep : walkStep root cur b s = .ok (i, t)) :
    StateInv t := by
  rw [walkStep_eq, bind_eq_ok] at hstep
  obtain ⟨w, -, hchild⟩ := hstep
  obtain ⟨v, -, henter⟩ := bind_eq_ok.1 hchild
  unfold enter at henter
  split at henter
  · cases happend : Machine.appendOb (nodeSym v) s with
    | error r => simp [happend, Except.map] at henter
    | ok u =>
      simp only [happend, Except.map, Except.ok.injEq, Prod.mk.injEq] at henter
      exact henter.2 ▸ h.appendOb happend
  · cases henter
    exact h

end

theorem StateInv.walk {s : State} (h : StateInv s) (fuel : Nat) {root cur : BitVec 9} {count : BitVec 32} {e : WalkEnd}
    (hwalk : walk fuel root count cur s = .ok e) : StateInv e.after := by
  induction fuel generalizing cur s with
  | zero =>
    cases hwalk
    exact h
  | succ fuel ih =>
    by_cases more : s.ob.length < count.toNat
    · cases hread : Machine.readBit s with
      | none =>
        simp only [Machine.walk, more, if_true, hread, Except.ok.injEq] at hwalk
        exact hwalk ▸ h
      | some p =>
        rw [walk_bit more hread] at hwalk
        obtain ⟨q, hstep, hrest⟩ := bind_eq_ok.1 hwalk
        exact ih ((h.readBit hread).walkStep hstep) hrest
    · simp only [Machine.walk, more, if_false, Except.ok.injEq] at hwalk
      exact hwalk ▸ h

/-! ### The sink of the LZW decoder -/

/-- `OB` within its capacity and no bit pending, as a decoder's session keeps the sink. -/
structure SinkClear (s : State) : Prop where
  ob : s.ob.length ≤ s.cfg.obCap
  acc : s.acc = 0#8
  nacc : s.nacc = 0#3

section
variable {s t : State} (h : SinkClear s)
include h

theorem SinkClear.append {bytes : List (BitVec 8)} (happend : appendObString bytes s = .ok t) : SinkClear t := by
  by_cases room : s.ob.length + bytes.length ≤ s.cfg.obCap
  · cases (appendObString_fits bytes s room).symm.trans happend
    exact ⟨List.length_append.trans_le room, h.acc, h.nacc⟩
  · cases (appendObString_overflows bytes s h.ob (not_le.1 room)).symm.trans happend

theorem SinkClear.decStep {k : BitVec 32} (hstep : decStep k s = .ok t) : SinkClear t := by
  obtain ⟨entry, hentry, -⟩ := decStep_ok hstep
  rw [decStep_resolved hentry] at hstep
  obtain ⟨u, happend, hinsert⟩ := bind_eq_ok.1 hstep
  cases hinsert
  obtain ⟨ob, acc, nacc⟩ := h.append happend
  exact ⟨ob, acc, nacc⟩

theorem SinkClear.decFirst {k : BitVec 32} (hfirst : decFirst k s = .ok t) : SinkClear t := by
  cases hentry : s.dDict[k.toNat]? with
  | none => cases (decFirst_beyond (List.getElem?_eq_none_iff.1 hentry)).symm.trans hfirst
  | some entry =>
    rw [decFirst_assigned hentry] at hfirst
    exact SinkClear.append (s := { s with dW := entry }) ⟨h.ob, h.acc, h.nacc⟩ hfirst

end

theorem SinkClear.decLoop {s t : State} (h : SinkClear s) (codes : List (BitVec 32)) (hloop : decLoop codes s = .ok t) :
    SinkClear t := by
  induction codes generalizing s with
  | nil =>
    cases hloop
    exact h
  | cons k rest ih =>
    rw [decLoop_cons] at hloop
    obtain ⟨u, hstep, hrest⟩ := bind_eq_ok.1 hloop
    exact ih (h.decStep hstep) hrest

theorem sinkClear_decodeCodes {m : BitVec 32} {s t : State} (h : decodeCodes m s = .ok t) : SinkClear t := by
  have opened : SinkClear (openDecodeLzw m s) := ⟨Nat.zero_le _, rfl, rfl⟩
  unfold decodeCodes at h
  split at h
  · cases h
    exact opened
  · obtain ⟨u, hfirst, hloop⟩ := bind_eq_ok.1 h
    exact (opened.decFirst hfirst).decLoop _ hloop

end Sys2Proof.Machine
end

/-! Proofs: every command keeps the invariants (10_state.md R24) -/
section

namespace Sys2Proof.Machine

open Sys2Proof.Claims

/-- The state answered meets the invariants, unless the command faulted. -/
def KeepsInv (o : Host.Outcome State Fault Refusal) : Prop := ∀ t, o = .next t → t.fault = 0#8 → StateInv t

theorem keepsInv_next {t : State} (h : StateInv t) : KeepsInv (.next t) := by
  rintro _ ⟨⟩ -
  exact h

theorem keepsInv_faulted (k : FaultKind) (info : BitVec 32) (opc : BitVec 8) (s : State) :
    KeepsInv (.next (faulted (faultCode k) info opc s)) := by
  rintro _ ⟨⟩ clear
  exact absurd clear (Procedures.takeFault_halted ⟨k, info⟩ opc s)

theorem keepsInv_concluded {opc : BitVec 8} {len : State → BitVec 32} {s : State} {work : Except Raise State}
    (ended : ∀ v, work = .ok v → StateInv v) : KeepsInv (.next (concluded opc len s work)) := by
  cases work with
  | error r => exact keepsInv_faulted r.kind r.info opc s
  | ok v => exact keepsInv_next (ended v rfl)

/-- A read of an element answers it or faults, and writes nothing. -/
theorem keepsInv_read {s : State} (h : StateInv s) {w : Nat} {elements : List (BitVec w)} {n : Nat}
    {o : Host.Outcome State Fault Refusal} {val : BitVec w → BitVec 32} {info : BitVec 32} {opc : BitVec 8}
    (inside : ∀ v, elements[n]? = some v → o = .next (answered (val v) s))
    (beyond : elements.length ≤ n → o = .next (faulted (faultCode .badIndex) info opc s)) : KeepsInv o := by
  cases helement : elements[n]? with
  | none => exact beyond (List.getElem?_eq_none_iff.1 helement) ▸ keepsInv_faulted _ _ _ _
  | some v => exact inside v helement ▸ keepsInv_next h

/-- A bit shifted in below the eighth keeps the accumulator below two to the number of bits (41_bitstream.md R102). -/
theorem sinkInv_shifted {s : State} {v : BitVec 32} (bit : IsBit v) (pending : s.nacc.toNat < 7)
    (acc : s.acc.toNat < 2 ^ s.nacc.toNat) : SinkInv { s with
      acc := BitVec.ofNat 8 (2 * s.acc.toNat + v.toNat), nacc := BitVec.ofNat 3 (s.nacc.toNat + 1) } := by
  have count : (BitVec.ofNat 3 (s.nacc.toNat + 1)).toNat = s.nacc.toNat + 1 := by
    rw [BitVec.toNat_ofNat]
    omega
  have small : v.toNat ≤ 1 := by rcases bit with rfl | rfl <;> decide
  refine ⟨?_, ?_⟩
  · show (BitVec.ofNat 3 (s.nacc.toNat + 1)).toNat ≤ 7
    omega
  · show (BitVec.ofNat 8 (2 * s.acc.toNat + v.toNat)).toNat < 2 ^ (BitVec.ofNat 3 (s.nacc.toNat + 1)).toNat
    rw [count, BitVec.toNat_ofNat, pow_succ]
    exact (Nat.mod_le _ _).trans_lt (by omega)

section
variable {s : State} (h : StateInv s) (ready : s.fault = 0#8)
include h ready

theorem csrr_keepsInv (addr : BitVec 8) : KeepsInv (exec (.csrr addr) s) := by
  cases hreg : registerAt addr s with
  | none =>
    rw [exec_csrr_undefined hreg, runRule_faulted .badIndex ready rfl]
    exact keepsInv_faulted _ _ _ _
  | some v => exact exec_csrr_defined hreg ▸ keepsInv_next h

theorem ibClr_keepsInv : KeepsInv (exec .ibClr s) := by
  obtain ⟨-, clears, -⟩ := ibClrEmptiesAndRewinds
  obtain ⟨cfg, latch, ⟨-, ob, cb⟩, -, rest⟩ := h
  exact clears s ready ▸ keepsInv_next
    ⟨cfg, latch, ⟨Nat.zero_le _, ob, cb⟩, ⟨Nat.zero_le _, Nat.zero_le _⟩, rest⟩

theorem ibPush_keepsInv (v : BitVec 8) : KeepsInv (exec (.ibPush v) s) := by
  by_cases full : s.ib.length = s.cfg.ibCap
  · exact exec_ibPush_full v ready full ▸ keepsInv_faulted .overflow _ _ _
  · obtain ⟨cfg, latch, ⟨ib, ob, cb⟩, ⟨ptr, cnt⟩, rest⟩ := h
    have inside : s.ibPtr.toNat ≤ (s.ib ++ [v]).length := ptr.trans (List.prefix_append _ _).length_le
    exact exec_ibPush_room v ready full ▸ keepsInv_next
      ⟨cfg, latch, ⟨length_concat_le ib full, ob, cb⟩, ⟨inside, cnt⟩, rest⟩

theorem cbClr_keepsInv : KeepsInv (exec .cbClr s) := by
  obtain ⟨-, clears, -⟩ := cbClrEmptiesTheCodes
  obtain ⟨cfg, latch, ⟨ib, ob, -⟩, rest⟩ := h
  exact clears s ready ▸ keepsInv_next ⟨cfg, latch, ⟨ib, ob, Nat.zero_le _⟩, rest⟩

theorem cbPush_keepsInv (k : BitVec 32) : KeepsInv (exec (.cbPush k) s) := by
  obtain ⟨-, pushes, overflows, -⟩ := cbPushAppendsOneCode
  by_cases full : s.cb.length = s.cfg.cbCap
  · exact overflows s k ready full ▸ keepsInv_faulted .overflow _ _ _
  · obtain ⟨cfg, latch, ⟨ib, ob, cb⟩, rest⟩ := h
    exact pushes s k ready full ▸ keepsInv_next ⟨cfg, latch, ⟨ib, ob, length_concat_le cb full⟩, rest⟩

theorem treeWr_keepsInv (idx : BitVec 9) (w : BitVec 32) : KeepsInv (exec (.treeWr idx w) s) := by
  by_cases legal : reservedNodeBits w = 0#5
  · obtain ⟨cfg, latch, buffers, source, sink, ⟨count, root, wf⟩, rest⟩ := h
    exact exec_treeWr_legal idx ready legal ▸ keepsInv_next
      ⟨cfg, latch, buffers, source, sink, ⟨count, root, treeWrite_wf wf idx.isLt legal⟩, rest⟩
  · have illegal : exec (.treeWr idx w) s = .next (faulted (faultCode .illegalCommand) w 0x20#8 s) := by
      simp only [exec, execTreeWr]
      exact runRule_faulted .illegalCommand ready (if_neg legal)
    exact illegal ▸ keepsInv_faulted _ _ _ _

theorem treeRd_keepsInv (idx : BitVec 9) : KeepsInv (exec (.treeRd idx) s) := by
  cases hread : treeRead s.tree idx.toNat with
  | none => exact exec_treeRd_unwritten ready hread ▸ keepsInv_faulted .badIndex _ _ _
  | some w => exact exec_treeRd_written ready hread ▸ keepsInv_next h

theorem treeCfg_keepsInv (root : BitVec 9) (count : BitVec 10) : KeepsInv (exec (.treeCfg root count) s) := by
  by_cases fits : count.toNat ≤ 512
  · by_cases outside : 0 < count.toNat ∧ count.toNat ≤ root.toNat
    · exact exec_treeCfg_badRoot ready fits outside.1 outside.2 ▸ keepsInv_faulted .badConfig _ _ _
    · obtain ⟨cfg, latch, buffers, source, sink, ⟨-, -, wf⟩, rest⟩ := h
      have inside : count.toNat = 0 ∨ root.toNat < count.toNat := by omega
      have declared : count = 0#10 ∨ root.toNat < count.toNat := inside.imp BitVec.eq_of_toNat_eq id
      exact exec_treeCfg_declared ready fits inside ▸ keepsInv_next
        ⟨cfg, latch, buffers, source, sink, ⟨fits, declared, wf⟩, rest⟩
  · exact exec_treeCfg_badCount root ready (not_le.1 fits) ▸ keepsInv_faulted .badConfig _ _ _

theorem treeClr_keepsInv : KeepsInv (exec .treeClr s) := by
  obtain ⟨cfg, latch, buffers, source, sink, -, rest⟩ := h
  exact exec_treeClr_ready ready ▸ keepsInv_next
    ⟨cfg, latch, buffers, source, sink, ⟨Nat.zero_le _, .inl rfl, reset_wf⟩, rest⟩

theorem bspOpen_keepsInv : KeepsInv (exec .bspOpen s) := by
  obtain ⟨-, opens, -⟩ := bspOpenStartsAnEmptySink
  obtain ⟨cfg, latch, ⟨ib, -, cb⟩, source, -, rest⟩ := h
  exact opens s ready ▸ keepsInv_next
    ⟨cfg, latch, ⟨ib, Nat.zero_le _, cb⟩, source, ⟨Nat.zero_le _, Nat.one_pos⟩, rest⟩

theorem bspWbit_keepsInv (v : BitVec 32) : KeepsInv (exec (.bspWbit v) s) := by
  by_cases bit : IsBit v
  · by_cases pending : s.nacc.toNat < 7
    · obtain ⟨cfg, latch, buffers, source, ⟨-, acc⟩, rest⟩ := h
      exact exec_bspWbit_pending ready bit pending ▸ keepsInv_next
        ⟨cfg, latch, buffers, source, sinkInv_shifted bit pending acc, rest⟩
    · have eighth : s.nacc.toNat = 7 := by
        have := s.nacc.isLt
        omega
      by_cases full : s.ob.length = s.cfg.obCap
      · exact exec_bspWbit_eighth_full ready bit eighth full ▸ keepsInv_faulted .overflow _ _ _
      · exact exec_bspWbit_eighth_room ready bit eighth full ▸ keepsInv_next (h.emitted _ full)
  · obtain ⟨h0, h1⟩ := not_or.1 bit
    exact exec_bspWbit_invalid ready h0 h1 ▸ keepsInv_faulted .invalidBitValue _ _ _

theorem bspFlush_keepsInv : KeepsInv (exec .bspFlush s) := by
  by_cases none : s.nacc = 0#3
  · exact exec_bspFlush_none ready none ▸ keepsInv_next h
  · by_cases full : s.ob.length = s.cfg.obCap
    · exact exec_bspFlush_full ready none full ▸ keepsInv_faulted .overflow _ _ _
    · exact exec_bspFlush_room ready none full ▸ keepsInv_next (h.emitted _ full)

theorem bsuOpen_keepsInv : KeepsInv (exec .bsuOpen s) := by
  obtain ⟨-, opens, -⟩ := bsuOpenRewindsTheSource
  obtain ⟨cfg, latch, buffers, -, rest⟩ := h
  exact opens s ready ▸ keepsInv_next ⟨cfg, latch, buffers, ⟨Nat.zero_le _, Nat.zero_le _⟩, rest⟩

theorem bsuRbit_keepsInv : KeepsInv (exec .bsuRbit s) := by
  cases hread : readBit s with
  | none => exact exec_bsuRbit_eos ready hread ▸ keepsInv_next h
  | some p =>
    have moved : StateInv p.2 := h.readBit hread
    exact exec_bsuRbit_of_readBit ready hread ▸ keepsInv_next moved

theorem htdDecode_keepsInv (count : BitVec 32) : KeepsInv (exec (.htdDecode count) s) := by
  by_cases noTree : s.treeN = 0#10
  · exact exec_htdDecode_noTree count ready noTree ▸ keepsInv_faulted .noTree _ _ _
  have opened := h.openDecode count
  cases root : nodeOf s s.treeRoot with
  | none => exact exec_htdDecode_badRoot count ready noTree (fetchNode_of_none root) ▸ keepsInv_faulted .badTree _ _ _
  | some w =>
    cases leaf : nodeIsLeaf w with
    | true =>
      by_cases room : count.toNat ≤ s.cfg.obCap
      · obtain ⟨cfg, latch, ⟨ib, -, cb⟩, rest⟩ := opened
        exact exec_htdDecode_leaf_room ready root leaf room ▸ keepsInv_next
          ⟨cfg, latch, ⟨ib, List.length_replicate.trans_le room, cb⟩, rest⟩
      · exact exec_htdDecode_leaf_full ready root leaf (not_le.1 room) ▸ keepsInv_faulted .overflow _ _ _
    | false =>
      rw [exec_htdDecode_walk count ready (fetchNode_of_some root) leaf]
      cases hwalk : walk (walkFuel s) s.treeRoot count s.treeRoot (openDecode count s) with
      | error r => exact keepsInv_faulted r.kind _ _ _
      | ok e => exact keepsInv_next (opened.walk _ hwalk)

theorem lzeEncode_keepsInv (m : BitVec 32) : KeepsInv (exec (.lzeEncode m) s) := by
  intro t hexec after
  obtain ⟨legal, v, hv, rfl⟩ := exec_lzeEncode_inv ready hexec after
  obtain ⟨low, high⟩ := (badMax_eq_false_iff m s).1 legal
  obtain ⟨bound, frame⟩ := Procedures.lzeEncode_frame hexec after
  have encoded := encodeText_encoded low hv
  obtain ⟨cfg, latch, ⟨ib, ob, -⟩, source, sink, tree, -, decode⟩ := h
  have dict : DictInv v.eDict v.eMax s.cfg.dictCap := encoded.eMax.symm ▸ encoded.seeded.dictInv high
  rw [frame]
  exact ⟨cfg, latch, ⟨ib, ob, bound⟩, source, sink, tree,
    ⟨dict, encoded.nodup, encoded.working.imp_left And.left⟩, decode⟩

theorem lzdDecode_keepsInv (m : BitVec 32) : KeepsInv (exec (.lzdDecode m) s) := by
  cases hmax : badMax m s with
  | true => exact exec_lzdDecode_badMax ready hmax ▸ keepsInv_faulted .badConfig _ _ _
  | false =>
    rw [exec_lzdDecode_legalMax ready hmax]
    refine keepsInv_concluded fun v hv => ?_
    obtain ⟨low, high⟩ := (badMax_eq_false_iff m s).1 hmax
    obtain ⟨max, seeded⟩ := decodeCodes_seeded low hv
    obtain ⟨bound, acc, nacc⟩ := sinkClear_decodeCodes hv
    have frame : v = writtenBy (.lzdDecode m) v s := frame_of_alike (decodeCodes_alike m rfl rfl) hv
    obtain ⟨cfg, latch, ⟨ib, -, cb⟩, source, -, tree, encode, -⟩ := h
    have dict : DictInv v.dDict v.dMax s.cfg.dictCap := max.symm ▸ seeded.dictInv high
    have sink : SinkInv v := by
      simp [SinkInv, acc, nacc]
    have sameCfg : v.cfg = s.cfg := by
      rw [frame]
      rfl
    rw [sameCfg] at bound
    rw [frame]
    exact ⟨cfg, latch, ⟨ib, bound, cb⟩, source, sink, tree, encode, dict⟩

theorem cpkPack_keepsInv : KeepsInv (exec .cpkPack s) := by
  by_cases room : 2 * s.cb.length ≤ s.cfg.obCap
  · obtain ⟨cfg, latch, ⟨ib, -, cb⟩, source, -, rest⟩ := h
    exact exec_cpkPack_room ready room ▸ keepsInv_next
      ⟨cfg, latch, ⟨ib, (packedBytes_length s.cb).trans_le room, cb⟩, source, ⟨Nat.zero_le _, Nat.one_pos⟩, rest⟩
  · exact exec_cpkPack_full ready (not_le.1 room) ▸ keepsInv_faulted .overflow _ _ _

theorem cupUnpack_keepsInv : KeepsInv (exec .cupUnpack s) := by
  rcases Nat.mod_two_eq_zero_or_one s.ib.length with even | odd
  · by_cases room : s.ib.length / 2 ≤ s.cfg.cbCap
    · obtain ⟨cfg, latch, ⟨ib, ob, -⟩, rest⟩ := h
      exact exec_cupUnpack_room ready even room ▸ keepsInv_next
        ⟨cfg, latch, ⟨ib, ob, (unpackedCodes_length s.ib).trans_le room⟩, rest⟩
    · exact exec_cupUnpack_full ready even (not_le.1 room) ▸ keepsInv_faulted .overflow _ _ _
  · exact exec_cupUnpack_odd ready odd ▸ keepsInv_faulted .malformedBuffer _ _ _

/-- Every command that does not fault keeps the invariants. -/
theorem exec_keepsInv (i : Instr) : KeepsInv (exec i s) := by
  cases i with
  | nop =>
    obtain ⟨-, ends, -⟩ := nopDoesNothing
    exact ends s ready ▸ keepsInv_next h
  | rst => exact keepsInv_next (stateInv_reset h.1 _ _)
  | csrr addr => exact csrr_keepsInv h ready addr
  | ibClr => exact ibClr_keepsInv h ready
  | ibPush v => exact ibPush_keepsInv h ready v
  | ibRd a =>
    obtain ⟨-, inside, beyond, -⟩ := ibRdReadsOneByte
    exact keepsInv_read h (inside s a · ready) (beyond s a ready)
  | obRd a =>
    obtain ⟨-, inside, beyond, -⟩ := obRdReadsOneByte
    exact keepsInv_read h (inside s a · ready) (beyond s a ready)
  | cbClr => exact cbClr_keepsInv h ready
  | cbPush k => exact cbPush_keepsInv h ready k
  | cbRd a =>
    obtain ⟨-, inside, beyond, -⟩ := cbRdReadsOneCode
    exact keepsInv_read h (inside s a · ready) (beyond s a ready)
  | treeWr j w => exact treeWr_keepsInv h ready j w
  | treeRd j => exact treeRd_keepsInv h ready j
  | treeCfg r n => exact treeCfg_keepsInv h ready r n
  | treeClr => exact treeClr_keepsInv h ready
  | bspOpen => exact bspOpen_keepsInv h ready
  | bspWbit v => exact bspWbit_keepsInv h ready v
  | bspFlush => exact bspFlush_keepsInv h ready
  | bsuOpen => exact bsuOpen_keepsInv h ready
  | bsuRbit => exact bsuRbit_keepsInv h ready
  | htdDecode e => exact htdDecode_keepsInv h ready e
  | lzeEncode m => exact lzeEncode_keepsInv h ready m
  | lzdDecode m => exact lzdDecode_keepsInv h ready m
  | cpkPack => exact cpkPack_keepsInv h ready
  | cupUnpack => exact cupUnpack_keepsInv h ready

end

/-- A fault that a command raises keeps the invariants (60_exceptions.md R203, R206). -/
theorem StateInv.faulted {s : State} (h : StateInv s) {k : FaultKind} (raised : k ≠ .unknownSymbol) (info : BitVec 32)
    (opc : BitVec 8) : StateInv (faulted (faultCode k) info opc s) := by
  obtain ⟨cfg, -, rest⟩ := h
  have range : (faultCode k).toNat ≤ 10 := by cases k <;> decide
  have known : faultCode k ≠ 0x03#8 := fun code => raised (faultCode_eq_unknownSymbol code)
  have set : faultCode k ≠ 0#8 := Procedures.takeFault_halted ⟨k, info⟩ opc s
  exact ⟨cfg, ⟨range, known, fun clear => absurd clear set⟩, rest⟩

/-- A word accepted in READY keeps the invariants. -/
theorem StateInv.acceptCommand_ready {s t : State} (h : StateInv s) {w : BitVec 64} (ready : s.fault = 0#8)
    (hw : acceptCommand w s = .next t) : StateInv t := by
  obtain ⟨u, hu, clear | ⟨r, raised, rfl⟩⟩ := acceptCommand_readyOrFaulted ready w
  · cases hu.symm.trans hw
    cases legal : decode w with
    | ok i => exact exec_keepsInv h ready i t (acceptCommand_legal legal s ▸ hw) clear
    | error e =>
      have illegal : ∀ i, decode w ≠ .ok i := by simp [legal]
      cases (acceptCommand_illegal_ready illegal ready).symm.trans hw
      exact absurd (show 0x01#8 = 0#8 from clear) (by decide)
  · cases hu.symm.trans hw
    exact h.faulted raised _ _

/-- A word accepted in HALTED keeps the invariants: it answers, is refused or resets (60_exceptions.md R202). -/
theorem StateInv.acceptCommand_halted {s t : State} (h : StateInv s) {w : BitVec 64} (stopped : s.fault ≠ 0#8)
    (hw : acceptCommand w s = .next t) : StateInv t := by
  obtain ⟨rst, csrr, other⟩ := haltedRefusesAllButRstAndCsrr s stopped
  by_cases hrst : w = 0x0200000000000000#64
  · subst hrst
    cases rst.symm.trans hw
    exact stateInv_reset h.1 _ _
  · by_cases hcsrr : ∃ p ∈ registers s, w = word 0x03#8 (p.1.setWidth 24) 0#32
    · obtain ⟨p, hp, rfl⟩ := hcsrr
      cases (csrr p hp).symm.trans hw
      exact h
    · cases (other w hrst (by simpa using hcsrr)).symm.trans hw
      exact h

end Sys2Proof.Machine

open Sys2Proof Sys2Proof.Machine

/-- Settles O17, by the host event, the mode and the command. -/
theorem everyStepKeepsTheInvariant : Obligations.EveryStepKeepsTheInvariant := by
  unfold Obligations.EveryStepKeepsTheInvariant
  intro s t h hstep
  cases hinput : s.input with
  | nil =>
    cases (step_idle hinput).symm.trans hstep
    exact h
  | cons event rest =>
    have taken : StateInv { s with input := rest } := h
    cases event with
    | hardwareReset =>
      cases (step_hardwareReset hinput).symm.trans hstep
      exact stateInv_reset h.1 _ _
    | command w =>
      rw [step_command hinput] at hstep
      by_cases ready : s.fault = 0#8
      · exact taken.acceptCommand_ready ready hstep
      · exact taken.acceptCommand_halted ready hstep

end
